-- ==== Sys2Proof/Word.lean ====
section
/-! DEFINITION. The plain data types of the VA-24's manual: bytes, words, lines, pages, epochs, master numbers and
master sets (00_scope.md, CONVENTIONS). -/

namespace Sys2Proof

/-- One byte. -/
abbrev Byte := BitVec 8

/-- A word of 4 bytes. The unit carries words unchanged and never computes with them; byte number `j` of a word
(R2: ascending address) is written here as bits `8j` to `8j + 7`. -/
abbrev Word := BitVec 32

/-- A line number, 0 to 134 217 727 (R2, Figure 5). -/
abbrev Line := BitVec 27

/-- A page number, 0 to 1 048 575 (00_scope.md, CONVENTIONS). -/
abbrev Page := BitVec 20

/-- An epoch, 0 to 15, wrapping from 15 to 0 (R125). -/
abbrev Epoch := BitVec 4

/-- A sequence number, 0 to 65535, wrapping (R143). -/
abbrev Seq := BitVec 16

/-- A master number, 0 to 3; also the number of its port and of its reset input. -/
abbrev Master := Fin 4

/-- A master set: bit `n` is set when master `n` is in the set (section 8.9). -/
abbrev MasterSet := BitVec 4

/-- The slot number of a hold entry, 0 to 7 (R90). -/
abbrev HoldSlot := Fin 8

/-- The op slot of an outstanding operation, 0 to 3 (R119). -/
abbrev OpSlot := Fin 4

/-- The page of a line: the line number divided by 128, discarding the remainder (R25). -/
def Line.page (l : Line) : Page := BitVec.ofNat 20 (l.toNat / 128)

/-- Whether a master is in a master set. -/
def MasterSet.has (s : MasterSet) (m : Master) : Bool := s.getLsbD m.val

end Sys2Proof
end

