-- ==== Sys2Proof/Config.lean ====
section
/-! DEFINITION. What the part fixes (capacities, defaults, codes stated by the manual) and the three values the
manual leaves open, as constants without a body. -/

namespace Sys2Proof.Config

/-- FREE VALUE. Which of several events of the unit's own, all possible at one moment, is taken first: the manual says
that either may be ("Either may be taken first", R1, R56, R105, R124, R129). Applied to the count of choices drawn.
Assumption 3. -/
opaque choice : Nat → Nat

/-- FREE VALUE. How many steps of the unit's time base make one microsecond; the manual gives no clock-cycle counts
(00_scope.md, CONVENTIONS, Time). Assumption 4. -/
opaque stepsPerMicrosecond : Nat

/-- FREE VALUE. What data-out carries with a byte clocked after the deassertion of RESET while select has stayed asserted
since before it: R162 says that the byte is ignored and does not say what is carried out. Applied to the count of such
bytes. Assumption 18. -/
opaque ignoredByte : Nat → BitVec 8

/-- The Posting Queue holds at most 16 entries (R42). -/
def queueCapacity : Nat := 16

/-- The Hold Table holds at most 8 entries (R89). -/
def holdCapacity : Nat := 8

/-- No master owns more than 2 hold entries (R89). -/
def holdsPerMaster : Nat := 2

/-- At most 4 operations are outstanding (R122). -/
def opCapacity : Nat := 4

/-- The Incident List holds at most 8 records (R144). -/
def incidentCapacity : Nat := 8

/-- The Link Unit keeps the first 24 bytes of the frame in progress (R154). -/
def frameKept : Nat := 24

/-- The count of bytes clocked saturates at 25 (R154). -/
def frameCountMax : Nat := 25

/-- The largest argument length of a command frame (R155). -/
def maxArgs : Nat := 20

/-- Default of HOLD_LIMIT, 250 µs (R92). -/
def holdLimitDefault : BitVec 16 := 250

/-- Default of MEM_TIMEOUT, 40 µs (R128). -/
def memTimeoutDefault : BitVec 16 := 40

/-- Default of URGENT_LEVEL, 12 (R64). -/
def urgentLevelDefault : BitVec 16 := 12

/-- Default of ALERT_MASK, all eight kinds (R152). -/
def alertMaskDefault : BitVec 8 := 0xFF

/-- The part code, 24h (R167). -/
def partCode : Byte := 0x24

/-- The control-link revision, 1 (R167). -/
def linkRevision : Byte := 1

end Sys2Proof.Config
end

