-- ==== Sys2Proof/Syntax.lean ====
section
/-! DEFINITION. The commands the block takes: one constructor of `Instr` per row of spec/opcode_table.json, and the
messages they carry. -/

namespace Sys2Proof

/-- The hold mark of a READ or WRITE (R2, Figure 5): NONE, TAKE or FREE. -/
inductive Mark where
  | noMark
  | take
  | free
  deriving DecidableEq, Repr

/-- The hold-mark field as it arrives: one of the three marks, or a value that is none of them (R3). -/
inductive MarkField where
  | valid (mark : Mark)
  | other
  deriving DecidableEq, Repr

/-- One word of write data: its four bytes, each present with its value or absent (R2: byte mask; R45: an absent byte
carries no data). -/
structure WordData where
  b0 : Option Byte
  b1 : Option Byte
  b2 : Option Byte
  b3 : Option Byte
  deriving DecidableEq, Repr

/-- The fields of a request as they arrive (Figure 5). A field may be absent, present where the kind does not have it,
or out of range: stage 1 of acceptance judges that (R3). -/
structure Fields where
  line : Option Nat
  first : Option Nat
  count : Option Nat
  data : Option (List WordData)
  mark : Option MarkField
  deriving DecidableEq, Repr

/-- The status a completion carries (R121). -/
inductive MemStatus where
  | good
  | bad
  deriving DecidableEq, Repr

/-- Bits clocked on the control link, most significant bit of each byte first (R154): before them select is asserted if
`opens`, after them it is released if `closes`. -/
structure LinkPiece where
  opens : Bool
  bits : List Bool
  closes : Bool
  deriving DecidableEq, Repr

/-- The commands and events the block takes, one constructor per row of the table. A control-link command carries
its tag byte and its argument bytes; the rest of its frame (code, length, check byte) follows from them (R155). -/
inductive Instr where
  /-- READ (R70): a READ request of master `m`. -/
  | read (m : Master) (f : Fields)
  /-- WRITE (R47): a WRITE request of master `m`. -/
  | write (m : Master) (f : Fields)
  /-- FENCE (R79): a FENCE request of master `m`. -/
  | fence (m : Master) (f : Fields)
  /-- DROP (R103): a DROP request of master `m`. -/
  | drop (m : Master) (f : Fields)
  /-- GRANT_Q (R61): the arbiter grants the Posting Queue. -/
  | grantQ
  /-- GRANT_P (R73): the arbiter grants port `m`. -/
  | grantP (m : Master)
  /-- COMPLETION (R126): the memory controller returns a completion (R121). -/
  | completion (epoch : Epoch) (slot : OpSlot) (status : MemStatus) (words : List Word)
  /-- HALT (R130): the timer of the oldest outstanding operation expires. -/
  | halt
  /-- HOLD_EXPIRY (R104): the timer of the ACTIVE hold in `slot` expires. -/
  | holdExpiry (slot : HoldSlot)
  /-- PORT_RESET_ASSERT (R20): PRSTn is asserted. -/
  | portResetAssert (m : Master)
  /-- PORT_RESET_DEASSERT (R21): PRSTn is deasserted. -/
  | portResetDeassert (m : Master)
  /-- RESET_ASSERT (R22): the power-on reset input is asserted. -/
  | resetAssert
  /-- RESET_DEASSERT (R22): the power-on reset input is deasserted. -/
  | resetDeassert
  /-- FRAME_FAULT (R158): a whole frame that is not a good frame of a known command, or a piece of a frame. What comes
  between two pieces comes while select stays asserted. -/
  | frameFault (piece : LinkPiece)
  /-- NOP (R163). -/
  | nop (tag : Byte) (args : List Byte)
  /-- GET (R164). -/
  | getItem (tag : Byte) (args : List Byte)
  /-- SET (R165). -/
  | setItem (tag : Byte) (args : List Byte)
  /-- LOAD_WINDOW (R33). -/
  | loadWindow (tag : Byte) (args : List Byte)
  /-- READ_WINDOW (R37). -/
  | readWindow (tag : Byte) (args : List Byte)
  /-- DISABLE_WINDOW (R36). -/
  | disableWindow (tag : Byte) (args : List Byte)
  /-- FREEZE (R40). -/
  | freeze (tag : Byte) (args : List Byte)
  /-- READ_HOLD (R112). -/
  | readHold (tag : Byte) (args : List Byte)
  /-- BREAK_HOLD (R109). -/
  | breakHold (tag : Byte) (args : List Byte)
  /-- CLEAR_HOLDS (R111). -/
  | clearHolds (tag : Byte) (args : List Byte)
  /-- PEEK_INCIDENT (R147). -/
  | peekIncident (tag : Byte) (args : List Byte)
  /-- DISCARD_INCIDENT (R148). -/
  | discardIncident (tag : Byte) (args : List Byte)
  /-- CLEAR_OVERFLOW (R149). -/
  | clearOverflow (tag : Byte) (args : List Byte)
  /-- READ_STATUS (R166). -/
  | readStatus (tag : Byte) (args : List Byte)
  /-- RESUME (R137). -/
  | resume (tag : Byte) (args : List Byte)
  /-- IDENTIFY (R167). -/
  | identify (tag : Byte) (args : List Byte)
  /-- MALFORMED_REQUEST (R3): a request of master `m` whose kind is none of READ, WRITE, FENCE and DROP. -/
  | malformedRequest (m : Master) (f : Fields)
  deriving DecidableEq, Repr

/-- The sixteen commands of the control link (Figure 43). -/
inductive LinkCommand where
  | nop | getItem | setItem | loadWindow | readWindow | disableWindow | freeze | readHold
  | breakHold | clearHolds | peekIncident | discardIncident | clearOverflow | readStatus | resume | identify
  deriving DecidableEq, Repr

end Sys2Proof
end

