-- ==== Sys2Proof/Decode.lean ====
section
/-! DEFINITION. The table gives no row any bits, so `decodeTableWord` spells no command. What the block does decode is
the command frame of the control link (R154 to R159, Figure 46): the frame's bytes from its bits, the check byte, the
judging of a frame, and the command codes with their argument lengths. -/

namespace Sys2Proof

/-- The command a word spells by the table's bits: no row of spec/opcode_table.json gives any bits, so none. -/
def decodeTableWord (_nbits _w : Nat) : Option Instr := none

/-- A byte from its eight bits, most significant bit first (R154). -/
def byteOfBits (b7 b6 b5 b4 b3 b2 b1 b0 : Bool) : Byte :=
  BitVec.ofBoolListBE [b7, b6, b5, b4, b3, b2, b1, b0]

/-- The whole bytes of a frame from the bits clocked; a byte of fewer than eight bits at the end is discarded (R154). -/
def bytesOfBits : List Bool → List Byte
  | b7 :: b6 :: b5 :: b4 :: b3 :: b2 :: b1 :: b0 :: rest => byteOfBits b7 b6 b5 b4 b3 b2 b1 b0 :: bytesOfBits rest
  | _ => []

/-- The bits of an unfinished byte at the end of the bits clocked: fewer than eight (R154). -/
def cutBits : List Bool → List Bool
  | _ :: _ :: _ :: _ :: _ :: _ :: _ :: _ :: rest => cutBits rest
  | bits => bits

/-- The eight bits of a byte as they are clocked, most significant first (R154). -/
def bitsOfByte (b : Byte) : List Bool :=
  [b.getLsbD 7, b.getLsbD 6, b.getLsbD 5, b.getLsbD 4, b.getLsbD 3, b.getLsbD 2, b.getLsbD 1, b.getLsbD 0]

/-- The bits of a frame as they are clocked. -/
def bitsOfBytes (bytes : List Byte) : List Bool := bytes.flatMap bitsOfByte

/-- The sum of bytes modulo 256 (R155). -/
def byteSum (bytes : List Byte) : Byte := bytes.foldr (· + ·) 0

/-- The check byte that makes the sum of a frame 0 modulo 256 (R155). -/
def checkByte (bytes : List Byte) : Byte := 0 - byteSum bytes

/-- The code of a command (Figure 46, part B). -/
def LinkCommand.code : LinkCommand → Byte
  | .nop => 0x01
  | .getItem => 0x02
  | .setItem => 0x03
  | .loadWindow => 0x10
  | .readWindow => 0x11
  | .disableWindow => 0x12
  | .freeze => 0x13
  | .readHold => 0x20
  | .breakHold => 0x21
  | .clearHolds => 0x22
  | .peekIncident => 0x30
  | .discardIncident => 0x31
  | .clearOverflow => 0x32
  | .readStatus => 0x40
  | .resume => 0x41
  | .identify => 0x42

/-- The command a code names, if it names one of the sixteen (R159). -/
def LinkCommand.ofCode (code : Byte) : Option LinkCommand :=
  match code.toNat with
  | 0x01 => some .nop
  | 0x02 => some .getItem
  | 0x03 => some .setItem
  | 0x10 => some .loadWindow
  | 0x11 => some .readWindow
  | 0x12 => some .disableWindow
  | 0x13 => some .freeze
  | 0x20 => some .readHold
  | 0x21 => some .breakHold
  | 0x22 => some .clearHolds
  | 0x30 => some .peekIncident
  | 0x31 => some .discardIncident
  | 0x32 => some .clearOverflow
  | 0x40 => some .readStatus
  | 0x41 => some .resume
  | 0x42 => some .identify
  | _ => none

/-- The argument length Figure 46 gives for a command; NOP takes any length from 0 to 20 (none here) (R159). -/
def LinkCommand.argLength : LinkCommand → Option Nat
  | .nop => none
  | .getItem => some 1
  | .setItem => some 3
  | .loadWindow => some 14
  | .readWindow => some 1
  | .disableWindow => some 1
  | .freeze => some 0
  | .readHold => some 1
  | .breakHold => some 1
  | .clearHolds => some 0
  | .peekIncident => some 0
  | .discardIncident => some 2
  | .clearOverflow => some 0
  | .readStatus => some 0
  | .resume => some 0
  | .identify => some 0

/-- Whether a number of argument bytes suits a command (R159). -/
def LinkCommand.takes (c : LinkCommand) (n : Nat) : Bool :=
  match c.argLength with
  | none => true
  | some k => n == k

/-- The bytes of a frame before its check byte: code, tag, argument length, arguments (R155). -/
def frameBody (code tag : Byte) (args : List Byte) : List Byte :=
  code :: tag :: BitVec.ofNat 8 args.length :: args

/-- A command frame with its check byte (R155). -/
def frameOf (code tag : Byte) (args : List Byte) : List Byte :=
  frameBody code tag args ++ [checkByte (frameBody code tag args)]

/-- The outcome of judging a frame (R158). -/
inductive Verdict where
  | framing
  | badCheck (tag : Byte)
  | good (code tag : Byte) (args : List Byte)
  deriving DecidableEq, Repr

/-- The judging of a frame from its first 24 bytes and its count of bytes, which saturates at 25 (R158, R154). -/
def judge (kept : List Byte) (count : Nat) : Verdict :=
  match kept with
  | code :: tag :: n :: rest =>
    if count < 4 ∨ Config.maxArgs < n.toNat ∨ count ≠ 4 + n.toNat then .framing
    else if byteSum kept ≠ 0 then .badCheck tag
    else .good code tag (rest.take n.toNat)
  | _ => .framing

/-- The judging of a whole frame given as its bytes. -/
def judgeBytes (bytes : List Byte) : Verdict :=
  judge (bytes.take Config.frameKept) (min bytes.length Config.frameCountMax)

/-- The command of the table that a control-link command stands for. -/
def LinkCommand.instr (c : LinkCommand) (tag : Byte) (args : List Byte) : Instr :=
  match c with
  | .nop => .nop tag args
  | .getItem => .getItem tag args
  | .setItem => .setItem tag args
  | .loadWindow => .loadWindow tag args
  | .readWindow => .readWindow tag args
  | .disableWindow => .disableWindow tag args
  | .freeze => .freeze tag args
  | .readHold => .readHold tag args
  | .breakHold => .breakHold tag args
  | .clearHolds => .clearHolds tag args
  | .peekIncident => .peekIncident tag args
  | .discardIncident => .discardIncident tag args
  | .clearOverflow => .clearOverflow tag args
  | .readStatus => .readStatus tag args
  | .resume => .resume tag args
  | .identify => .identify tag args

/-- A frame clocked whole: select asserted, the bits clocked, select released (R154). -/
def wholeFrame (bits : List Bool) : LinkPiece := { opens := true, bits := bits, closes := true }

/-- The command a clocked frame carries, if it is a good frame of one of the sixteen commands (R158, R159). -/
def decodeFrame (bits : List Bool) : Option Instr :=
  match judgeBytes (bytesOfBits bits) with
  | .good code tag args => (LinkCommand.ofCode code).map (fun c => c.instr tag args)
  | _ => none

/-- The frame, as clocked, of a control-link command with its tag and arguments (R155). -/
def encodeFrame (c : LinkCommand) (tag : Byte) (args : List Byte) : List Bool :=
  bitsOfBytes (frameOf c.code tag args)

end Sys2Proof
end

