-- ==== Sys2Proof/WellFormed.lean ====
section
/-! DEFINITION. Which commands are spelt as the table's rows mean them. The meanings are total and do not rest on it. -/

namespace Sys2Proof

/-- A control-link command has 0 to 20 argument bytes, since its argument length byte ranges from 0 to 20 (R155). -/
def argsWf (args : List Byte) : Bool := decide (args.length ≤ Config.maxArgs)

/-- The well-formed commands. A request is well formed whatever its fields hold: stage 1 of acceptance answers a breach
of form (R3). A completion carries at most 8 words (R121: as many as the word count of a READ). A FRAME_FAULT that is a
whole frame is not a good frame of a known command, since such a frame is the row of that command (R158, R159). -/
def Instr.wf : Instr → Bool
  | .read _ _ => true
  | .write _ _ => true
  | .fence _ _ => true
  | .drop _ _ => true
  | .grantQ => true
  | .grantP _ => true
  | .completion _ _ _ words => decide (words.length ≤ 8)
  | .halt => true
  | .holdExpiry _ => true
  | .portResetAssert _ => true
  | .portResetDeassert _ => true
  | .resetAssert => true
  | .resetDeassert => true
  | .frameFault piece => !(piece.opens && piece.closes && (decodeFrame piece.bits).isSome)
  | .nop _ args => argsWf args
  | .getItem _ args => argsWf args
  | .setItem _ args => argsWf args
  | .loadWindow _ args => argsWf args
  | .readWindow _ args => argsWf args
  | .disableWindow _ args => argsWf args
  | .freeze _ args => argsWf args
  | .readHold _ args => argsWf args
  | .breakHold _ args => argsWf args
  | .clearHolds _ args => argsWf args
  | .peekIncident _ args => argsWf args
  | .discardIncident _ args => argsWf args
  | .clearOverflow _ args => argsWf args
  | .readStatus _ args => argsWf args
  | .resume _ args => argsWf args
  | .identify _ args => argsWf args
  | .malformedRequest _ _ => true

end Sys2Proof
end

