-- ==== Sys2Proof/Machine/State.lean ====
section
/-! DEFINITION. The state of the VA-24, block by block (Figure 1), the outcomes a step can have beside a next state, and
the state right after power-on reset. Plain data throughout. -/

namespace Sys2Proof.Machine

/-- A moment of the unit's time base: whole microseconds and steps of the part of a microsecond (00_scope.md, Time). -/
structure Time where
  us : Nat
  sub : Nat
  deriving DecidableEq, Repr

/-- A running timer: its limit in µs and the moment it was started (R92, R128). -/
structure Timer where
  limit : Nat
  started : Time
  deriving DecidableEq, Repr

/-- The outcomes and reasons of answers (R4, Figure 6): RETRY. -/
inductive RetryReason where
  | queueFull
  | held
  | lineBusy
  | holdsFull
  deriving DecidableEq, Repr

/-- Reasons of REFUSED (Figure 6). -/
inductive RefusedReason where
  | malformed
  | denied
  | noHold
  | holdLimit
  | notHeld
  | overrun
  deriving DecidableEq, Repr

/-- Reasons of ERROR (Figure 6). -/
inductive ErrorReason where
  | data
  | timeout
  | memDown
  deriving DecidableEq, Repr

/-- An answer (R4). DONE carries the data words of a READ, and none for any other kind. -/
inductive Answer where
  | done (data : List Word)
  | retry (r : RetryReason)
  | refused (r : RefusedReason)
  | lost
  | error (r : ErrorReason)
  deriving DecidableEq, Repr

/-- Where a READ or WRITE goes: line, first word, word count (Figure 5). -/
structure Access where
  line : Line
  first : Fin 8
  count : Nat
  deriving DecidableEq, Repr

/-- The port record: the port state and what it carries (R7, Figure 8). Waited sets and the entry of an unposted write
name entries by their identity (R43, R71). -/
inductive Port where
  | idle
  | blocked (a : Access) (waits : List Nat)
  | ready (a : Access)
  | issued (a : Access) (slot : OpSlot)
  | unposted (a : Access) (entry : Nat)
  | fencing (waits : List Nat)
  deriving DecidableEq, Repr

/-- POSTED or UNPOSTED (Figure 13). -/
inductive Posting where
  | posted
  | unposted
  deriving DecidableEq, Repr

/-- The fields the windows and the background record share (Figure 13). -/
structure Attributes where
  readSet : MasterSet
  writeSet : MasterSet
  hold : Bool
  posting : Posting
  bypass : Bool
  combining : Bool
  deriving DecidableEq, Repr

/-- A window record (R23, Figure 13). -/
structure Window where
  enabled : Bool
  base : Page
  limit : Page
  attrs : Attributes
  deriving DecidableEq, Repr

/-- The Window Unit: windows 0 to 7, the background record B, the frozen flag (R23). -/
structure WindowUnit where
  table : Vector Window 8
  background : Attributes
  frozen : Bool
  deriving DecidableEq, Repr

/-- OPEN, SEALED or ISSUED (R46). -/
inductive EntryState where
  | opened
  | sealed
  | issued
  deriving DecidableEq, Repr

/-- The data of a line with its byte masks: eight words (R44, R45). -/
abbrev LineData := Vector WordData 8

/-- An entry of the Posting Queue (R44, Figure 20). Its slot is its place in the queue; `id` is its identity (R43). -/
structure Entry where
  id : Nat
  master : Master
  line : Line
  words : LineData
  posting : Posting
  state : EntryState
  deriving DecidableEq, Repr

/-- ACTIVE with its running timer, or BROKEN (R91, R92). -/
inductive HoldState where
  | active (timer : Timer)
  | broken
  deriving DecidableEq, Repr

/-- An entry of the Hold Table (R89, Figure 31). -/
structure Hold where
  line : Line
  owner : Master
  state : HoldState
  deriving DecidableEq, Repr

/-- NORMAL or HALTED (R118). -/
inductive MemState where
  | normal
  | halted
  deriving DecidableEq, Repr

/-- A claimant of the arbiter: Q or a port (R122). -/
inductive Claimant where
  | q
  | p (m : Master)
  deriving DecidableEq, Repr

/-- What was issued, with the fields the kind has (Figure 36). -/
inductive OpKind where
  | read (first : Fin 8) (count : Nat) (waiting : Bool)
  | write (entry : Nat)
  deriving DecidableEq, Repr

/-- A record of the outstanding operation list (R119, Figure 36). -/
structure Op where
  kind : OpKind
  slot : OpSlot
  epoch : Epoch
  line : Line
  master : Master
  timer : Timer
  deriving DecidableEq, Repr

/-- The Memory Port (R118). The rotation position is none while it stands before Q. -/
structure MemPort where
  state : MemState
  epoch : Epoch
  ops : List Op
  rotation : Option Claimant
  deriving DecidableEq, Repr

/-- An operation as it goes to the memory controller (R120). -/
inductive Operation where
  | read (line : Line) (first : Fin 8) (count : Nat) (epoch : Epoch) (slot : OpSlot)
  | write (line : Line) (words : LineData) (epoch : Epoch) (slot : OpSlot)
  deriving DecidableEq, Repr

/-- An incident with the fields of its kind (R142, Figure 39). A window number is 0 to 7, or 8 for B. -/
inductive Incident where
  | denied (master : Master) (line : Line) (window : Fin 9)
  | holdExpired (master : Master) (line : Line) (slot : HoldSlot)
  | holdsDropped (master : Master) (count : Nat)
  | dataError (master : Master) (line : Line)
  | memTimeout (line : Line) (count : Nat)
  | writeLost (master : Master) (line : Line)
  | lateCompletion (epoch : Epoch)
  | overrun (master : Master)
  deriving DecidableEq, Repr

/-- A record of the Incident List (R142). -/
structure Record where
  seq : Seq
  incident : Incident
  deriving DecidableEq, Repr

/-- The Incident Unit (R143 to R145, R151). -/
structure IncidentUnit where
  records : List Record
  counter : Seq
  overflow : BitVec 8
  alert : Bool
  deriving DecidableEq, Repr

/-- The settings items (R169). `alertMask` has one bit for each kind (Figure 46, part D). -/
structure Settings where
  holdLimit : BitVec 16
  memTimeout : BitVec 16
  urgentLevel : BitVec 16
  alertMask : BitVec 8
  deriving DecidableEq, Repr

/-- Response statuses (Figure 42). -/
inductive Status where
  | ok
  | empty
  | badCommand
  | badItem
  | badValue
  | badState
  | frozen
  | badCheck
  | framing
  | noResponse
  deriving DecidableEq, Repr

/-- The response buffer: one response frame; its length and check bytes follow from these (R156, R157). -/
structure Response where
  status : Status
  tag : Byte
  data : List Byte
  deriving DecidableEq, Repr

/-- What a command answers: its response without the tag (R159). -/
structure Reply where
  status : Status
  data : List Byte
  deriving DecidableEq, Repr

/-- Select released; a frame in progress; or select asserted with its bytes ignored (R154, R162). -/
inductive LinkPhase where
  | waiting
  | receiving
  | ignoring
  deriving DecidableEq, Repr

/-- The Link Unit's frame and buffer (R154, R157); `bits` are those clocked of the byte not yet whole, `shifted` is what
data-out carried since select was last asserted, `openBytes` counts the bytes of it that the manual leaves open
(assumption 18). -/
structure Link where
  phase : LinkPhase
  frame : List Byte
  count : Nat
  bits : List Bool
  response : Response
  shifted : List Byte
  openBytes : Nat
  deriving DecidableEq, Repr

/-- The whole state of the block, with the queue of commands that wait. INVENTORY.md lists every field with its rule. -/
structure State where
  ports : Vector Port 4
  prst : Vector Bool 4
  resetLine : Bool
  windows : WindowUnit
  queue : List Entry
  nextId : Nat
  holds : Vector (Option Hold) 8
  mem : MemPort
  incidents : IncidentUnit
  settings : Settings
  link : Link
  now : Time
  drawn : Nat
  answers : Vector (List Answer) 4
  operations : List Operation
  pending : List Instr
  deriving DecidableEq, Repr

/-- Reasons to stop with a fault: none. The manual gives every command an effect in every state, so nothing raises a
fault (INVENTORY.md, Faults). -/
inductive Fault where
  deriving DecidableEq, Repr

/-- Reasons to refuse a command. -/
inductive Refusal where
  /-- A command that has no meaning yet, by its mnemonic; only `exec` could raise it, and no arm does. Safe. -/
  | notModelled (mnemonic : String)
  deriving DecidableEq, Repr

/-- The response NO_RESPONSE with tag 0 and no data (R157). -/
def Response.none : Response := { status := .noResponse, tag := 0, data := [] }

/-- A window after power-on reset: disabled, every field zero (R24, Figure 14). -/
def Window.zero : Window :=
  { enabled := false, base := 0, limit := 0,
    attrs := { readSet := 0, writeSet := 0, hold := false, posting := .posted, bypass := false, combining := false } }

/-- The background record after power-on reset (R24, Figure 14). -/
def Attributes.permissive : Attributes :=
  { readSet := 0xF, writeSet := 0xF, hold := true, posting := .posted, bypass := true, combining := true }

/-- The machine right after power-on reset: every block at the reset value its chapter states, the reset inputs
deasserted and the channels empty (assumptions 6 to 9). -/
def State.reset : State :=
  { ports := #v[.idle, .idle, .idle, .idle]
    prst := #v[false, false, false, false]
    resetLine := false
    windows :=
      { table := #v[.zero, .zero, .zero, .zero, .zero, .zero, .zero, .zero]
        background := .permissive
        frozen := false }
    queue := []
    nextId := 0
    holds := #v[none, none, none, none, none, none, none, none]
    mem := { state := .normal, epoch := 0, ops := [], rotation := none }
    incidents := { records := [], counter := 0, overflow := 0, alert := false }
    settings :=
      { holdLimit := Config.holdLimitDefault
        memTimeout := Config.memTimeoutDefault
        urgentLevel := Config.urgentLevelDefault
        alertMask := Config.alertMaskDefault }
    link :=
      { phase := .waiting, frame := [], count := 0, bits := [], response := .none, shifted := [], openBytes := 0 }
    now := { us := 0, sub := 0 }
    drawn := 0
    answers := #v[[], [], [], []]
    operations := []
    pending := [] }

end Sys2Proof.Machine
end

