-- ==== Sys2Proof/Machine/Operands.lean ====
section
/-! DEFINITION. Reading the operands: the form of a request (stage 1 of acceptance, R3) and the argument bytes of the
control-link commands (R168, Figure 46). -/

namespace Sys2Proof.Machine

/-- The masters. -/
def masters : List Master := [0, 1, 2, 3]

/-- The slots of the Hold Table. -/
def holdSlots : List HoldSlot := [0, 1, 2, 3, 4, 5, 6, 7]

/-- The op slots. -/
def opSlots : List OpSlot := [0, 1, 2, 3]

/-- The windows 0 to 7. -/
def windowNumbers : List (Fin 8) := [0, 1, 2, 3, 4, 5, 6, 7]

/-- A word of data none of whose bytes is present. -/
def absentWord : WordData := { b0 := none, b1 := none, b2 := none, b3 := none }

/-- Whether a word of data has at least one byte present (Figure 5). -/
def wordPresent (w : WordData) : Bool := w.b0.isSome || w.b1.isSome || w.b2.isSome || w.b3.isSome

/-- A line number in range (Figure 5). -/
def lineField (l : Nat) : Option Line := if l < 134217728 then some (BitVec.ofNat 27 l) else none

/-- The line, first word and word count of a READ or WRITE, if all are present and in range (R3). -/
def accessField (f : Fields) : Option Access :=
  match f.line, f.first, f.count with
  | some l, some i, some n =>
    if l < 134217728 ∧ i ≤ 7 ∧ 1 ≤ n ∧ n ≤ 8 ∧ i + n ≤ 8 then
      some { line := BitVec.ofNat 27 l, first := Fin.ofNat 8 i, count := n }
    else none
  | _, _, _ => none

/-- The hold mark of a READ or WRITE, if it is one of the three (R3). -/
def markField (f : Fields) : Option Mark :=
  match f.mark with
  | some (.valid k) => some k
  | _ => none

/-- The form of a READ (R3): access and mark in range, no data. -/
def readForm (f : Fields) : Option (Access × Mark) :=
  match f.data, accessField f, markField f with
  | none, some a, some k => some (a, k)
  | _, _, _ => none

/-- The form of a WRITE (R3): access and mark in range, as many data words as the word count, each with at least one
byte present. -/
def writeForm (f : Fields) : Option (Access × List WordData × Mark) :=
  match f.data, accessField f, markField f with
  | some ws, some a, some k =>
    if ws.length = a.count ∧ ws.all wordPresent = true then some (a, ws, k) else none
  | _, _, _ => none

/-- The form of a FENCE (R3): no field but the kind. -/
def fenceForm (f : Fields) : Bool :=
  f.line.isNone && f.first.isNone && f.count.isNone && f.data.isNone && f.mark.isNone

/-- The form of a DROP (R3): a line in range and no other field. -/
def dropForm (f : Fields) : Option Line :=
  match f.line with
  | some l => if f.first.isNone && f.count.isNone && f.data.isNone && f.mark.isNone then lineField l else none
  | none => none

/-- The bytes of a number, least significant first (section 8.9). -/
def leBytes : Nat → Nat → List Byte
  | 0, _ => []
  | k + 1, v => BitVec.ofNat 8 v :: leBytes k (v / 256)

/-- The number whose bytes are given, least significant first (section 8.9). -/
def leValue : List Byte → Nat
  | [] => 0
  | b :: bs => b.toNat + 256 * leValue bs

/-- One byte of a flag: 1 for yes, 0 for no (Figure 46). -/
def flagByte (b : Bool) : Byte := if b then 1 else 0

/-- A byte that must hold 0 or 1 (R168). -/
def flagArg (b : Byte) : Option Bool :=
  if b = 0 then some false else if b = 1 then some true else none

/-- A posting byte: 0 POSTED, 1 UNPOSTED (Figure 46, part C). -/
def postingArg (b : Byte) : Option Posting :=
  if b = 0 then some .posted else if b = 1 then some .unposted else none

/-- A set byte, whose four high bits are 0 (R168). -/
def setArg (b : Byte) : Option MasterSet := if b.toNat < 16 then some (BitVec.ofNat 4 b.toNat) else none

/-- The six fields of bytes 8 to 13 of LOAD_WINDOW, if every one is in range (R34, R168). -/
def attributesArg (rs ws ho po bp co : Byte) : Option Attributes :=
  match setArg rs, setArg ws, flagArg ho, postingArg po, flagArg bp, flagArg co with
  | some r, some w, some h, some p, some b, some c =>
    some { readSet := r, writeSet := w, hold := h, posting := p, bypass := b, combining := c }
  | _, _, _, _, _, _ => none

/-- Enabled, base page and limit page of bytes 1 to 7 of LOAD_WINDOW, if in range and the limit not below the base
(R34). -/
def rangeArg (en b0 b1 b2 l0 l1 l2 : Byte) : Option (Bool × Page × Page) :=
  match flagArg en with
  | some e =>
    if leValue [b0, b1, b2] ≤ 1048575 ∧ leValue [l0, l1, l2] ≤ 1048575 ∧
        leValue [b0, b1, b2] ≤ leValue [l0, l1, l2] then
      some (e, BitVec.ofNat 20 (leValue [b0, b1, b2]), BitVec.ofNat 20 (leValue [l0, l1, l2]))
    else none
  | none => none

/-- The posting byte of a record (Figure 46, part C). -/
def postingByte : Posting → Byte
  | .posted => 0
  | .unposted => 1

/-- A set byte of a record (section 8.9). -/
def setByte (s : MasterSet) : Byte := BitVec.ofNat 8 s.toNat

/-- Bytes 8 to 13 of a record (Figure 46, part C). -/
def attributesBytes (a : Attributes) : List Byte :=
  [setByte a.readSet, setByte a.writeSet, flagByte a.hold, postingByte a.posting, flagByte a.bypass,
    flagByte a.combining]

/-- Bytes 1 to 13 of a window's record (Figure 46, part C). -/
def windowBytes (w : Window) : List Byte :=
  flagByte w.enabled :: (leBytes 3 w.base.toNat ++ leBytes 3 w.limit.toNat ++ attributesBytes w.attrs)

/-- The code of a status (Figure 46, part D). -/
def Status.code : Status → Byte
  | .ok => 0x00
  | .empty => 0x01
  | .badCommand => 0x02
  | .badItem => 0x03
  | .badValue => 0x04
  | .badState => 0x05
  | .frozen => 0x06
  | .badCheck => 0x07
  | .framing => 0x08
  | .noResponse => 0x09

/-- The bytes of a response frame: status, tag, data length, data, check byte (R156). -/
def Response.bytes (r : Response) : List Byte := frameOf r.status.code r.tag r.data

/-- The byte carried out at a place of the response, 00h beyond its end (R157). -/
def Response.byteAt (r : Response) (k : Nat) : Byte := (r.bytes[k]?).getD 0

/-- The code of an incident's kind (Figure 46, part D). -/
def Incident.code : Incident → Byte
  | .denied _ _ _ => 1
  | .holdExpired _ _ _ => 2
  | .holdsDropped _ _ => 3
  | .dataError _ _ => 4
  | .memTimeout _ _ => 5
  | .writeLost _ _ => 6
  | .lateCompletion _ => 7
  | .overrun _ => 8

/-- The byte of a number of at most 255. -/
def numByte (n : Nat) : Byte := BitVec.ofNat 8 n

/-- The fields of an incident in the order of Figure 46, part E: master, line, window, slot, count, epoch. -/
def Incident.fieldBytes : Incident → List Byte
  | .denied m l w => numByte m.val :: (leBytes 4 l.toNat ++ [numByte w.val])
  | .holdExpired m l i => numByte m.val :: (leBytes 4 l.toNat ++ [numByte i.val])
  | .holdsDropped m n => [numByte m.val, numByte n]
  | .dataError m l => numByte m.val :: leBytes 4 l.toNat
  | .memTimeout l n => leBytes 4 l.toNat ++ [numByte n]
  | .writeLost m l => numByte m.val :: leBytes 4 l.toNat
  | .lateCompletion e => [numByte e.toNat]
  | .overrun m => [numByte m.val]

/-- The data of PEEK_INCIDENT (R147, Figure 46, part E). -/
def Record.bytes (r : Record) : List Byte :=
  leBytes 2 r.seq.toNat ++ (r.incident.code :: r.incident.fieldBytes)

/-- The state bits of a queue record (Figure 46, part E). -/
def EntryState.bits : EntryState → Nat
  | .opened => 0
  | .sealed => 1
  | .issued => 2

/-- The queue record of READ_STATUS: line in bits 0 to 26, master in 27 to 28, state in 29 to 30, bit 31 zero
(Figure 46, part E). -/
def Entry.statusBytes (e : Entry) : List Byte :=
  leBytes 4 (e.line.toNat + e.master.val * 134217728 + e.state.bits * 536870912)

/-- The byte of the Memory Port's state (R164). -/
def MemState.byte : MemState → Byte
  | .normal => 0
  | .halted => 1

end Sys2Proof.Machine
end

