-- ==== Sys2Proof/Machine/Time.lean ====
section
/-! DEFINITION. The unit's time base and its timers (00_scope.md, CONVENTIONS, Time; R92, R104, R112, R128). -/

namespace Sys2Proof.Machine

/-- Whether moment `a` is not later than moment `b`. -/
def Time.le (a b : Time) : Bool := decide (a.us < b.us) || (decide (a.us = b.us) && decide (a.sub ≤ b.sub))

/-- The moment a number of whole microseconds after a moment. -/
def Time.plus (t : Time) (us : Nat) : Time := { t with us := t.us + us }

/-- The next step of the time base. How many steps make a microsecond is left open (assumption 4). -/
def Time.tick (t : Time) : Time :=
  if t.sub + 1 < Config.stepsPerMicrosecond then { t with sub := t.sub + 1 } else { us := t.us + 1, sub := 0 }

/-- The earliest moment a timer may expire: its limit after it was started. -/
def Timer.earliest (t : Timer) : Time := t.started.plus t.limit

/-- The moment before which a timer has expired: one microsecond beyond its limit. -/
def Timer.latest (t : Timer) : Time := t.started.plus (t.limit + 1)

/-- Whether a timer may expire at moment `now`. -/
def Timer.due (t : Timer) (now : Time) : Bool := t.earliest.le now

/-- Whether a timer has run out at moment `now`, whichever moment of its window it took. -/
def Timer.overrun (t : Timer) (now : Time) : Bool := t.latest.le now

/-- The time left until the earliest moment a timer may expire, in whole µs rounded down (R112). -/
def Timer.remaining (t : Timer) (now : Time) : Nat :=
  if t.due now then 0
  else t.earliest.us - now.us - (if t.earliest.sub < now.sub then 1 else 0)

/-- The time base moved on to a timer's limit, where it has not reached it (assumption 5). -/
def Timer.reach (t : Timer) (now : Time) : Time := if t.due now then now else t.earliest

/-- A timer started now with a limit in µs (R92, R120). -/
def Timer.start (limit : Nat) (now : Time) : Timer := { limit := limit, started := now }

end Sys2Proof.Machine
end

