-- ==== Sys2Proof/Machine/Flags.lean ====
section
/-! DEFINITION. The conditions the unit computes from its state: ALERT (R151), urgency (R64), the counts, the port-state
conditions (R78, R99) and the timers that may expire. -/

namespace Sys2Proof.Machine

/-- The bit of ALERT_MASK for an incident's kind (Figure 46, part D). -/
def Incident.maskBit : Incident → Nat
  | .denied _ _ _ => 0
  | .holdExpired _ _ _ => 1
  | .holdsDropped _ _ => 2
  | .dataError _ _ => 3
  | .memTimeout _ _ => 4
  | .writeLost _ _ => 5
  | .lateCompletion _ => 6
  | .overrun _ => 7

/-- The ALERT condition (R151): a stored record of a kind in the mask, or an overflow count that is not 0. -/
def alertCondition (records : List Record) (overflow : BitVec 8) (mask : BitVec 8) : Bool :=
  records.any (fun r => mask.getLsbD r.incident.maskBit) || overflow != 0

/-- Whether a port makes the queue urgent by its state: BLOCKED or FENCING (R64). -/
def Port.urges : Port → Bool
  | .blocked _ _ => true
  | .fencing _ => true
  | _ => false

/-- Whether a port has a read of a line in flight: BLOCKED, READY or ISSUED (R78, R99). -/
def Port.reads (l : Line) : Port → Bool
  | .blocked a _ => a.line == l
  | .ready a => a.line == l
  | .issued a _ => a.line == l
  | _ => false

/-- Whether a port is READY, and so claims the arbiter (R73). -/
def Port.isReady : Port → Bool
  | .ready _ => true
  | _ => false

/-- Whether a port waits for the operation in an op slot: ISSUED with that slot recorded (R126). -/
def Port.waitsFor (k : OpSlot) : Port → Bool
  | .issued _ j => j == k
  | _ => false

/-- The queue is urgent (R64): its count is at least URGENT_LEVEL, or a port is BLOCKED or FENCING. -/
def State.urgent (s : State) : Bool :=
  decide (s.settings.urgentLevel.toNat ≤ s.queue.length) || masters.any (fun m => s.ports[m].urges)

/-- Whether another master's read of a line is in flight (R99). -/
def State.readInFlight (s : State) (m : Master) (l : Line) : Bool :=
  masters.any (fun n => n != m && s.ports[n].reads l)

/-- Whether a hold is ACTIVE (R91). -/
def Hold.isActive (h : Hold) : Bool :=
  match h.state with
  | .active _ => true
  | .broken => false

/-- The number of hold entries, ACTIVE and BROKEN together (R89, R113). -/
def State.holdCount (s : State) : Nat := (holdSlots.filter (fun i => s.holds[i].isSome)).length

/-- Whether an operation is a WRITE. -/
def Op.isWrite (o : Op) : Bool :=
  match o.kind with
  | .write _ => true
  | .read _ _ _ => false

/-- The timer of the oldest outstanding operation, whose expiry causes a halt (R128). -/
def State.oldestTimer (s : State) : Option Timer := s.mem.ops.head?.map Op.timer

/-- The running timer of the hold in a slot, if the slot holds an ACTIVE entry (R92). -/
def State.holdTimer (s : State) (i : HoldSlot) : Option Timer :=
  match s.holds[i] with
  | some h =>
    match h.state with
    | .active t => some t
    | .broken => none
  | none => none

/-- The oldest outstanding operation's timer has run out while the operation was not the oldest: the halt is the next
event of the Memory Port (R128). -/
def State.haltIsNext (s : State) : Bool := s.oldestTimer.any (fun t => t.overrun s.now)

/-- No timer whose expiry is an event has run past its window at a moment (00_scope.md, Time; R92, R128). -/
def State.noneOverrun (s : State) (at' : Time) : Bool :=
  !s.oldestTimer.any (fun t => t.overrun at') && !holdSlots.any (fun i => (s.holdTimer i).any (fun t => t.overrun at'))

/-- Whether a timer's expiry can be the next to come: it may expire now, or time may pass to its limit without another
timer, which would have to expire first, running past its window (00_scope.md, Time; assumptions 2 and 5). -/
def State.timeAllows (s : State) (t : Option Timer) : Bool :=
  t.any (fun t => t.due s.now || s.noneOverrun t.earliest)

end Sys2Proof.Machine
end

