-- ==== Sys2Proof/Machine/Ops.lean ====
section
/-! DEFINITION. The named operations over the state that the meanings share: answering a port, raising an incident,
sealing, appending, merging and removing queue entries, making and removing holds. -/

namespace Sys2Proof.Machine

/-- A port record replaced. -/
def State.setPort (s : State) (m : Master) (p : Port) : State := { s with ports := s.ports.set m p }

/-- An answer sent on a master port, after those already sent (R12). -/
def State.answer (s : State) (m : Master) (a : Answer) : State :=
  { s with answers := s.answers.set m (s.answers[m] ++ [a]) }

/-- An answer for the request in flight: the port goes to IDLE as it is sent (R12). -/
def State.finish (s : State) (m : Master) (a : Answer) : State := (s.setPort m .idle).answer m a

/-- The ports moved together in one event, each with the answers it sends. -/
def State.movePorts (s : State) (f : Master → Port → Port × List Answer) : State :=
  { s with
    ports := Vector.ofFn (fun m => (f m s.ports[m]).1)
    answers := Vector.ofFn (fun m => s.answers[m] ++ (f m s.ports[m]).2) }

/-- ALERT judged anew (R151). -/
def State.judgeAlert (s : State) : State :=
  { s with
    incidents :=
      { s.incidents with
        alert := alertCondition s.incidents.records s.incidents.overflow s.settings.alertMask } }

/-- The count of one more overflow, saturating at 255 (R145). -/
def bumpOverflow (n : BitVec 8) : BitVec 8 := if n = 255 then 255 else n + 1

/-- An incident passed to the Incident Unit: it takes the next sequence number (R143) and is stored (R144) or counted
(R145). -/
def IncidentUnit.take (u : IncidentUnit) (i : Incident) : IncidentUnit :=
  if u.records.length < Config.incidentCapacity then
    { u with records := u.records ++ [{ seq := u.counter, incident := i }], counter := u.counter + 1 }
  else { u with overflow := bumpOverflow u.overflow, counter := u.counter + 1 }

/-- An incident raised, and ALERT judged anew in the same event (R142 to R145, R151). -/
def State.raise (s : State) (i : Incident) : State := { s with incidents := s.incidents.take i }.judgeAlert

/-- Several incidents of one event, in order (R143). -/
def State.raiseAll (s : State) (is : List Incident) : State := is.foldl State.raise s

/-- Sealing: an OPEN entry becomes SEALED, any other stays as it is (R57). -/
def Entry.close (e : Entry) : Entry :=
  match e.state with
  | .opened => { e with state := .sealed }
  | .sealed => e
  | .issued => e

/-- The entries that satisfy a condition sealed. -/
def sealWhere (p : Entry → Bool) (q : List Entry) : List Entry := q.map (fun e => if p e then e.close else e)

/-- The data of a line made of a write's words from its first word on; every other byte absent (R45). -/
def placeWords (first : Fin 8) (ws : List WordData) : LineData :=
  Vector.ofFn (fun i : Fin 8 => if first.val ≤ i.val then (ws[i.val - first.val]?).getD absentWord else absentWord)

/-- A word overlaid: present bytes of the later write replace, absent ones leave what was there (R50). -/
def overlayWord (later earlier : WordData) : WordData :=
  { b0 := later.b0 <|> earlier.b0
    b1 := later.b1 <|> earlier.b1
    b2 := later.b2 <|> earlier.b2
    b3 := later.b3 <|> earlier.b3 }

/-- The data of a line with a later write's bytes over it (R50). -/
def overlay (later earlier : LineData) : LineData := Vector.ofFn (fun i : Fin 8 => overlayWord later[i] earlier[i])

/-- A hold slot set to an entry or to empty. -/
def State.setHold (s : State) (i : HoldSlot) (h : Option Hold) : State := { s with holds := s.holds.set i h }

/-- The response of a judged frame replaces the buffer whole (R157). -/
def State.respond (s : State) (r : Response) : State := { s with link := { s.link with response := r } }

end Sys2Proof.Machine
end

