-- ==== Sys2Proof/Machine/Holds.lean ====
section
/-! DEFINITION. The Hold Unit: the checks of stage 3 (R93 to R99), the effects on the table (R97, R100, R102), expiry
(R104) and the three supervision commands (R109, R111, R112). -/

namespace Sys2Proof.Machine

/-- The slot and entry of a master on a line, if it has one (R90: at most one). -/
def State.ownHold (s : State) (m : Master) (l : Line) : Option (HoldSlot × Hold) :=
  holdSlots.findSome? (fun i =>
    match s.holds[i] with
    | some h => if h.owner = m ∧ h.line = l then some (i, h) else none
    | none => none)

/-- Whether another master holds an ACTIVE entry on a line (R94). -/
def State.otherActive (s : State) (m : Master) (l : Line) : Bool :=
  holdSlots.any (fun i =>
    match s.holds[i] with
    | some h => h.owner != m && h.line == l && h.isActive
    | none => false)

/-- The number of entries a master owns, ACTIVE and BROKEN together (R98). -/
def State.heldBy (s : State) (m : Master) : Nat :=
  (holdSlots.filter (fun i =>
    match s.holds[i] with
    | some h => h.owner == m
    | none => false)).length

/-- The lowest-numbered empty slot (R90). -/
def State.freeHoldSlot (s : State) : Option HoldSlot := holdSlots.find? (fun i => s.holds[i].isNone)

/-- What a request that has passed stage 3 does to the table when every stage has passed (R97, R100, R102). -/
inductive HoldEffect where
  | keep
  | acquire
  | release (slot : HoldSlot)
  deriving DecidableEq, Repr

/-- The outcome of stage 3 for a READ or WRITE: a failing answer, LOST with its BROKEN entry's slot, or passed. -/
inductive HoldVerdict where
  | fail (a : Answer)
  | lost (slot : HoldSlot)
  | pass (e : HoldEffect)
  deriving DecidableEq, Repr

/-- The acquisition checks, in their order (R98). -/
def State.acquireCheck (s : State) (m : Master) (l : Line) : HoldVerdict :=
  if s.readInFlight m l then .fail (.retry .lineBusy)
  else if Config.holdsPerMaster ≤ s.heldBy m then .fail (.refused .holdLimit)
  else if Config.holdCapacity ≤ s.holdCount then .fail (.retry .holdsFull)
  else .pass .acquire

/-- Stage 3 for a READ or WRITE, in the order of R93. -/
def State.holdCheck (s : State) (m : Master) (l : Line) (k : Mark) : HoldVerdict :=
  if s.otherActive m l then .fail (.retry .held)
  else
    match s.ownHold m l with
    | some (i, h) =>
      match h.state, k with
      | _, .noMark => .pass .keep
      | .broken, .take => .lost i
      | .broken, .free => .lost i
      | .active _, .take => .pass .keep
      | .active _, .free => .pass (.release i)
    | none =>
      match k with
      | .noMark => .pass .keep
      | .free => .pass .keep
      | .take => s.acquireCheck m l

/-- The hold entry made at an acquisition: ACTIVE, its timer started with HOLD_LIMIT (R92, R100). -/
def State.newHold (s : State) (m : Master) (l : Line) : Hold :=
  { line := l, owner := m, state := .active (Timer.start s.settings.holdLimit.toNat s.now) }

/-- The effect of a passed request on the table (R97, R100, R102). -/
def State.applyHold (s : State) (m : Master) (l : Line) (e : HoldEffect) : State :=
  match e with
  | .keep => s
  | .release i => s.setHold i none
  | .acquire =>
    match s.freeHoldSlot with
    | some i => s.setHold i (some (s.newHold m l))
    | none => s

/-- The expiry of the ACTIVE hold in a slot: it becomes BROKEN and HOLD_EXPIRED is raised (R104). A slot that is empty
or BROKEN has no running timer and does not expire (R92). -/
def State.expireHold (s : State) (i : HoldSlot) : State :=
  match s.holds[i] with
  | some h =>
    match h.state with
    | .active t =>
      ({ s with now := t.reach s.now }.setHold i (some { h with state := .broken })).raise
        (.holdExpired h.owner h.line i)
    | .broken => s
  | none => s

/-- The hold slot a byte names (R109, R112). -/
def holdSlotArg (b : Byte) : Option HoldSlot := if b.toNat < 8 then some (Fin.ofNat 8 b.toNat) else none

/-- The data of READ_HOLD (R112, Figure 46, part E). -/
def Hold.bytes (h : Hold) (now : Time) : List Byte :=
  match h.state with
  | .active t => leBytes 4 h.line.toNat ++ (numByte h.owner.val :: 0 :: leBytes 2 (t.remaining now))
  | .broken => leBytes 4 h.line.toNat ++ (numByte h.owner.val :: 1 :: leBytes 2 0)

/-- READ_HOLD (R112). -/
def readHold (s : State) (args : List Byte) : State × Reply :=
  match args with
  | [b] =>
    match holdSlotArg b with
    | some i =>
      match s.holds[i] with
      | some h => (s, { status := .ok, data := h.bytes s.now })
      | none => (s, { status := .empty, data := [] })
    | none => (s, { status := .badValue, data := [] })
  | _ => (s, { status := .badValue, data := [] })

/-- What BREAK_HOLD and CLEAR_HOLDS make of an entry: an ACTIVE one becomes BROKEN, a BROKEN one is removed
(R109, R111). -/
def Hold.broken (h : Hold) : Option Hold :=
  match h.state with
  | .active _ => some { h with state := .broken }
  | .broken => none

/-- BREAK_HOLD (R109). -/
def breakHold (s : State) (args : List Byte) : State × Reply :=
  match args with
  | [b] =>
    match holdSlotArg b with
    | some i =>
      match s.holds[i] with
      | some h => (s.setHold i h.broken, { status := .ok, data := [] })
      | none => (s, { status := .badValue, data := [] })
    | none => (s, { status := .badValue, data := [] })
  | _ => (s, { status := .badValue, data := [] })

/-- CLEAR_HOLDS (R111). -/
def clearHolds (s : State) : State × Reply :=
  ({ s with holds := Vector.ofFn (fun i : HoldSlot => s.holds[i].bind Hold.broken) }, { status := .ok, data := [] })

end Sys2Proof.Machine
end

