-- ==== Sys2Proof/Machine/Queue.lean ====
section
/-! DEFINITION. The Posting Queue: merging, appending, sealing (R47 to R59) and the removal of an entry at its
completion (R62), with what the waiting reads, fences and unposted writes learn of it (R62, R72, R80). -/

namespace Sys2Proof.Machine

/-- The entry a WRITE of master `m` to line `l` would merge into, if the last three conditions of R49 hold: the youngest
entry of `m` is OPEN, names `l`, and no younger entry names `l`. -/
def State.mergeTarget (s : State) (m : Master) (l : Line) : Option Entry :=
  match (s.queue.filter (fun e => e.master == m)).getLast? with
  | some e =>
    if e.state = .opened ∧ e.line = l ∧ s.queue.all (fun x => !(decide (e.id < x.id) && x.line == l)) = true then some e
    else none
  | none => none

/-- An entry with a later write merged into it: the bytes overlaid, and sealed if the write carries FREE (R50, R52). -/
def Entry.merge (e : Entry) (d : LineData) (k : Mark) : Entry :=
  { e with words := overlay d e.words, state := if k = .free then .sealed else e.state }

/-- A WRITE merged into the entry `target` (R50, R52). -/
def State.mergeInto (s : State) (target : Entry) (d : LineData) (k : Mark) : State :=
  { s with queue := s.queue.map (fun e => if e.id = target.id then e.merge d k else e) }

/-- The state a new entry is created in (R51). -/
def newEntryState (posting : Posting) (combining : Bool) (k : Mark) : EntryState :=
  if combining = true ∧ posting = .posted ∧ k ≠ .free then .opened else .sealed

/-- A WRITE appended as a new entry, with the seals the append makes: the OPEN entry of `m`, whatever its line, and the
OPEN entry of any other master for the line (R51). -/
def State.appendEntry (s : State) (m : Master) (l : Line) (d : LineData) (posting : Posting) (state : EntryState) :
    State :=
  { s with
    queue :=
      sealWhere (fun e => e.master == m || e.line == l) s.queue ++
        [{ id := s.nextId, master := m, line := l, words := d, posting := posting, state := state }]
    nextId := s.nextId + 1 }

/-- The entries of a master in the queue, by identity (R79). -/
def State.entriesOf (s : State) (m : Master) : List Nat := (s.queue.filter (fun e => e.master == m)).map Entry.id

/-- The waited set of a READ of master `m` to line `l` (R69, R70): every entry for the line, and with bypass no every
entry of `m`. -/
def State.waitedSet (s : State) (m : Master) (l : Line) (bypass : Bool) : List Nat :=
  (s.queue.filter (fun e => e.line == l || (!bypass && e.master == m))).map Entry.id

/-- What a port does when entry `e` is removed at its completion (R62): an UNPOSTED master waiting on it is answered
DONE, a BLOCKED read losing the last entry of its waited set goes to READY (R72), a fence losing its last is answered
DONE (R80). -/
def Port.onRemoval (e : Entry) (m : Master) (p : Port) : Port × List Answer :=
  match p with
  | .unposted a id =>
    if id = e.id ∧ e.posting = .unposted ∧ e.master = m then (.idle, [.done []]) else (.unposted a id, [])
  | .blocked a ws =>
    if ws.filter (fun x => x != e.id) = [] then (.ready a, []) else (.blocked a (ws.filter (fun x => x != e.id)), [])
  | .fencing ws =>
    if ws.filter (fun x => x != e.id) = [] then (.idle, [.done []])
    else (.fencing (ws.filter (fun x => x != e.id)), [])
  | .idle => (.idle, [])
  | .ready a => (.ready a, [])
  | .issued a k => (.issued a k, [])

/-- The removal of an entry at the completion of its write (R62). -/
def State.removeEntry (s : State) (id : Nat) : State :=
  match s.queue.find? (fun e => e.id == id) with
  | some e => { s with queue := s.queue.filter (fun x => x.id != id) }.movePorts (Port.onRemoval e)
  | none => s

end Sys2Proof.Machine
end

