-- ==== Sys2Proof/Machine/MemoryPort.lean ====
section
/-! DEFINITION. The Memory Port: the arbiter (R122, R123), issue (R61, R73, R120), completions (R126, R127), the halt
(R130 to R134) and RESUME (R137). -/

namespace Sys2Proof.Machine

/-- Whether an operation may be issued at all: RESET deasserted, NORMAL, fewer than 4 outstanding, and no halt due as the
Memory Port's next event (R122, R128, R140). -/
def State.mayIssue (s : State) : Bool :=
  !s.resetLine && s.mem.state == .normal && decide (s.mem.ops.length < Config.opCapacity) && !s.haltIsNext

/-- Whether a claimant is claiming and the resource is free for it (R61, R73, R122). -/
def State.claims (s : State) : Claimant → Bool
  | .q =>
    s.mayIssue && !s.mem.ops.any Op.isWrite &&
      (match s.queue with
      | e :: _ => e.state != .issued
      | [] => false)
  | .p m => s.mayIssue && s.ports[m].isReady

/-- The fixed rotation order (R123). -/
def rotationOrder : List Claimant := [.q, .p 0, .p 1, .p 2, .p 3]

/-- The place in the rotation order from which the search begins: the claimant following the rotation position (R123). -/
def searchStart : Option Claimant → Nat
  | none => 0
  | some .q => 1
  | some (.p m) => m.val + 2

/-- The rotation order from a rotation position on (R123). -/
def searchOrder (r : Option Claimant) : List Claimant :=
  rotationOrder.drop (searchStart r) ++ rotationOrder.take (searchStart r)

/-- The claimant the arbiter chooses, if any is claiming for which the resource is free (R123). -/
def State.grantee (s : State) : Option Claimant :=
  if s.claims .q && s.urgent then some .q else (searchOrder s.mem.rotation).find? s.claims

/-- The lowest op slot no outstanding operation holds (R120). -/
def State.freeOpSlot (s : State) : OpSlot :=
  (opSlots.find? (fun k => s.mem.ops.all (fun o => o.slot != k))).getD 0

/-- An operation issued for a claimant: stamped with op slot, epoch and timer, appended to the list, sent to the memory
controller; the claimant becomes the rotation position (R120, R123). -/
def State.issue (s : State) (c : Claimant) (kind : OpKind) (l : Line) (m : Master) (sent : Operation) : State :=
  { s with
    mem :=
      { s.mem with
        ops :=
          s.mem.ops ++
            [{ kind := kind, slot := s.freeOpSlot, epoch := s.mem.epoch, line := l, master := m,
               timer := Timer.start s.settings.memTimeout.toNat s.now }]
        rotation := some c }
    operations := s.operations ++ [sent] }

/-- The grant of Q: the oldest entry becomes ISSUED and its WRITE operation is issued (R61). -/
def State.issueWrite (s : State) : State :=
  match s.queue with
  | e :: rest =>
    { s.issue .q (.write e.id) e.line e.master (.write e.line e.words s.mem.epoch s.freeOpSlot) with
      queue := { e with state := .issued } :: rest }
  | [] => s

/-- The grant of Pn: the READ operation is issued and the port goes to ISSUED with its op slot (R73). -/
def State.issueRead (s : State) (m : Master) : State :=
  match s.ports[m] with
  | .ready a =>
    (s.issue (.p m) (.read a.first a.count true) a.line m
        (.read a.line a.first a.count s.mem.epoch s.freeOpSlot)).setPort m (.issued a s.freeOpSlot)
  | _ => s

/-- A grant of the arbiter, as it chooses (R122, R123). -/
def State.grant (s : State) (c : Claimant) : State :=
  match c with
  | .q => s.issueWrite
  | .p m => s.issueRead m

/-- What a completion does when it is matched to the operation just taken from the list (R126). A READ whose words are
not as many as its word count is dealt with as BAD. -/
def State.complete (s : State) (o : Op) (status : MemStatus) (words : List Word) : State :=
  match o.kind with
  | .write id => s.removeEntry id
  | .read _ count waiting =>
    if status = .good ∧ words.length = count then
      if waiting && s.ports[o.master].waitsFor o.slot then s.finish o.master (.done words) else s
    else
      (if waiting && s.ports[o.master].waitsFor o.slot then s.finish o.master (.error .data) else s).raise
        (.dataError o.master o.line)

/-- The arrival of a completion: discarded while RESET is asserted (R140), late (R127), or matched to the oldest
operation (R126). The op slot it carries is not compared (R121). -/
def State.arrive (s : State) (epoch : Epoch) (status : MemStatus) (words : List Word) : State :=
  if s.resetLine then s
  else if epoch = s.mem.epoch then
    match s.mem.ops with
    | o :: rest => { s with mem := { s.mem with ops := rest } }.complete o status words
    | [] => s.raise (.lateCompletion epoch)
  else s.raise (.lateCompletion epoch)

/-- Whether an entry is ISSUED. -/
def Entry.isIssued (e : Entry) : Bool := e.state == .issued

/-- Whether an entry is removed at a halt: the ISSUED one, and every UNPOSTED one (R66, R132). -/
def Entry.lostAtHalt (e : Entry) : Bool := e.isIssued || e.posting == .unposted

/-- What a port does at a halt (R131 to R133), given the queue as it stood. -/
def Port.onHalt (q : List Entry) (p : Port) : Port × List Answer :=
  match p with
  | .idle => (.idle, [])
  | .blocked _ _ => (.idle, [.error .memDown])
  | .ready _ => (.idle, [.error .memDown])
  | .fencing _ => (.idle, [.error .memDown])
  | .issued _ _ => (.idle, [.error .timeout])
  | .unposted _ id =>
    if q.any (fun e => e.id == id && e.isIssued) then (.idle, [.error .timeout]) else (.idle, [.error .memDown])

/-- The incidents of a halt in their order (R134): MEM_TIMEOUT, the ISSUED entry's WRITE_LOST, then those of the queued
UNPOSTED entries, oldest first. -/
def haltIncidents (o : Op) (count : Nat) (q : List Entry) : List Incident :=
  .memTimeout o.line count ::
    ((q.filter Entry.isIssued ++ q.filter (fun e => !e.isIssued && e.posting == .unposted)).map
      (fun e => .writeLost e.master e.line))

/-- The halt, caused by the expiry of the timer of the oldest operation (R130 to R134). Without an operation outstanding
no timer runs and there is none. -/
def State.halt (s : State) : State :=
  match s.mem.ops with
  | [] => s
  | o :: _ =>
    ({ s with
        mem := { s.mem with state := .halted, epoch := s.mem.epoch + 1, ops := [] }
        queue := s.queue.filter (fun e => !e.lostAtHalt)
        now := o.timer.reach s.now }.movePorts (fun _ p => p.onHalt s.queue)).raiseAll
      (haltIncidents o s.mem.ops.length s.queue)

/-- RESUME (R137). -/
def resume (s : State) : State × Reply :=
  if s.mem.state = .halted then
    ({ s with mem := { s.mem with state := .normal } }, { status := .ok, data := [] })
  else (s, { status := .badState, data := [] })

end Sys2Proof.Machine
end

