-- ==== Sys2Proof/Machine/Windows.lean ====
section
/-! DEFINITION. The Window Unit: the governing record (R25, R26) and the four window commands (R33 to R37, R40). -/

namespace Sys2Proof.Machine

/-- Whether a window contains a line (R25). -/
def Window.contains (w : Window) (l : Line) : Bool :=
  w.enabled && decide (w.base ≤ l.page) && decide (l.page ≤ w.limit)

/-- The lowest-numbered window that contains a line, if any does (R26). -/
def WindowUnit.governingWindow (u : WindowUnit) (l : Line) : Option (Fin 8) :=
  windowNumbers.find? (fun i => u.table[i].contains l)

/-- The number of the governing record of a line: 0 to 7, or 8 for B (R26, R31). -/
def WindowUnit.governingNumber (u : WindowUnit) (l : Line) : Fin 9 :=
  match u.governingWindow l with
  | some i => i.castSucc
  | none => 8

/-- The attributes of the governing record of a line (R26). -/
def WindowUnit.governing (u : WindowUnit) (l : Line) : Attributes :=
  match u.governingWindow l with
  | some i => u.table[i].attrs
  | none => u.background

/-- The window table's number 0 to 7, if a number byte is one. -/
def windowNumber (b : Byte) : Option (Fin 8) := if b.toNat < 8 then some (Fin.ofNat 8 b.toNat) else none

/-- LOAD_WINDOW (R33 to R35): the frozen check first, then the number, then the values. -/
def loadWindow (s : State) (args : List Byte) : State × Reply :=
  if s.windows.frozen then (s, { status := .frozen, data := [] })
  else
    match args with
    | [num, en, b0, b1, b2, l0, l1, l2, rs, ws, ho, po, bp, co] =>
      match windowNumber num with
      | some i =>
        match rangeArg en b0 b1 b2 l0 l1 l2, attributesArg rs ws ho po bp co with
        | some (e, b, l), some a =>
          ({ s with
              windows :=
                { s.windows with
                  table := s.windows.table.set i { enabled := e, base := b, limit := l, attrs := a } } },
            { status := .ok, data := [] })
        | _, _ => (s, { status := .badValue, data := [] })
      | none =>
        match num.toNat == 8, attributesArg rs ws ho po bp co with
        | true, some a =>
          ({ s with windows := { s.windows with background := a } }, { status := .ok, data := [] })
        | _, _ => (s, { status := .badValue, data := [] })
    | _ => (s, { status := .badValue, data := [] })

/-- DISABLE_WINDOW (R34, R36). -/
def disableWindow (s : State) (args : List Byte) : State × Reply :=
  if s.windows.frozen then (s, { status := .frozen, data := [] })
  else
    match args with
    | [num] =>
      match windowNumber num with
      | some i =>
        ({ s with
            windows :=
              { s.windows with table := s.windows.table.set i { s.windows.table[i] with enabled := false } } },
          { status := .ok, data := [] })
      | none => (s, { status := .badValue, data := [] })
    | _ => (s, { status := .badValue, data := [] })

/-- READ_WINDOW (R37): the stored record, whatever the frozen flag. -/
def readWindow (s : State) (args : List Byte) : State × Reply :=
  match args with
  | [num] =>
    match windowNumber num with
    | some i => (s, { status := .ok, data := windowBytes s.windows.table[i] })
    | none =>
      if num.toNat = 8 then (s, { status := .ok, data := attributesBytes s.windows.background })
      else (s, { status := .badValue, data := [] })
  | _ => (s, { status := .badValue, data := [] })

/-- FREEZE (R40). -/
def freeze (s : State) : State × Reply :=
  if s.windows.frozen then (s, { status := .frozen, data := [] })
  else ({ s with windows := { s.windows with frozen := true } }, { status := .ok, data := [] })

end Sys2Proof.Machine
end

