-- ==== Sys2Proof/Machine/Supervision.lean ====
section
/-! DEFINITION. The link commands on the Incident List (R147 to R149), on the settings items (R164, R165), and the
reports (R163, R166, R167). -/

namespace Sys2Proof.Machine

/-- PEEK_INCIDENT (R147). -/
def peekIncident (s : State) : State × Reply :=
  match s.incidents.records with
  | r :: _ => (s, { status := .ok, data := r.bytes })
  | [] => (s, { status := .empty, data := [] })

/-- DISCARD_INCIDENT (R148). -/
def discardIncident (s : State) (args : List Byte) : State × Reply :=
  match s.incidents.records with
  | r :: rest =>
    if r.seq.toNat = leValue args then
      ({ s with incidents := { s.incidents with records := rest } }.judgeAlert, { status := .ok, data := [] })
    else (s, { status := .badValue, data := [] })
  | [] => (s, { status := .empty, data := [] })

/-- CLEAR_OVERFLOW (R149). -/
def clearOverflow (s : State) : State × Reply :=
  ({ s with incidents := { s.incidents with overflow := 0 } }.judgeAlert,
    { status := .ok, data := [s.incidents.overflow] })

/-- The items of GET and SET (Figure 44): four settings items and six read-only items. -/
inductive Item where
  | holdLimit
  | memTimeout
  | urgentLevel
  | alertMask
  | queueCount
  | holdCount
  | memState
  | epoch
  | frozen
  | overflow
  deriving DecidableEq, Repr

/-- The item a code names (Figure 46, part D). -/
def itemOfCode (code : Byte) : Option Item :=
  match code.toNat with
  | 0x01 => some .holdLimit
  | 0x02 => some .memTimeout
  | 0x03 => some .urgentLevel
  | 0x04 => some .alertMask
  | 0x10 => some .queueCount
  | 0x11 => some .holdCount
  | 0x12 => some .memState
  | 0x13 => some .epoch
  | 0x14 => some .frozen
  | 0x15 => some .overflow
  | _ => none

/-- The value of an item (R164). -/
def State.itemValue (s : State) : Item → Nat
  | .holdLimit => s.settings.holdLimit.toNat
  | .memTimeout => s.settings.memTimeout.toNat
  | .urgentLevel => s.settings.urgentLevel.toNat
  | .alertMask => s.settings.alertMask.toNat
  | .queueCount => s.queue.length
  | .holdCount => s.holdCount
  | .memState => s.mem.state.byte.toNat
  | .epoch => s.mem.epoch.toNat
  | .frozen => (flagByte s.windows.frozen).toNat
  | .overflow => s.incidents.overflow.toNat

/-- GET (R164). -/
def getItem (s : State) (args : List Byte) : State × Reply :=
  match args with
  | [code] =>
    match itemOfCode code with
    | some i => (s, { status := .ok, data := leBytes 2 (s.itemValue i) })
    | none => (s, { status := .badItem, data := [] })
  | _ => (s, { status := .badValue, data := [] })

/-- SET (R165): the item is checked before the value; a new ALERT_MASK judges ALERT anew (R152). -/
def setItem (s : State) (args : List Byte) : State × Reply :=
  match args with
  | [code, v0, v1] =>
    match itemOfCode code with
    | some .holdLimit =>
      if 1 ≤ leValue [v0, v1] ∧ leValue [v0, v1] ≤ 4000 then
        ({ s with settings := { s.settings with holdLimit := BitVec.ofNat 16 (leValue [v0, v1]) } },
          { status := .ok, data := [] })
      else (s, { status := .badValue, data := [] })
    | some .memTimeout =>
      if 2 ≤ leValue [v0, v1] ∧ leValue [v0, v1] ≤ 500 then
        ({ s with settings := { s.settings with memTimeout := BitVec.ofNat 16 (leValue [v0, v1]) } },
          { status := .ok, data := [] })
      else (s, { status := .badValue, data := [] })
    | some .urgentLevel =>
      if 1 ≤ leValue [v0, v1] ∧ leValue [v0, v1] ≤ 16 then
        ({ s with settings := { s.settings with urgentLevel := BitVec.ofNat 16 (leValue [v0, v1]) } },
          { status := .ok, data := [] })
      else (s, { status := .badValue, data := [] })
    | some .alertMask =>
      if v1 = 0 then
        ({ s with settings := { s.settings with alertMask := v0 } }.judgeAlert, { status := .ok, data := [] })
      else (s, { status := .badValue, data := [] })
    | _ => (s, { status := .badItem, data := [] })
  | _ => (s, { status := .badValue, data := [] })

/-- The data of READ_STATUS (R166, Figure 46, part E), taken whole. -/
def State.statusBytes (s : State) : List Byte :=
  numByte s.queue.length ::
    (s.queue.flatMap Entry.statusBytes ++
      [numByte s.holdCount, s.mem.state.byte, numByte s.mem.epoch.toNat, numByte s.mem.ops.length,
        flagByte s.windows.frozen, s.incidents.overflow])

/-- READ_STATUS (R166). -/
def readStatus (s : State) : State × Reply := (s, { status := .ok, data := s.statusBytes })

/-- NOP (R163). -/
def nopCommand (s : State) : State × Reply := (s, { status := .ok, data := [] })

/-- IDENTIFY (R167). -/
def identify (s : State) : State × Reply :=
  (s, { status := .ok, data := [Config.partCode, Config.linkRevision] })

end Sys2Proof.Machine
end

