-- ==== Sys2Proof/Machine/Link.lean ====
section
/-! DEFINITION. The control link: a frame clocked whole or in pieces between the assertion and the release of select
(R154, R157, R162), its judging and execution (R158, R159), and the meanings of the sixteen commands and of
FRAME_FAULT. -/

namespace Sys2Proof.Machine

/-- The assertion of select, a change of its level, begins a frame, or, while RESET is asserted, a stretch of ignored
bytes; a select that is asserted already is not asserted anew (R154, R162). -/
def Link.selectAssert (l : Link) (resetAsserted : Bool) : Link :=
  match l.phase with
  | .waiting =>
    { l with
      phase := if resetAsserted then .ignoring else .receiving
      frame := []
      count := 0
      bits := []
      shifted := [] }
  | .receiving => l
  | .ignoring => l

/-- One byte clocked in, and one carried out (R154, R157, R162): bytes clocked with select released change nothing; while
RESET is asserted a byte is ignored and carries out 00h; the first 24 bytes of a frame are kept, its count saturates at
25; after RESET, what an ignored byte carries out is open (assumption 18). -/
def Link.clock (resetAsserted : Bool) (l : Link) (b : Byte) : Link :=
  match l.phase, resetAsserted with
  | .waiting, _ => l
  | .receiving, true => { l with shifted := l.shifted ++ [0] }
  | .ignoring, true => { l with shifted := l.shifted ++ [0] }
  | .receiving, false =>
    { l with
      frame := if l.frame.length < Config.frameKept then l.frame ++ [b] else l.frame
      count := min (l.count + 1) Config.frameCountMax
      shifted := l.shifted ++ [l.response.byteAt l.shifted.length] }
  | .ignoring, false =>
    { l with shifted := l.shifted ++ [Config.ignoredByte l.openBytes], openBytes := l.openBytes + 1 }

/-- Bits clocked: the whole bytes they make with those of the unfinished byte, and the bits then left (R154). -/
def Link.clockBits (l : Link) (resetAsserted : Bool) (bits : List Bool) : Link :=
  match l.phase with
  | .waiting => l
  | _ =>
    { (bytesOfBits (l.bits ++ bits)).foldl (Link.clock resetAsserted) l with bits := cutBits (l.bits ++ bits) }

/-- The release of select: the Link Unit is waiting, with no frame in progress and no bit of a byte kept (R154). -/
def Link.released (l : Link) : Link := { l with phase := .waiting, frame := [], count := 0, bits := [] }

/-- A known command carried out as its owning rule states (R159). -/
def State.runCommand (s : State) (c : LinkCommand) (args : List Byte) : State × Reply :=
  match c with
  | .nop => nopCommand s
  | .getItem => getItem s args
  | .setItem => setItem s args
  | .loadWindow => loadWindow s args
  | .readWindow => readWindow s args
  | .disableWindow => disableWindow s args
  | .freeze => Sys2Proof.Machine.freeze s
  | .readHold => readHold s args
  | .breakHold => breakHold s args
  | .clearHolds => clearHolds s
  | .peekIncident => peekIncident s
  | .discardIncident => discardIncident s args
  | .clearOverflow => clearOverflow s
  | .readStatus => readStatus s
  | .resume => Sys2Proof.Machine.resume s
  | .identify => Sys2Proof.Machine.identify s

/-- A reply put in the buffer with the frame's tag (R159). -/
def State.reply (r : State × Reply) (tag : Byte) : State :=
  r.1.respond { status := r.2.status, tag := tag, data := r.2.data }

/-- The execution of a good frame (R159): the code is looked up first, then the argument length is checked. -/
def State.executeFrame (s : State) (code tag : Byte) (args : List Byte) : State :=
  match LinkCommand.ofCode code with
  | none => s.respond { status := .badCommand, tag := tag, data := [] }
  | some c =>
    if c.takes args.length then State.reply (s.runCommand c args) tag
    else s.respond { status := .badValue, tag := tag, data := [] }

/-- What the judging of a frame does (R158). -/
def State.afterJudging (s : State) (v : Verdict) : State :=
  match v with
  | .framing => s.respond { status := .framing, tag := 0, data := [] }
  | .badCheck tag => s.respond { status := .badCheck, tag := tag, data := [] }
  | .good code tag args => s.executeFrame code tag args

/-- The release of select: a frame in progress is judged, and nothing else is (R154, R158, R162). -/
def State.selectRelease (s : State) : State :=
  if s.link.phase = .receiving ∧ s.resetLine = false then
    { s with link := s.link.released }.afterJudging (judge s.link.frame s.link.count)
  else { s with link := s.link.released }

/-- A piece of the link's activity: select asserted if it opens, its bits clocked, select released if it closes
(R154). -/
def State.receive (s : State) (p : LinkPiece) : State :=
  let l := if p.opens then s.link.selectAssert s.resetLine else s.link
  let t := { s with link := l.clockBits s.resetLine p.bits }
  if p.closes then t.selectRelease else t

/-- The frame of a control-link command: select asserted, the frame's bits clocked, select released (R155, R159). -/
def State.receiveCommand (s : State) (c : LinkCommand) (tag : Byte) (args : List Byte) : State :=
  s.receive (wholeFrame (encodeFrame c tag args))

/-- FRAME_FAULT: a frame is judged like any other at its release (R158). -/
def execFrameFault (piece : LinkPiece) (s : State) : Host.Outcome State Fault Refusal :=
  .next (s.receive piece)

/-- NOP. -/
def execNop (tag : Byte) (args : List Byte) (s : State) : Host.Outcome State Fault Refusal :=
  .next (s.receiveCommand .nop tag args)

/-- GET. -/
def execGetItem (tag : Byte) (args : List Byte) (s : State) : Host.Outcome State Fault Refusal :=
  .next (s.receiveCommand .getItem tag args)

/-- SET. -/
def execSetItem (tag : Byte) (args : List Byte) (s : State) : Host.Outcome State Fault Refusal :=
  .next (s.receiveCommand .setItem tag args)

/-- LOAD_WINDOW. -/
def execLoadWindow (tag : Byte) (args : List Byte) (s : State) : Host.Outcome State Fault Refusal :=
  .next (s.receiveCommand .loadWindow tag args)

/-- READ_WINDOW. -/
def execReadWindow (tag : Byte) (args : List Byte) (s : State) : Host.Outcome State Fault Refusal :=
  .next (s.receiveCommand .readWindow tag args)

/-- DISABLE_WINDOW. -/
def execDisableWindow (tag : Byte) (args : List Byte) (s : State) : Host.Outcome State Fault Refusal :=
  .next (s.receiveCommand .disableWindow tag args)

/-- FREEZE. -/
def execFreeze (tag : Byte) (args : List Byte) (s : State) : Host.Outcome State Fault Refusal :=
  .next (s.receiveCommand .freeze tag args)

/-- READ_HOLD. -/
def execReadHold (tag : Byte) (args : List Byte) (s : State) : Host.Outcome State Fault Refusal :=
  .next (s.receiveCommand .readHold tag args)

/-- BREAK_HOLD. -/
def execBreakHold (tag : Byte) (args : List Byte) (s : State) : Host.Outcome State Fault Refusal :=
  .next (s.receiveCommand .breakHold tag args)

/-- CLEAR_HOLDS. -/
def execClearHolds (tag : Byte) (args : List Byte) (s : State) : Host.Outcome State Fault Refusal :=
  .next (s.receiveCommand .clearHolds tag args)

/-- PEEK_INCIDENT. -/
def execPeekIncident (tag : Byte) (args : List Byte) (s : State) : Host.Outcome State Fault Refusal :=
  .next (s.receiveCommand .peekIncident tag args)

/-- DISCARD_INCIDENT. -/
def execDiscardIncident (tag : Byte) (args : List Byte) (s : State) : Host.Outcome State Fault Refusal :=
  .next (s.receiveCommand .discardIncident tag args)

/-- CLEAR_OVERFLOW. -/
def execClearOverflow (tag : Byte) (args : List Byte) (s : State) : Host.Outcome State Fault Refusal :=
  .next (s.receiveCommand .clearOverflow tag args)

/-- READ_STATUS. -/
def execReadStatus (tag : Byte) (args : List Byte) (s : State) : Host.Outcome State Fault Refusal :=
  .next (s.receiveCommand .readStatus tag args)

/-- RESUME. -/
def execResume (tag : Byte) (args : List Byte) (s : State) : Host.Outcome State Fault Refusal :=
  .next (s.receiveCommand .resume tag args)

/-- IDENTIFY. -/
def execIdentify (tag : Byte) (args : List Byte) (s : State) : Host.Outcome State Fault Refusal :=
  .next (s.receiveCommand .identify tag args)

end Sys2Proof.Machine
end

