-- ==== Sys2Proof/Machine/Memory.lean ====
section
/-! DEFINITION. The meanings of the events of the Memory Port and of the hold timers: GRANT_Q, GRANT_P, COMPLETION, HALT
and HOLD_EXPIRY. An event that cannot come about in the state it meets does not come about and changes nothing
(assumption 2). -/

namespace Sys2Proof.Machine

/-- GRANT_Q: made when the arbiter chooses Q; otherwise the grant is not made (R61, R123, R124). -/
def execGrantQ (s : State) : Host.Outcome State Fault Refusal :=
  .next (if s.grantee = some .q then s.grant .q else s)

/-- GRANT_P: made when the arbiter chooses the port; otherwise the grant is not made (R73, R123, R124). -/
def execGrantP (m : Master) (s : State) : Host.Outcome State Fault Refusal :=
  .next (if s.grantee = some (.p m) then s.grant (.p m) else s)

/-- COMPLETION (R126, R127). The op slot carried back is not compared (R121). -/
def execCompletion (epoch : Epoch) (_slot : OpSlot) (status : MemStatus) (words : List Word) (s : State) :
    Host.Outcome State Fault Refusal :=
  .next (s.arrive epoch status words)

/-- HALT: the timer of the oldest operation expires, where it can be the next to expire (R128, R130). -/
def execHalt (s : State) : Host.Outcome State Fault Refusal :=
  .next (if s.timeAllows s.oldestTimer then s.halt else s)

/-- HOLD_EXPIRY: the timer of the ACTIVE hold in a slot expires, where it can be the next to expire (R92, R104). -/
def execHoldExpiry (slot : HoldSlot) (s : State) : Host.Outcome State Fault Refusal :=
  .next (if s.timeAllows (s.holdTimer slot) then s.expireHold slot else s)

end Sys2Proof.Machine
end

