-- ==== Sys2Proof/Machine/Requests.lean ====
section
/-! DEFINITION. The requests at a master port: arrival (R1, R18, R21, R22), the five stages of acceptance (R13 to R17)
and the meanings of READ, WRITE, FENCE, DROP and MALFORMED_REQUEST. -/

namespace Sys2Proof.Machine

/-- The arrival of a request of master `m` (R1): discarded while RESET or PRSTn is asserted (R21, R22); answered REFUSED
OVERRUN with its incident while the port is not IDLE (R18); otherwise accepted. -/
def State.request (s : State) (m : Master) (accept : State → State) : State :=
  if s.resetLine || s.prst[m] then s
  else if s.ports[m] = .idle then accept s
  else (s.answer m (.refused .overrun)).raise (.overrun m)

/-- Stages 2 and 3 for a READ or WRITE of master `m` to line `l` with mark `k` that needs `m` in `set` (R28 to R31, R93
to R98), and what follows when both have passed. LOST removes the BROKEN entry (R95). -/
def State.judgeAccess (s : State) (m : Master) (l : Line) (k : Mark) (set : MasterSet) (passed : HoldEffect → State) :
    State :=
  if set.has m = false then
    (s.answer m (.refused .denied)).raise (.denied m l (s.windows.governingNumber l))
  else if k = .take ∧ (s.windows.governing l).hold = false then s.answer m (.refused .noHold)
  else
    match s.holdCheck m l k with
    | .fail a => s.answer m a
    | .lost i => (s.setHold i none).answer m .lost
    | .pass e => passed e

/-- The port state a READ enters with its waited set (R72). -/
def readPort (a : Access) (waits : List Nat) : Port := if waits = [] then .ready a else .blocked a waits

/-- The effects of a READ that has passed every stage: the colliding OPEN entry sealed (R59), the waited set formed
(R70), the port BLOCKED or READY (R72). -/
def State.startRead (s : State) (m : Master) (a : Access) (bypass : Bool) : State :=
  { s with queue := sealWhere (fun e => e.line == a.line) s.queue }.setPort m
    (readPort a (s.waitedSet m a.line bypass))

/-- The acceptance of a READ (R8, R13, R16, R70). -/
def State.acceptRead (s : State) (m : Master) (f : Fields) : State :=
  match readForm f with
  | none => s.answer m (.refused .malformed)
  | some (a, k) =>
    s.judgeAccess m a.line k (s.windows.governing a.line).readSet (fun e =>
      if s.mem.state = .halted then s.answer m (.error .memDown)
      else (s.startRead m a (s.windows.governing a.line).bypass).applyHold m a.line e)

/-- The answer, or the waiting state, of a WRITE taken into the queue (R48): POSTED is answered DONE; UNPOSTED goes to
UNPOSTED on the entry `id`. -/
def State.answerWrite (s : State) (m : Master) (a : Access) (posting : Posting) (id : Nat) : State :=
  match posting with
  | .posted => s.answer m (.done [])
  | .unposted => s.setPort m (.unposted a id)

/-- Stage 5 of a WRITE and its effects (R47): merged (R49, R50), appended (R51) or RETRY QUEUE_FULL (R54); the hold is
made or released after the queue's part (R13, R52, R102). -/
def State.takeWrite (s : State) (m : Master) (a : Access) (ws : List WordData) (k : Mark) (g : Attributes)
    (e : HoldEffect) : State :=
  match (if g.posting = .posted then s.mergeTarget m a.line else none) with
  | some t => ((s.mergeInto t (placeWords a.first ws) k).applyHold m a.line e).answer m (.done [])
  | none =>
    if s.queue.length < Config.queueCapacity then
      ((s.appendEntry m a.line (placeWords a.first ws) g.posting (newEntryState g.posting g.combining k)).applyHold m
          a.line e).answerWrite m a g.posting s.nextId
    else s.answer m (.retry .queueFull)

/-- The acceptance of a WRITE (R8, R13, R16, R47). -/
def State.acceptWrite (s : State) (m : Master) (f : Fields) : State :=
  match writeForm f with
  | none => s.answer m (.refused .malformed)
  | some (a, ws, k) =>
    s.judgeAccess m a.line k (s.windows.governing a.line).writeSet (fun e =>
      if s.mem.state = .halted ∧ (s.windows.governing a.line).posting = .unposted then s.answer m (.error .memDown)
      else s.takeWrite m a ws k (s.windows.governing a.line) e)

/-- The acceptance of a FENCE (R58, R79, R82): ERROR MEM_DOWN while HALTED; DONE at once when its master has no entry;
otherwise its OPEN entry is sealed and the port waits on all its entries. -/
def State.acceptFence (s : State) (m : Master) (f : Fields) : State :=
  if fenceForm f = false then s.answer m (.refused .malformed)
  else if s.mem.state = .halted then s.answer m (.error .memDown)
  else if s.entriesOf m = [] then s.answer m (.done [])
  else
    { s with queue := sealWhere (fun e => e.master == m) s.queue }.setPort m (.fencing (s.entriesOf m))

/-- The acceptance of a DROP (R95, R103): on the master's own entry on the line alone. -/
def State.acceptDrop (s : State) (m : Master) (f : Fields) : State :=
  match dropForm f with
  | none => s.answer m (.refused .malformed)
  | some l =>
    match s.ownHold m l with
    | none => s.answer m (.refused .notHeld)
    | some (i, h) => (s.setHold i none).answer m (if h.isActive then .done [] else .lost)

/-- READ. -/
def execRead (m : Master) (f : Fields) (s : State) : Host.Outcome State Fault Refusal :=
  .next (s.request m (fun t => t.acceptRead m f))

/-- WRITE. -/
def execWrite (m : Master) (f : Fields) (s : State) : Host.Outcome State Fault Refusal :=
  .next (s.request m (fun t => t.acceptWrite m f))

/-- FENCE. -/
def execFence (m : Master) (f : Fields) (s : State) : Host.Outcome State Fault Refusal :=
  .next (s.request m (fun t => t.acceptFence m f))

/-- DROP. -/
def execDrop (m : Master) (f : Fields) (s : State) : Host.Outcome State Fault Refusal :=
  .next (s.request m (fun t => t.acceptDrop m f))

/-- MALFORMED_REQUEST: a kind that is none of the four fails stage 1 whatever its fields (R3). -/
def execMalformedRequest (m : Master) (_f : Fields) (s : State) : Host.Outcome State Fault Refusal :=
  .next (s.request m (fun t => t.answer m (.refused .malformed)))

end Sys2Proof.Machine
end

