-- ==== Sys2Proof/Machine/Resets.lean ====
section
/-! DEFINITION. The resets: a port reset (R20, R21, R60, R83, R85, R114, R139) and the power-on reset (R22, R67, R86,
R116, R140, R153, R162). -/

namespace Sys2Proof.Machine

/-- An operation of a READ of master `m` with its port waiting gets waiting port no (R139). -/
def Op.orphan (m : Master) (o : Op) : Op :=
  match o.kind with
  | .read i n true => if o.master = m then { o with kind := .read i n false } else o
  | .read _ _ false => o
  | .write _ => o

/-- The entry in a slot after the entries of master `m` are removed (R114). -/
def dropOwned (m : Master) (h : Option Hold) : Option Hold :=
  match h with
  | some h => if h.owner = m then none else some h
  | none => none

/-- The number of ACTIVE entries a master owns (R114). -/
def State.activeOf (s : State) (m : Master) : Nat :=
  (holdSlots.filter (fun i =>
    match s.holds[i] with
    | some h => h.owner == m && h.isActive
    | none => false)).length

/-- The assertion of PRSTn (R20): the request in flight abandoned without an answer, the OPEN entry sealed (R60), an
issued read orphaned (R139), the holds removed with HOLDS_DROPPED if one was ACTIVE (R114). -/
def State.portReset (s : State) (m : Master) : State :=
  let t : State :=
    { s with
      prst := s.prst.set m true
      ports := s.ports.set m .idle
      queue := sealWhere (fun e => e.master == m) s.queue
      mem := { s.mem with ops := s.mem.ops.map (Op.orphan m) }
      holds := Vector.ofFn (fun i : HoldSlot => dropOwned m s.holds[i]) }
  if s.activeOf m = 0 then t else t.raise (.holdsDropped m (s.activeOf m))

/-- The Link Unit at the assertion of RESET (R162): a frame in progress is discarded without judging, select staying
asserted with its bytes ignored; the buffer becomes NO_RESPONSE. -/
def Link.resetAssert (l : Link) : Link :=
  { l with
    phase := if l.phase = .waiting then .waiting else .ignoring
    frame := []
    count := 0
    bits := []
    response := .none }

/-- The assertion of RESET (R22): every block takes its reset values. The levels of PRST0 to PRST3, the time base, what
has already left the unit and the queue of commands are no block's state and stay (assumptions 6, 9). -/
def State.powerOnReset (s : State) : State :=
  { State.reset with
    resetLine := true
    prst := s.prst
    link := s.link.resetAssert
    now := s.now
    drawn := s.drawn
    answers := s.answers
    operations := s.operations
    pending := s.pending }

/-- PORT_RESET_ASSERT. -/
def execPortResetAssert (m : Master) (s : State) : Host.Outcome State Fault Refusal := .next (s.portReset m)

/-- PORT_RESET_DEASSERT: the port takes requests again from the next arrival (R21). -/
def execPortResetDeassert (m : Master) (s : State) : Host.Outcome State Fault Refusal :=
  .next { s with prst := s.prst.set m false }

/-- RESET_ASSERT. -/
def execResetAssert (s : State) : Host.Outcome State Fault Refusal := .next s.powerOnReset

/-- RESET_DEASSERT: every port whose PRSTn is deasserted takes requests from the next arrival (R22); a select asserted
through it stays ignored until its release (R162). -/
def execResetDeassert (s : State) : Host.Outcome State Fault Refusal := .next { s with resetLine := false }

end Sys2Proof.Machine
end

