-- ==== Sys2Proof/Machine/Dispatch.lean ====
section
/-! DEFINITION. One arm per command: the effect of a command on everything but the queue. -/

namespace Sys2Proof.Machine

def exec (i : Instr) (s : State) : Host.Outcome State Fault Refusal :=
  match i with
  | .read m f => Sys2Proof.Machine.execRead m f s
  | .write m f => Sys2Proof.Machine.execWrite m f s
  | .fence m f => Sys2Proof.Machine.execFence m f s
  | .drop m f => Sys2Proof.Machine.execDrop m f s
  | .grantQ => Sys2Proof.Machine.execGrantQ s
  | .grantP m => Sys2Proof.Machine.execGrantP m s
  | .completion epoch slot status words => Sys2Proof.Machine.execCompletion epoch slot status words s
  | .halt => Sys2Proof.Machine.execHalt s
  | .holdExpiry slot => Sys2Proof.Machine.execHoldExpiry slot s
  | .portResetAssert m => Sys2Proof.Machine.execPortResetAssert m s
  | .portResetDeassert m => Sys2Proof.Machine.execPortResetDeassert m s
  | .resetAssert => Sys2Proof.Machine.execResetAssert s
  | .resetDeassert => Sys2Proof.Machine.execResetDeassert s
  | .frameFault piece => Sys2Proof.Machine.execFrameFault piece s
  | .nop tag args => Sys2Proof.Machine.execNop tag args s
  | .getItem tag args => Sys2Proof.Machine.execGetItem tag args s
  | .setItem tag args => Sys2Proof.Machine.execSetItem tag args s
  | .loadWindow tag args => Sys2Proof.Machine.execLoadWindow tag args s
  | .readWindow tag args => Sys2Proof.Machine.execReadWindow tag args s
  | .disableWindow tag args => Sys2Proof.Machine.execDisableWindow tag args s
  | .freeze tag args => Sys2Proof.Machine.execFreeze tag args s
  | .readHold tag args => Sys2Proof.Machine.execReadHold tag args s
  | .breakHold tag args => Sys2Proof.Machine.execBreakHold tag args s
  | .clearHolds tag args => Sys2Proof.Machine.execClearHolds tag args s
  | .peekIncident tag args => Sys2Proof.Machine.execPeekIncident tag args s
  | .discardIncident tag args => Sys2Proof.Machine.execDiscardIncident tag args s
  | .clearOverflow tag args => Sys2Proof.Machine.execClearOverflow tag args s
  | .readStatus tag args => Sys2Proof.Machine.execReadStatus tag args s
  | .resume tag args => Sys2Proof.Machine.execResume tag args s
  | .identify tag args => Sys2Proof.Machine.execIdentify tag args s
  | .malformedRequest m f => Sys2Proof.Machine.execMalformedRequest m f s

end Sys2Proof.Machine
end

