-- ==== Sys2Proof/Machine/Idle.lean ====
section
/-! DEFINITION. What the unit does of its own when no command waits (assumptions 1, 3, 4): a timer that may expire
expires (R104, R128), the arbiter makes a grant it can make (R122), or a step of the time base passes. -/

namespace Sys2Proof.Machine

/-- The events of the unit's own. -/
inductive OwnEvent where
  | halt
  | expire (slot : HoldSlot)
  | grant (c : Claimant)
  | time
  deriving DecidableEq, Repr

/-- The halt, when the oldest operation's timer may expire (R128). -/
def State.haltEvents (s : State) : List OwnEvent :=
  match s.oldestTimer with
  | some t => if t.due s.now then [.halt] else []
  | none => []

/-- The hold expiries that may come now (R104). -/
def State.expiryEvents (s : State) : List OwnEvent :=
  (holdSlots.filter (fun i =>
    match s.holdTimer i with
    | some t => t.due s.now
    | none => false)).map OwnEvent.expire

/-- The grant the arbiter can make, which it makes at once (R122). -/
def State.grantEvents (s : State) : List OwnEvent :=
  match s.grantee with
  | some c => [.grant c]
  | none => []

/-- The passing of one step of the time base: not while a grant can be made (R122: at once), and not past the last
moment of a timer whose expiry is an event (00_scope.md, Time). -/
def State.timeEvents (s : State) : List OwnEvent :=
  if s.grantee.isNone && s.noneOverrun s.now.tick then [.time] else []

/-- Every event of the unit's own that may come now. -/
def State.ownEvents (s : State) : List OwnEvent :=
  s.haltEvents ++ s.expiryEvents ++ s.grantEvents ++ s.timeEvents

/-- One event of the unit's own. -/
def State.runOwn (s : State) (e : OwnEvent) : State :=
  match e with
  | .halt => s.halt
  | .expire i => s.expireHold i
  | .grant c => s.grant c
  | .time => { s with now := s.now.tick }

/-- The step on an empty queue. Where several events may come, the free value `Config.choice` says which. -/
def State.idle (s : State) : State :=
  match s.ownEvents with
  | [] => s
  | [e] => s.runOwn e
  | e :: es =>
    { s with drawn := s.drawn + 1 }.runOwn
      (((e :: es)[Config.choice s.drawn % (e :: es).length]?).getD e)

end Sys2Proof.Machine
end

