-- ==== Sys2Proof/Safety.lean ====
section
/-! DEFINITION. The vocabulary of the statements, written from the manual's words and not from the functions of
Machine/: requests of good form and what each stage of acceptance asks, raising incidents, the arbiter's choice, frames
and responses, and what counts as a sound state. -/

namespace Sys2Proof.Machine

/-- An answer sent on a master port, after those already sent, and nothing else (R12). -/
def State.told (s : State) (m : Master) (a : Answer) : State :=
  { s with answers := s.answers.set m (s.answers[m] ++ [a]) }

/-- What raising incidents in one event does, in their order, and that it does nothing else (R142 to R145, R151): each
takes the next number; the first are stored while fewer than 8 records stand in the list, the others counted up to 255;
ALERT shows its condition. -/
def Raised (s t : State) (is : List Incident) : Prop :=
  t = { s with incidents := t.incidents } ∧
  t.incidents.counter = s.incidents.counter + BitVec.ofNat 16 is.length ∧
  t.incidents.records =
    s.incidents.records ++
      (is.take (8 - s.incidents.records.length)).mapIdx
        (fun k x => { seq := s.incidents.counter + BitVec.ofNat 16 k, incident := x }) ∧
  t.incidents.overflow.toNat =
    min 255 (s.incidents.overflow.toNat + (is.length - (8 - s.incidents.records.length))) ∧
  (t.incidents.alert = true ↔
    (∃ r ∈ t.incidents.records, s.settings.alertMask.getLsbD r.incident.maskBit = true) ∨ t.incidents.overflow ≠ 0)

/-! ### Requests -/

/-- The master on whose port a request arrives; none for a command that is no request. -/
def requestOf : Instr → Option Master
  | .read m _ => some m
  | .write m _ => some m
  | .fence m _ => some m
  | .drop m _ => some m
  | .malformedRequest m _ => some m
  | _ => none

/-- The port takes a request that arrives (R1): IDLE, PRSTn deasserted, RESET deasserted. -/
def State.takesRequests (s : State) (m : Master) : Prop :=
  s.resetLine = false ∧ s.prst[m] = false ∧ s.ports[m] = .idle

/-- The fields of a READ of good form (R3, Figure 5). -/
def GoodRead (f : Fields) (a : Access) (k : Mark) : Prop :=
  f = { line := some a.line.toNat, first := some a.first.val, count := some a.count, data := none,
        mark := some (.valid k) } ∧ 1 ≤ a.count ∧ a.first.val + a.count ≤ 8

/-- The fields of a WRITE of good form (R3, Figure 5). -/
def GoodWrite (f : Fields) (a : Access) (ws : List WordData) (k : Mark) : Prop :=
  f = { line := some a.line.toNat, first := some a.first.val, count := some a.count, data := some ws,
        mark := some (.valid k) } ∧ 1 ≤ a.count ∧ a.first.val + a.count ≤ 8 ∧ ws.length = a.count ∧
    ∀ w ∈ ws, w.b0 ≠ none ∨ w.b1 ≠ none ∨ w.b2 ≠ none ∨ w.b3 ≠ none

/-- The fields of a FENCE of good form: none (R3). -/
def noFields : Fields := { line := none, first := none, count := none, data := none, mark := none }

/-- The fields of a DROP of good form: a line (R3). -/
def dropFields (l : Line) : Fields :=
  { line := some l.toNat, first := none, count := none, data := none, mark := none }

/-- A READ or WRITE of good form of master `m`, with its access, its mark and the master set its permission is judged
by (R3, R28, R29). -/
def State.accessRequest (s : State) (m : Master) (i : Instr) (a : Access) (k : Mark) (needed : MasterSet) : Prop :=
  (∃ f, i = .read m f ∧ GoodRead f a k ∧ needed = (s.windows.governing a.line).readSet) ∨
  (∃ f ws, i = .write m f ∧ GoodWrite f a ws k ∧ needed = (s.windows.governing a.line).writeSet)

/-- Stage 2 passes (R28 to R30): the master is in the set its request needs, and a TAKE finds holds allowed. -/
def State.passesWindow (s : State) (m : Master) (l : Line) (k : Mark) (needed : MasterSet) : Prop :=
  needed.has m = true ∧ (k = .take → (s.windows.governing l).hold = true)

/-- A window contains a line (R25). -/
def inWindow (w : Window) (l : Line) : Prop :=
  w.enabled = true ∧ w.base.toNat ≤ l.toNat / 128 ∧ l.toNat / 128 ≤ w.limit.toNat

/-! ### Holds -/

/-- The entry of a master on a line, in a slot of the Hold Table. -/
def State.ownAt (s : State) (m : Master) (l : Line) (i : HoldSlot) (h : Hold) : Prop :=
  s.holds[i] = some h ∧ h.owner = m ∧ h.line = l

/-- A master has no entry on a line. -/
def State.ownNone (s : State) (m : Master) (l : Line) : Prop := ∀ i h, ¬ s.ownAt m l i h

/-- Another master holds an ACTIVE entry on a line (R94). -/
def State.heldByOther (s : State) (m : Master) (l : Line) : Prop :=
  ∃ (i : HoldSlot) (h : Hold), s.holds[i] = some h ∧ h.owner ≠ m ∧ h.line = l ∧ h.state ≠ .broken

/-- A read of another master is in flight on a line (R99). -/
def State.otherReads (s : State) (m : Master) (l : Line) : Prop :=
  ∃ (n : Master) (a : Access), n ≠ m ∧ a.line = l ∧
    ((∃ ws, s.ports[n] = .blocked a ws) ∨ s.ports[n] = .ready a ∨ ∃ k, s.ports[n] = .issued a k)

/-- Stage 3 passes for a READ or WRITE (R93 to R98). -/
def State.passesHolds (s : State) (m : Master) (l : Line) (k : Mark) : Prop :=
  ¬ s.heldByOther m l ∧
  (∀ i h, s.ownAt m l i h → h.state = .broken → k = .noMark) ∧
  (k = .take → s.ownNone m l → ¬ s.otherReads m l ∧ s.heldBy m < 2 ∧ s.holdCount < 8)

/-- The Hold Table after a READ or WRITE that has passed every stage (R96, R97, R100, R102). -/
def State.holdsAfter (s : State) (m : Master) (l : Line) (k : Mark) (after : Vector (Option Hold) 8) : Prop :=
  match k with
  | .noMark => after = s.holds
  | .take =>
    ((∃ i h, s.ownAt m l i h) ∧ after = s.holds) ∨
    (s.ownNone m l ∧ ∃ i : HoldSlot, s.holds[i] = none ∧ (∀ j : HoldSlot, j < i → s.holds[j] ≠ none) ∧
      after = s.holds.set i (some
        { line := l, owner := m, state := .active { limit := s.settings.holdLimit.toNat, started := s.now } }))
  | .free =>
    (∃ i h, s.ownAt m l i h ∧ after = s.holds.set i none) ∨ (s.ownNone m l ∧ after = s.holds)

/-! ### The Posting Queue -/

/-- One byte of a word of write data: absent, or present with its value. -/
def wordByte (w : WordData) (j : Fin 4) : Option Byte :=
  match j with
  | 0 => w.b0
  | 1 => w.b1
  | 2 => w.b2
  | 3 => w.b3

/-- One byte of a line's data. -/
def dataByte (d : LineData) (i : Fin 8) (j : Fin 4) : Option Byte := wordByte d[i] j

/-- The byte a WRITE marks present at a word index and byte number, if it does (R45). -/
def writtenByte (a : Access) (ws : List WordData) (i : Fin 8) (j : Fin 4) : Option Byte :=
  if a.first.val ≤ i.val then (ws[i.val - a.first.val]?).bind (fun w => wordByte w j) else none

/-- Sealing an entry (R57). -/
def sealedEntry (e : Entry) : Entry := if e.state = .opened then { e with state := .sealed } else e

/-- The entry a WRITE of a master to a line merges into (R49): the master's youngest, OPEN, naming the line, with no
younger entry naming the line. Identities rise from the oldest entry to the youngest (`queueSound`). -/
def State.mergesInto (s : State) (m : Master) (l : Line) (e : Entry) : Prop :=
  e ∈ s.queue ∧ e.master = m ∧ e.state = .opened ∧ e.line = l ∧
    ∀ x ∈ s.queue, (x.master = m ∨ x.line = l) → x.id ≤ e.id

/-- The entries a READ of a master to a line waits on (R69, R70). -/
def State.readWaits (s : State) (m : Master) (l : Line) (bypass : Bool) : List Nat :=
  (s.queue.filter (fun e => decide (e.line = l ∨ (bypass = false ∧ e.master = m)))).map Entry.id

/-- The entries a FENCE of a master waits on (R79). -/
def State.fenceWaits (s : State) (m : Master) : List Nat :=
  (s.queue.filter (fun e => decide (e.master = m))).map Entry.id

/-! ### The arbiter -/

/-- An operation may be issued (R122): RESET deasserted, NORMAL, fewer than 4 outstanding; and no halt is the next
event, because the oldest operation's timer has run out a whole microsecond or more ago (R128, assumption 15). -/
def State.canIssue (s : State) : Prop :=
  s.resetLine = false ∧ s.mem.state = .normal ∧ s.mem.ops.length < 4 ∧
    ∀ o rest, s.mem.ops = o :: rest → ¬ o.timer.latest.le s.now = true

/-- A claimant claims and the resource is free for it (R61, R73, R122). -/
def State.claiming (s : State) : Claimant → Prop
  | .q =>
    s.canIssue ∧ (∀ o ∈ s.mem.ops, ∀ id, o.kind ≠ .write id) ∧ ∃ e rest, s.queue = e :: rest ∧ e.state ≠ .issued
  | .p m => s.canIssue ∧ ∃ a, s.ports[m] = .ready a

/-- The queue is urgent (R64). -/
def State.isUrgent (s : State) : Prop :=
  s.settings.urgentLevel.toNat ≤ s.queue.length ∨
    ∃ m : Master, (∃ a ws, s.ports[m] = .blocked a ws) ∨ ∃ ws, s.ports[m] = .fencing ws

/-- A claimant's place in the fixed rotation order Q, P0, P1, P2, P3 (R123). -/
def claimantPlace : Claimant → Nat
  | .q => 0
  | .p m => m.val + 1

/-- The number of claimants the search passes before it reaches `c`, beginning after the rotation position (R123). -/
def searchDistance (r : Option Claimant) (c : Claimant) : Nat :=
  match r with
  | none => claimantPlace c
  | some d => (claimantPlace c + 4 - claimantPlace d) % 5

/-- The arbiter chooses a claimant (R123): Q when it claims and the queue is urgent, otherwise the first claiming
claimant of the search. -/
def State.chooses (s : State) (c : Claimant) : Prop :=
  s.claiming c ∧
    ((c = .q ∧ s.isUrgent) ∨
      (¬ (s.claiming .q ∧ s.isUrgent) ∧
        ∀ d, s.claiming d → searchDistance s.mem.rotation c ≤ searchDistance s.mem.rotation d))

/-- The grant command of a claimant. -/
def grantOf : Claimant → Instr
  | .q => .grantQ
  | .p m => .grantP m

/-- The lowest op slot no outstanding operation holds (R120). -/
def State.lowestFree (s : State) (k : OpSlot) : Prop :=
  (∀ o ∈ s.mem.ops, o.slot ≠ k) ∧ ∀ j < k, ∃ o ∈ s.mem.ops, o.slot = j

/-! ### The control link -/

/-- The Link Unit takes a frame that begins (R154, R162): RESET deasserted and select released. -/
def State.takesFrames (s : State) : Prop := s.resetLine = false ∧ s.link.phase = .waiting

/-- The Link Unit after a frame of `n` bytes has been judged and answered (R154, R157): select released, the old
response carried out byte by byte with 00h beyond its end, and the new one in the buffer. -/
def State.linkAfter (s : State) (n : Nat) (r : Response) : Link :=
  { phase := .waiting, frame := [], count := 0, bits := [], response := r
    shifted := (List.range n).map s.link.response.byteAt, openBytes := s.link.openBytes }

/-- The state after a frame of `n` bytes that is answered with a status, a tag and data, the effect on the other blocks
being `effect` (R157, R158, R159). -/
def State.replied (s : State) (n : Nat) (tag : Byte) (status : Status) (data : List Byte) (effect : State) : State :=
  { effect with link := s.linkAfter n { status := status, tag := tag, data := data } }

/-- Two bytes, least significant first (section 8.9). -/
def bytes16 (v : BitVec 16) : List Byte := [v.extractLsb' 0 8, v.extractLsb' 8 8]

/-- Four bytes, least significant first (section 8.9). -/
def bytes32 (v : BitVec 32) : List Byte :=
  [v.extractLsb' 0 8, v.extractLsb' 8 8, v.extractLsb' 16 8, v.extractLsb' 24 8]

/-- Three bytes of a page number, least significant first (section 8.9). -/
def pageBytes (p : Page) : List Byte :=
  [(p.setWidth 24).extractLsb' 0 8, (p.setWidth 24).extractLsb' 8 8, (p.setWidth 24).extractLsb' 16 8]

/-- One byte of a flag: 1 for yes, 0 for no (Figure 46). -/
def yesNo (b : Bool) : Byte := if b = true then 1 else 0

/-- Bytes 8 to 13 of Figure 46, part C. -/
def attributeArgs (a : Attributes) : List Byte :=
  [a.readSet.setWidth 8, a.writeSet.setWidth 8, yesNo a.hold, if a.posting = .unposted then 1 else 0,
    yesNo a.bypass, yesNo a.combining]

/-- Bytes 1 to 13 of Figure 46, part C. -/
def windowArgs (w : Window) : List Byte :=
  yesNo w.enabled :: (pageBytes w.base ++ pageBytes w.limit ++ attributeArgs w.attrs)

/-- The items of GET with their codes and values (R164, Figure 46, part D). -/
def State.itemReport (s : State) : List (Byte × BitVec 16) :=
  [(0x01, s.settings.holdLimit), (0x02, s.settings.memTimeout), (0x03, s.settings.urgentLevel),
    (0x04, s.settings.alertMask.setWidth 16), (0x10, BitVec.ofNat 16 s.queue.length),
    (0x11, BitVec.ofNat 16 s.holdCount), (0x12, if s.mem.state = .halted then 1 else 0),
    (0x13, s.mem.epoch.setWidth 16), (0x14, if s.windows.frozen = true then 1 else 0),
    (0x15, s.incidents.overflow.setWidth 16)]

/-- The data of a record by its kind (R147, Figure 46, parts D and E). -/
def recordData (r : Record) : List Byte :=
  bytes16 r.seq ++
    match r.incident with
    | .denied m l w =>
      1 :: BitVec.ofNat 8 m.val :: (bytes32 (l.setWidth 32) ++ [BitVec.ofNat 8 w.val])
    | .holdExpired m l i =>
      2 :: BitVec.ofNat 8 m.val :: (bytes32 (l.setWidth 32) ++ [BitVec.ofNat 8 i.val])
    | .holdsDropped m n => [3, BitVec.ofNat 8 m.val, BitVec.ofNat 8 n]
    | .dataError m l => 4 :: BitVec.ofNat 8 m.val :: bytes32 (l.setWidth 32)
    | .memTimeout l n => 5 :: (bytes32 (l.setWidth 32) ++ [BitVec.ofNat 8 n])
    | .writeLost m l => 6 :: BitVec.ofNat 8 m.val :: bytes32 (l.setWidth 32)
    | .lateCompletion e => [7, e.setWidth 8]
    | .overrun m => [8, BitVec.ofNat 8 m.val]

/-- The queue record of READ_STATUS: bit 31 zero, state in bits 29 to 30, master in 27 to 28, line in 0 to 26 (Figure 46,
part E). -/
def entryRecord (e : Entry) : BitVec 32 :=
  (0 : BitVec 1) ++ (match e.state with | .opened => 0 | .sealed => 1 | .issued => 2 : BitVec 2) ++
    BitVec.ofNat 2 e.master.val ++ e.line

/-- The data of READ_STATUS (R166, Figure 46, part E). -/
def State.statusReport (s : State) : List Byte :=
  BitVec.ofNat 8 s.queue.length ::
    (s.queue.flatMap (fun e => bytes32 (entryRecord e)) ++
      [BitVec.ofNat 8 s.holdCount, if s.mem.state = .halted then 1 else 0, s.mem.epoch.setWidth 8,
        BitVec.ofNat 8 s.mem.ops.length, yesNo s.windows.frozen, s.incidents.overflow])

/-! ### Sound states -/

/-- The Hold Table is sound (R89 to R91): no master owns more than 2 entries, no master has two entries on one line, no
line has two ACTIVE entries. -/
def State.holdsSound (s : State) : Prop :=
  (∀ m : Master, s.heldBy m ≤ 2) ∧
  ∀ (i j : HoldSlot) (h h' : Hold), i ≠ j → s.holds[i] = some h → s.holds[j] = some h' →
    ¬ (h.owner = h'.owner ∧ h.line = h'.line) ∧
    ¬ (h.line = h'.line ∧ h.state ≠ .broken ∧ h'.state ≠ .broken)

/-- Of two entries of the queue, the older first (R43, R46, R49, R51, R61): they entered in that order, the younger is not
ISSUED, and the older, if OPEN, shares neither its master nor its line with the younger. -/
def entriesOrdered (e e' : Entry) : Prop :=
  e.id < e'.id ∧ e'.state ≠ .issued ∧ (e.state = .opened → e.master ≠ e'.master ∧ e.line ≠ e'.line)

/-- The Posting Queue is sound (R42 to R46, R51): at most 16 entries, ordered, every entry known to the counter, with at
least one byte present, and not OPEN if UNPOSTED. -/
def State.queueSound (s : State) : Prop :=
  s.queue.length ≤ 16 ∧ s.queue.Pairwise entriesOrdered ∧
  ∀ e ∈ s.queue, e.id < s.nextId ∧ (e.posting = .unposted → e.state ≠ .opened) ∧
    ∃ (i : Fin 8) (j : Fin 4), dataByte e.words i j ≠ none

/-- The Memory Port is sound (R119, R122, R125, R130): at most 4 operations, at most one WRITE, op slots all different,
every operation stamped with the current epoch, none outstanding while HALTED. -/
def State.memSound (s : State) : Prop :=
  s.mem.ops.length ≤ 4 ∧ (s.mem.ops.filter Op.isWrite).length ≤ 1 ∧
  s.mem.ops.Pairwise (fun o o' => o.slot ≠ o'.slot) ∧
  (∀ o ∈ s.mem.ops, o.epoch = s.mem.epoch) ∧
  (s.mem.state = .halted → s.mem.ops = [])

/-- The outstanding WRITE and the ISSUED entry are one (R61, R119): a WRITE operation is that of the oldest entry, which
is ISSUED, and an ISSUED entry has its WRITE operation outstanding. -/
def State.issueSound (s : State) : Prop :=
  (∀ o ∈ s.mem.ops, ∀ id, o.kind = .write id →
    ∃ e rest, s.queue = e :: rest ∧ e.id = id ∧ e.state = .issued ∧ e.line = o.line ∧ e.master = o.master) ∧
  (∀ e ∈ s.queue, e.state = .issued → ∃ o ∈ s.mem.ops, o.kind = .write e.id)

/-- The operation a waiting READ port waits for (R119, R120). -/
def isReadOf (o : Op) (m : Master) (a : Access) (k : OpSlot) : Prop :=
  o.kind = .read a.first a.count true ∧ o.slot = k ∧ o.line = a.line ∧ o.master = m

/-- What a port record names exists (R7, R9, R10, R11, R70, R79): a BLOCKED read and a fence wait on at least one entry,
all in the queue; an ISSUED read has its operation outstanding; an UNPOSTED write has its entry, of its master and
UNPOSTED, in the queue. -/
def State.portSound (s : State) (m : Master) : Prop :=
  match s.ports[m] with
  | .idle => True
  | .ready _ => True
  | .blocked _ ws => ws ≠ [] ∧ ∀ id ∈ ws, ∃ e ∈ s.queue, e.id = id
  | .fencing ws => ws ≠ [] ∧ ∀ id ∈ ws, ∃ e ∈ s.queue, e.id = id
  | .issued a k => ∃ o ∈ s.mem.ops, isReadOf o m a k
  | .unposted _ id => ∃ e ∈ s.queue, e.id = id ∧ e.master = m ∧ e.posting = .unposted

/-- The ports are sound: every record names what exists, an outstanding READ whose port waits belongs to an ISSUED port,
a port whose PRSTn is asserted is IDLE and its master owns no hold (R20, R21, R114), and every port is IDLE while the
Memory Port is HALTED (R133, R136). Entries are told apart by their identities, operations by their op slots. -/
def State.portsSound (s : State) : Prop :=
  s.queue.Pairwise (fun e e' => e.id ≠ e'.id) ∧ (∀ e ∈ s.queue, e.id < s.nextId) ∧
  s.mem.ops.Pairwise (fun o o' => o.slot ≠ o'.slot) ∧
  (∀ m : Master, s.portSound m) ∧
  (∀ o ∈ s.mem.ops, ∀ i n, o.kind = .read i n true → ∃ a, s.ports[o.master] = .issued a o.slot) ∧
  (∀ m : Master, s.prst[m] = true → s.ports[m] = .idle ∧ s.heldBy m = 0) ∧
  (s.mem.state = .halted → ∀ m : Master, s.ports[m] = .idle)

/-- The settings items and the windows hold values in their ranges (R23, R169). -/
def State.valuesSound (s : State) : Prop :=
  (1 ≤ s.settings.holdLimit.toNat ∧ s.settings.holdLimit.toNat ≤ 4000) ∧
  (2 ≤ s.settings.memTimeout.toNat ∧ s.settings.memTimeout.toNat ≤ 500) ∧
  (1 ≤ s.settings.urgentLevel.toNat ∧ s.settings.urgentLevel.toNat ≤ 16) ∧
  ∀ i : Fin 8, s.windows.table[i].base ≤ s.windows.table[i].limit

/-- The Incident Unit is sound (R144, R151): at most 8 records, and ALERT shows its condition. -/
def State.incidentsSound (s : State) : Prop :=
  s.incidents.records.length ≤ 8 ∧
  (s.incidents.alert = true ↔
    (∃ r ∈ s.incidents.records, s.settings.alertMask.getLsbD r.incident.maskBit = true) ∨ s.incidents.overflow ≠ 0)

/-- While RESET is asserted every block stands at its reset values (R22, R24, R67, R89, R118, R153, R162). -/
def State.heldInReset (s : State) : Prop :=
  s.resetLine = true →
    s.ports = State.reset.ports ∧ s.windows = State.reset.windows ∧ s.queue = [] ∧ s.holds = State.reset.holds ∧
    s.mem = State.reset.mem ∧ s.incidents = State.reset.incidents ∧ s.settings = State.reset.settings ∧
    s.link.phase ≠ .receiving ∧ s.link.response = { status := .noResponse, tag := 0, data := [] }

/-- The Link Unit is sound (R154, R162): of the frame in progress it keeps the first 24 bytes with a count that saturates
at 25, and fewer than eight bits of the byte not yet whole; with none in progress it keeps none of a frame, and with
select released no bit either. -/
def Link.sound (l : Link) : Prop :=
  l.frame.length = min l.count 24 ∧ l.count ≤ 25 ∧ l.bits.length < 8 ∧
  (l.phase ≠ .receiving → l.count = 0) ∧ (l.phase = .waiting → l.bits = [])

/-- The Link Unit of a state is sound. -/
def State.linkSound (s : State) : Prop := s.link.sound

/-- The response in the buffer is of a form the manual allows (R156): data only with the status OK, and at most 71 bytes
of it. -/
def State.responseSound (s : State) : Prop :=
  s.link.response.data.length ≤ 71 ∧ (s.link.response.status ≠ .ok → s.link.response.data = [])

/-! ### Timers -/

/-- No hold timer has run past its window at a moment: the moment one microsecond beyond its limit has not come. -/
def State.holdsTimelyAt (s : State) (at' : Time) : Prop :=
  ∀ (i : HoldSlot) (h : Hold) (t : Timer), s.holds[i] = some h → h.state = .active t → ¬ t.latest.le at' = true

/-- No running timer whose expiry is an event has run past its window at a moment (00_scope.md, Time; R92, R104, R128). -/
def State.timelyAt (s : State) (at' : Time) : Prop :=
  (∀ o rest, s.mem.ops = o :: rest → ¬ o.timer.latest.le at' = true) ∧ s.holdsTimelyAt at'

/-- No running timer whose expiry is an event has run past its window. -/
def State.timely (s : State) : Prop := s.timelyAt s.now

/-- A timer's expiry can be the next to come: its limit is reached, or can be reached before another timer has run past
its window. -/
def State.mayExpire (s : State) (t : Timer) : Prop := t.earliest.le s.now = true ∨ s.timelyAt t.earliest

end Sys2Proof.Machine
end

