-- ==== Sys2Proof/Certificates/Slice0/Obligations.lean ====
section
/-! DEFINITION. The statements for the provers: what every command of the table does, stage by stage and block by block,
and what every step keeps. Each ends in the next state in full, written as the state before with the fields that change. -/

open Sys2Proof Sys2Proof.Machine

/-! ### Steps -/

/-- A step with a command waiting is that command's effect on the state with the queue's rest. The steps of the table are
whole (spec/95_what_each_step_holds.md); that commands wait in `pending`, and are taken from its front one a step, is the
model's choice (log entry 1). -/
def Obligations.StepRunsFrontCommand : Prop :=
  ∀ (s : State) (c : Instr) (rest : List Instr), s.pending = c :: rest → step s = exec c { s with pending := rest }

/-- Every command answers a next state, whatever the state; it leaves the queue of commands as it is, and takes back no
answer and no operation already sent (R12). That an event that cannot come about changes nothing, that the meanings are
total in states no run reaches, that the outputs are kept as histories, through RESET too, and that there is a queue are
the model's (log entries 1, 2, 9 and 13). -/
def Obligations.EveryCommandCompletes : Prop :=
  ∀ (c : Instr) (s : State), ∃ t, exec c s = .next t ∧ t.pending = s.pending ∧
    (∀ m : Master, ∃ more, t.answers[m] = s.answers[m] ++ more) ∧ ∃ more, t.operations = s.operations ++ more

/-- With no command waiting, the unit takes one event of its own, and there always is one; no time passes while the
arbiter can make a grant (R122). That the empty queue leaves the unit to act of its own, and that an open value picks
the event, are the model's choices (log entries 1 and 3). -/
def Obligations.IdleStepTakesOwnEvent : Prop :=
  ∀ s : State, s.pending = [] →
    (∃ e ∈ s.ownEvents, ∃ n, step s = .next (State.runOwn { s with drawn := n } e)) ∧
    ((∃ c, s.chooses c) → OwnEvent.time ∉ s.ownEvents)

/-- From a state in which no hold timer and no timer of the oldest operation has outlived its window, no step lets one
do so, whatever command it takes, but for the timer of an overdue operation that a matched completion has just made the
oldest (R128); a halt and a hold expiry come no earlier than the limit of their timer and earlier than one microsecond
beyond it. How time passes is the model's choice (log entries 1, 2, 4 and 5). -/
def Obligations.TimersExpireInTheirWindow : Prop :=
  ∀ s t : State, s.timely → step s = .next t →
    t.holdsTimelyAt t.now ∧ (s.pending = [] → t.timely) ∧
    (∀ o rest, t.mem.ops = o :: rest → o.timer.latest.le t.now = true →
      ∃ older, s.mem.ops = older :: o :: rest ∧ t.now = s.now) ∧
    (s.mem.state = .normal → t.mem.state = .halted →
      ∃ o rest, s.mem.ops = o :: rest ∧ o.timer.earliest.le t.now = true ∧ ¬ o.timer.latest.le t.now = true) ∧
    ((s.pending = [] ∨ ∃ i, s.pending.head? = some (.holdExpiry i)) →
      ∀ (i : HoldSlot) (h : Hold) (r : Timer), s.holds[i] = some h → h.state = .active r → t.holds[i] ≠ some h →
        r.earliest.le t.now = true ∧ ¬ r.latest.le t.now = true)

/-! ### Requests: arrival and the five stages -/

/-- A request that arrives while RESET or its port's PRSTn is asserted has no effect at all (R21, R22). -/
def Obligations.RequestsDiscardedUnderReset : Prop :=
  ∀ (s : State) (i : Instr) (m : Master), requestOf i = some m → (s.resetLine = true ∨ s.prst[m] = true) →
    exec i s = .next s

/-- R18: A request on a port that is not IDLE is answered REFUSED OVERRUN and raises OVERRUN; the request in flight and
everything else stay as they are. -/
def Obligations.OverrunAnswered : Prop :=
  ∀ (s : State) (i : Instr) (m : Master), requestOf i = some m → s.resetLine = false → s.prst[m] = false →
    s.ports[m] ≠ .idle → ∃ t, exec i s = .next t ∧ Raised (s.told m (.refused .overrun)) t [.overrun m]

/-- A READ, WRITE, FENCE or DROP whose fields are not those of its kind, and a request of no known kind, are answered
REFUSED MALFORMED and do nothing else (R3). -/
def Obligations.MalformedAnswered : Prop :=
  ∀ (s : State) (m : Master) (f : Fields), s.takesRequests m →
    ((∀ a k, ¬ GoodRead f a k) → exec (.read m f) s = .next (s.told m (.refused .malformed))) ∧
    ((∀ a ws k, ¬ GoodWrite f a ws k) → exec (.write m f) s = .next (s.told m (.refused .malformed))) ∧
    (f ≠ noFields → exec (.fence m f) s = .next (s.told m (.refused .malformed))) ∧
    ((∀ l, f ≠ dropFields l) → exec (.drop m f) s = .next (s.told m (.refused .malformed))) ∧
    exec (.malformedRequest m f) s = .next (s.told m (.refused .malformed))

/-- The governing record of a line is the lowest-numbered window that contains it, or B (R25, R26). -/
def Obligations.GoverningRecordIsLowestWindow : Prop :=
  ∀ (u : WindowUnit) (l : Line),
    (∀ i : Fin 8, inWindow u.table[i] l → (∀ j : Fin 8, j < i → ¬ inWindow u.table[j] l) →
      u.governing l = u.table[i].attrs ∧ u.governingNumber l = i.castSucc) ∧
    ((∀ i : Fin 8, ¬ inWindow u.table[i] l) → u.governing l = u.background ∧ u.governingNumber l = 8)

/-- A READ or WRITE whose master is not in the set it needs is answered REFUSED DENIED, raises one DENIED incident with
its master, line and governing record, and does nothing else, whatever its mark (R28, R29, R31). -/
def Obligations.DeniedRaisesIncident : Prop :=
  ∀ (s : State) (m : Master) (i : Instr) (a : Access) (k : Mark) (needed : MasterSet),
    s.takesRequests m → s.accessRequest m i a k needed → needed.has m = false →
    ∃ t, exec i s = .next t ∧
      Raised (s.told m (.refused .denied)) t [.denied m a.line (s.windows.governingNumber a.line)]

/-- A permitted READ or WRITE carrying TAKE where holds are not allowed is answered REFUSED NO_HOLD (R30), and one that
passes stage 2 on a line another master holds ACTIVE is answered RETRY HELD whatever its mark (R94); neither does
anything else. -/
def Obligations.NoHoldAndHeldAnswered : Prop :=
  ∀ (s : State) (m : Master) (i : Instr) (a : Access) (k : Mark) (needed : MasterSet),
    s.takesRequests m → s.accessRequest m i a k needed →
    (needed.has m = true → k = .take → (s.windows.governing a.line).hold = false →
      exec i s = .next (s.told m (.refused .noHold))) ∧
    (s.passesWindow m a.line k needed → s.heldByOther m a.line → exec i s = .next (s.told m (.retry .held)))

/-- A READ or WRITE carrying TAKE or FREE on a line where its master's entry is BROKEN and no other master's is ACTIVE
is answered LOST, removes that entry, and does nothing else, whatever the Memory Port's state and the queue's fill
(R95). -/
def Obligations.LostRemovesBrokenEntry : Prop :=
  ∀ (s : State) (m : Master) (i : Instr) (a : Access) (k : Mark) (needed : MasterSet) (slot : HoldSlot) (h : Hold),
    s.holdsSound → s.takesRequests m → s.accessRequest m i a k needed → s.passesWindow m a.line k needed →
    ¬ s.heldByOther m a.line → s.ownAt m a.line slot h → h.state = .broken → k ≠ .noMark →
    exec i s = .next { s.told m .lost with holds := s.holds.set slot none }

/-- The checks of a TAKE that would acquire, in their order: RETRY LINE_BUSY, REFUSED HOLD_LIMIT, RETRY HOLDS_FULL; a
request stopped at one does nothing else (R98, R99). -/
def Obligations.AcquisitionChecksInOrder : Prop :=
  ∀ (s : State) (m : Master) (i : Instr) (a : Access) (needed : MasterSet),
    s.takesRequests m → s.accessRequest m i a .take needed → s.passesWindow m a.line .take needed →
    ¬ s.heldByOther m a.line → s.ownNone m a.line →
    (s.otherReads m a.line → exec i s = .next (s.told m (.retry .lineBusy))) ∧
    (¬ s.otherReads m a.line → 2 ≤ s.heldBy m → exec i s = .next (s.told m (.refused .holdLimit))) ∧
    (¬ s.otherReads m a.line → s.heldBy m < 2 → 8 ≤ s.holdCount → exec i s = .next (s.told m (.retry .holdsFull)))

/-- While the Memory Port is HALTED a READ, an UNPOSTED WRITE that pass stages 1 to 3 and a FENCE are answered ERROR
MEM_DOWN and do nothing else: no hold is made, continued or released (R16, R82, R136). -/
def Obligations.HaltedAnswersMemDown : Prop :=
  ∀ (s : State) (m : Master), s.takesRequests m → s.mem.state = .halted →
    (∀ f a k, GoodRead f a k → s.passesWindow m a.line k (s.windows.governing a.line).readSet →
      s.passesHolds m a.line k → exec (.read m f) s = .next (s.told m (.error .memDown))) ∧
    (∀ f a ws k, GoodWrite f a ws k → s.passesWindow m a.line k (s.windows.governing a.line).writeSet →
      s.passesHolds m a.line k → (s.windows.governing a.line).posting = .unposted →
      exec (.write m f) s = .next (s.told m (.error .memDown))) ∧
    exec (.fence m noFields) s = .next (s.told m (.error .memDown))

/-- A READ that passes every stage: the entry for its line, if OPEN, is sealed; the hold its mark asks for is made or
released; the port is READY, or BLOCKED on every entry for the line and, without bypass, every entry of its master; and
nothing else changes (R59, R70, R72, R100, R102). -/
def Obligations.ReadAccepted : Prop :=
  ∀ (s : State) (m : Master) (f : Fields) (a : Access) (k : Mark),
    s.takesRequests m → GoodRead f a k → s.passesWindow m a.line k (s.windows.governing a.line).readSet →
    s.passesHolds m a.line k → s.mem.state = .normal →
    ∃ t, exec (.read m f) s = .next t ∧ s.holdsAfter m a.line k t.holds ∧
      t = { s with
        queue := s.queue.map (fun e => if e.line = a.line then sealedEntry e else e)
        holds := t.holds
        ports := s.ports.set m
          (if s.readWaits m a.line (s.windows.governing a.line).bypass = [] then .ready a
           else .blocked a (s.readWaits m a.line (s.windows.governing a.line).bypass)) }

/-- A POSTED WRITE whose master's youngest entry is OPEN for the line is merged into it, whatever the queue's fill and
the Memory Port's state: its present bytes replace, the entry is sealed if the mark is FREE, the answer is DONE, and
nothing else changes but the hold its mark asks for (R49, R50, R52, R65). -/
def Obligations.WriteMerged : Prop :=
  ∀ (s : State) (m : Master) (f : Fields) (a : Access) (ws : List WordData) (k : Mark) (e : Entry),
    s.queueSound → s.takesRequests m → GoodWrite f a ws k →
    s.passesWindow m a.line k (s.windows.governing a.line).writeSet → s.passesHolds m a.line k →
    (s.windows.governing a.line).posting = .posted → s.mergesInto m a.line e →
    ∃ t w, exec (.write m f) s = .next t ∧ s.holdsAfter m a.line k t.holds ∧
      (∀ (i : Fin 8) (j : Fin 4), dataByte w i j = (writtenByte a ws i j).or (dataByte e.words i j)) ∧
      t = { s.told m (.done []) with
        queue := s.queue.map (fun x =>
          if x = e then { e with words := w, state := if k = .free then .sealed else .opened } else x)
        holds := t.holds }

/-- A WRITE that cannot merge, while fewer than 16 entries are held and the Memory Port is NORMAL or the WRITE POSTED,
is appended: a new youngest entry with its bytes, OPEN if POSTED, combining and not FREE, and SEALED otherwise; the OPEN
entries of its master and of its line are sealed; a POSTED WRITE is answered DONE and an UNPOSTED one leaves its port
UNPOSTED on the entry; and nothing else changes but the hold its mark asks for (R45, R48, R51, R52). -/
def Obligations.WriteAppended : Prop :=
  ∀ (s : State) (m : Master) (f : Fields) (a : Access) (ws : List WordData) (k : Mark),
    s.queueSound → s.takesRequests m → GoodWrite f a ws k →
    s.passesWindow m a.line k (s.windows.governing a.line).writeSet → s.passesHolds m a.line k →
    ((s.windows.governing a.line).posting = .unposted → s.mem.state = .normal) →
    ((s.windows.governing a.line).posting = .posted → ∀ e, ¬ s.mergesInto m a.line e) →
    s.queue.length < 16 →
    ∃ t w, exec (.write m f) s = .next t ∧ s.holdsAfter m a.line k t.holds ∧
      (∀ (i : Fin 8) (j : Fin 4), dataByte w i j = writtenByte a ws i j) ∧
      t = { (match (s.windows.governing a.line).posting with
             | .posted => s.told m (.done [])
             | .unposted => { s with ports := s.ports.set m (.unposted a s.nextId) }) with
        queue :=
          s.queue.map (fun e => if e.master = m ∨ e.line = a.line then sealedEntry e else e) ++
            [{ id := s.nextId, master := m, line := a.line, words := w
               posting := (s.windows.governing a.line).posting
               state :=
                 if (s.windows.governing a.line).combining = true ∧ (s.windows.governing a.line).posting = .posted ∧
                    k ≠ .free then .opened else .sealed }]
        nextId := s.nextId + 1
        holds := t.holds }

/-- A WRITE that cannot merge while 16 entries are held is answered RETRY QUEUE_FULL and has no effect at all: no entry
is made or sealed and no hold acquired, continued or released (R54). -/
def Obligations.FullQueueAnswersRetry : Prop :=
  ∀ (s : State) (m : Master) (f : Fields) (a : Access) (ws : List WordData) (k : Mark),
    s.queueSound → s.takesRequests m → GoodWrite f a ws k →
    s.passesWindow m a.line k (s.windows.governing a.line).writeSet → s.passesHolds m a.line k →
    ((s.windows.governing a.line).posting = .unposted → s.mem.state = .normal) →
    ((s.windows.governing a.line).posting = .posted → ∀ e, ¬ s.mergesInto m a.line e) →
    s.queue.length = 16 → exec (.write m f) s = .next (s.told m (.retry .queueFull))

/-- A FENCE while the Memory Port is NORMAL is answered DONE when its master has no entry in the queue; otherwise its
master's OPEN entry is sealed and the port is FENCING on every entry of the master; and nothing else changes (R58,
R79). -/
def Obligations.FenceAnsweredOrWaits : Prop :=
  ∀ (s : State) (m : Master), s.takesRequests m → s.mem.state = .normal →
    ((∀ e ∈ s.queue, e.master ≠ m) → exec (.fence m noFields) s = .next (s.told m (.done []))) ∧
    ((∃ e ∈ s.queue, e.master = m) →
      exec (.fence m noFields) s = .next { s with
        queue := s.queue.map (fun e => if e.master = m then sealedEntry e else e)
        ports := s.ports.set m (.fencing (s.fenceWaits m)) })

/-- R103: A DROP acts on its master's own entry on the line alone, whatever the windows, the Memory Port and the queue. -/
def Obligations.DropActsOnOwnEntry : Prop :=
  ∀ (s : State) (m : Master) (l : Line), s.holdsSound → s.takesRequests m →
    (∀ i h r, s.ownAt m l i h → h.state = .active r →
      exec (.drop m (dropFields l)) s = .next { s.told m (.done []) with holds := s.holds.set i none }) ∧
    (∀ i h, s.ownAt m l i h → h.state = .broken →
      exec (.drop m (dropFields l)) s = .next { s.told m .lost with holds := s.holds.set i none }) ∧
    (s.ownNone m l → exec (.drop m (dropFields l)) s = .next (s.told m (.refused .notHeld)))

/-! ### The Memory Port -/

/-- When any claimant claims for which the resource is free, the arbiter chooses exactly one, and of the five grants the
one to it is made and no other; when none claims, none is made (R122, R123, R124). That nothing claims once the oldest
operation's timer has run past its window is the model's reading of R128 (log entry 15). -/
def Obligations.ArbiterChoosesOne : Prop :=
  ∀ s : State,
    ((∃ c, s.claiming c) → ∃ c, s.claiming c ∧ s.chooses c ∧ s.grantee = some c ∧ (∀ d, s.chooses d → d = c) ∧
      ∀ d, exec (grantOf d) s ≠ .next s ↔ d = c) ∧
    ((∀ c, ¬ s.claiming c) → s.grantee = none ∧ ∀ d, exec (grantOf d) s = .next s)

/-- GRANT_Q when the arbiter chooses Q: the oldest entry becomes ISSUED, its WRITE operation is issued with the lowest
free op slot, the epoch and a timer of MEM_TIMEOUT, sent with the entry's words, and Q is the rotation position; nothing
else changes (R61, R120, R123). When the arbiter does not choose Q, the grant is not made (R124; log entry 2). That it
chooses none once the oldest operation's timer has run past its window is the model's reading of R128 (log entry 15). -/
def Obligations.GrantQIssuesOldestEntry : Prop :=
  ∀ s : State,
    (s.chooses .q → ∃ k e rest, s.lowestFree k ∧ s.queue = e :: rest ∧
      exec .grantQ s = .next { s with
        queue := { e with state := .issued } :: rest
        mem := { s.mem with
          ops := s.mem.ops ++ [{ kind := .write e.id, slot := k, epoch := s.mem.epoch, line := e.line
                                 master := e.master
                                 timer := { limit := s.settings.memTimeout.toNat, started := s.now } }]
          rotation := some .q }
        operations := s.operations ++ [.write e.line e.words s.mem.epoch k] }) ∧
    (¬ s.chooses .q → exec .grantQ s = .next s)

/-- GRANT_P when the arbiter chooses the port: the READ operation of its request is issued with the lowest free op slot,
the epoch and a timer of MEM_TIMEOUT, the port is ISSUED with that op slot, and the port is the rotation position;
nothing else changes (R73, R120, R123). When the arbiter does not choose the port, the grant is not made (R124; log
entry 2). That it chooses none once the oldest operation's timer has run past its window is the model's reading of R128
(log entry 15). -/
def Obligations.GrantPIssuesRead : Prop :=
  ∀ (s : State) (m : Master),
    (s.chooses (.p m) → ∃ k a, s.lowestFree k ∧ s.ports[m] = .ready a ∧
      exec (.grantP m) s = .next { s with
        ports := s.ports.set m (.issued a k)
        mem := { s.mem with
          ops := s.mem.ops ++ [{ kind := .read a.first a.count true, slot := k, epoch := s.mem.epoch, line := a.line
                                 master := m
                                 timer := { limit := s.settings.memTimeout.toNat, started := s.now } }]
          rotation := some (.p m) }
        operations := s.operations ++ [.read a.line a.first a.count s.mem.epoch k] }) ∧
    (¬ s.chooses (.p m) → exec (.grantP m) s = .next s)

/-- The rotation gives every claimant its turn: while the queue is not urgent, each grant to another brings a claimant
strictly nearer to the head of the search, from a place of at most 4 (R123). -/
def Obligations.RotationServesEveryClaimant : Prop :=
  ∀ (s t : State) (c d : Claimant), s.chooses c → ¬ (s.claiming .q ∧ s.isUrgent) → s.claiming d → d ≠ c →
    exec (grantOf c) s = .next t →
    searchDistance s.mem.rotation d ≤ 4 ∧ searchDistance t.mem.rotation d < searchDistance s.mem.rotation d

/-- A completion that arrives while RESET is asserted is discarded without an incident (R140); otherwise one with an
epoch that is not the current one, or one with nothing outstanding, raises LATE_COMPLETION with the epoch it carries,
and does nothing else (R127). -/
def Obligations.LateCompletionDiscarded : Prop :=
  ∀ (s : State) (epoch : Epoch) (k : OpSlot) (status : MemStatus) (words : List Word),
    (s.resetLine = true → exec (.completion epoch k status words) s = .next s) ∧
    (s.resetLine = false → (epoch ≠ s.mem.epoch ∨ s.mem.ops = []) →
      ∃ t, exec (.completion epoch k status words) s = .next t ∧ Raised s t [.lateCompletion epoch])

/-- A completion matched to a READ, whatever op slot it carries: the operation leaves the list; the port that is ISSUED
with its op slot is answered DONE with the words, or ERROR DATA, and goes to IDLE; a READ whose port no longer waits
answers nobody; a BAD status, or words that are not as many as the word count, raises DATA_ERROR; and nothing else
changes (R75, R76, R83, R121, R126). -/
def Obligations.ReadCompletionAnswers : Prop :=
  ∀ (s : State) (k : OpSlot) (status : MemStatus) (words : List Word) (o : Op) (rest : List Op) (first : Fin 8)
    (count : Nat) (waiting : Bool),
    s.resetLine = false → s.mem.ops = o :: rest → o.kind = .read first count waiting →
    ∃ t u, exec (.completion s.mem.epoch k status words) s = .next t ∧
      (status = .good ∧ words.length = count → t = u) ∧
      (¬ (status = .good ∧ words.length = count) → Raised u t [.dataError o.master o.line]) ∧
      ((waiting = true ∧ ∃ a, s.ports[o.master] = .issued a o.slot) →
        u = { s.told o.master (if status = .good ∧ words.length = count then .done words else .error .data) with
          mem := { s.mem with ops := rest }
          ports := s.ports.set o.master .idle }) ∧
      (¬ (waiting = true ∧ ∃ a, s.ports[o.master] = .issued a o.slot) →
        u = { s with mem := { s.mem with ops := rest } })

/-- A completion matched to the WRITE of the oldest entry, whatever status it carries: the operation leaves the list and
the entry the queue; the master waiting in UNPOSTED on it is answered DONE; a BLOCKED read and a fence lose it from what
they wait on, and with their last entry gone the read is READY and the fence answered DONE; and nothing else changes
(R62, R72, R80, R121, R126). -/
def Obligations.WriteCompletionRemovesEntry : Prop :=
  ∀ (s : State) (k : OpSlot) (status : MemStatus) (words : List Word) (o : Op) (rest : List Op) (e : Entry)
    (younger : List Entry),
    s.queueSound → s.resetLine = false → s.mem.ops = o :: rest → s.queue = e :: younger → o.kind = .write e.id →
    ∃ t, exec (.completion s.mem.epoch k status words) s = .next t ∧
      t = { s with mem := { s.mem with ops := rest }, queue := younger, ports := t.ports, answers := t.answers } ∧
      ∀ m : Master,
        match s.ports[m] with
        | .unposted a id =>
          if id = e.id ∧ e.posting = .unposted ∧ e.master = m then
            t.ports[m] = .idle ∧ t.answers[m] = s.answers[m] ++ [.done []]
          else t.ports[m] = .unposted a id ∧ t.answers[m] = s.answers[m]
        | .blocked a ws =>
          t.answers[m] = s.answers[m] ∧
            t.ports[m] = if ∀ id ∈ ws, id = e.id then .ready a else .blocked a (ws.filter (fun id => decide (id ≠ e.id)))
        | .fencing ws =>
          if ∀ id ∈ ws, id = e.id then t.ports[m] = .idle ∧ t.answers[m] = s.answers[m] ++ [.done []]
          else t.ports[m] = .fencing (ws.filter (fun id => decide (id ≠ e.id))) ∧ t.answers[m] = s.answers[m]
        | .idle => t.ports[m] = .idle ∧ t.answers[m] = s.answers[m]
        | .ready a => t.ports[m] = .ready a ∧ t.answers[m] = s.answers[m]
        | .issued a j => t.ports[m] = .issued a j ∧ t.answers[m] = s.answers[m]

/-- HALT, when the timer of the oldest operation can be the next to expire: HALTED, the epoch advanced, the list empty;
the ISSUED entry and every UNPOSTED one removed; every port IDLE, answered ERROR TIMEOUT if it was ISSUED or its entry was, ERROR MEM_DOWN if it waited
otherwise; MEM_TIMEOUT, then WRITE_LOST of the ISSUED entry, then of the queued UNPOSTED entries, oldest first; and
nothing else (R130 to R134, R66, R117). The time base stands at the timer's limit or later (log entry 5). With nothing
outstanding no timer runs, and while another timer's window would end before this one's limit that one expires first:
in both cases nothing happens (R92, R128; log entry 2). -/
def Obligations.HaltAnswersEveryPort : Prop :=
  ∀ s : State,
    ((∀ o rest, s.mem.ops = o :: rest → ¬ s.mayExpire o.timer) → exec .halt s = .next s) ∧
    ∀ o rest, s.mem.ops = o :: rest → s.mayExpire o.timer →
      ∃ t u, exec .halt s = .next t ∧
        Raised u t
          (.memTimeout o.line s.mem.ops.length ::
            ((s.queue.filter (fun e => decide (e.state = .issued)) ++
                s.queue.filter (fun e => decide (e.state ≠ .issued ∧ e.posting = .unposted))).map
              (fun e => .writeLost e.master e.line))) ∧
        u = { s with
          mem := { s.mem with state := .halted, epoch := s.mem.epoch + 1, ops := [] }
          queue := s.queue.filter (fun e => decide (e.state ≠ .issued ∧ e.posting = .posted))
          now := if o.timer.earliest.le s.now = true then s.now else o.timer.earliest
          ports := u.ports
          answers := u.answers } ∧
        ∀ m : Master, u.ports[m] = .idle ∧
          u.answers[m] = s.answers[m] ++
            match s.ports[m] with
            | .idle => []
            | .blocked _ _ => [.error .memDown]
            | .ready _ => [.error .memDown]
            | .fencing _ => [.error .memDown]
            | .issued _ _ => [.error .timeout]
            | .unposted _ id =>
              if ∃ e ∈ s.queue, e.id = id ∧ e.state = .issued then [.error .timeout] else [.error .memDown]

/-- RESUME while HALTED makes the Memory Port NORMAL, is answered OK, and changes nothing else; while NORMAL it is
answered BAD_STATE and changes nothing (R137). -/
def Obligations.ResumeEndsHalt : Prop :=
  ∀ (s : State) (tag : Byte), s.takesFrames →
    (s.mem.state = .halted → exec (.resume tag []) s =
      .next (s.replied 4 tag .ok [] { s with mem := { s.mem with state := .normal } })) ∧
    (s.mem.state = .normal → exec (.resume tag []) s = .next (s.replied 4 tag .badState [] s))

/-! ### Hold expiry and the resets -/

/-- HOLD_EXPIRY of an ACTIVE entry whose timer can be the next to expire: it becomes BROKEN in its slot, HOLD_EXPIRED is
raised with its owner, line and slot, and nothing else changes; the time base stands at the timer's limit or later (R104; log entry 5). An empty slot and a
BROKEN entry have no running timer, and while another timer's window would end before this one's limit that one expires
first: in these cases nothing happens (R92, R128; log entry 2). -/
def Obligations.HoldExpiryBreaksEntry : Prop :=
  ∀ (s : State) (i : HoldSlot),
    (∀ h r, s.holds[i] = some h → h.state = .active r → s.mayExpire r →
      ∃ t, exec (.holdExpiry i) s = .next t ∧
        Raised { s with
            holds := s.holds.set i (some { h with state := .broken })
            now := if r.earliest.le s.now = true then s.now else r.earliest }
          t [.holdExpired h.owner h.line i]) ∧
    ((∀ h r, s.holds[i] = some h → h.state = .active r → ¬ s.mayExpire r) → exec (.holdExpiry i) s = .next s)

/-- PORT_RESET_ASSERT: the port is IDLE without an answer, its master's OPEN entry is sealed, the record of its issued
READ has no waiting port, its master's holds are removed, and HOLDS_DROPPED is raised with the number of ACTIVE ones
removed if there was one; nothing else changes (R20, R60, R83, R114, R139). -/
def Obligations.PortResetAbandonsRequest : Prop :=
  ∀ (s : State) (m : Master), ∃ t u, exec (.portResetAssert m) s = .next t ∧
    u = { s with
      prst := s.prst.set m true
      ports := s.ports.set m .idle
      queue := s.queue.map (fun e => if e.master = m then sealedEntry e else e)
      mem := { s.mem with
        ops := s.mem.ops.map (fun o =>
          match o.kind with
          | .read first count _ => if o.master = m then { o with kind := .read first count false } else o
          | .write _ => o) }
      holds := u.holds } ∧
    (∀ i : HoldSlot, (∀ h, s.holds[i] = some h → h.owner = m → u.holds[i] = none) ∧
      ((∀ h, s.holds[i] = some h → h.owner ≠ m) → u.holds[i] = s.holds[i])) ∧
    ((∀ (i : HoldSlot) (h : Hold), s.holds[i] = some h → h.owner = m → h.state = .broken) → t = u) ∧
    ((∃ (i : HoldSlot) (h : Hold), s.holds[i] = some h ∧ h.owner = m ∧ h.state ≠ .broken) →
      Raised u t [.holdsDropped m
        ((List.finRange 8).filter (fun i => s.holds[i].any (fun h => decide (h.owner = m ∧ h.state ≠ .broken)))).length])

/-- PORT_RESET_DEASSERT changes the level of its port's input and nothing else, RESET_DEASSERT that of RESET, and an IDLE
port takes requests again as soon as both its inputs are deasserted (R21, R22). -/
def Obligations.DeassertionChangesLevelOnly : Prop :=
  ∀ (s : State) (m : Master),
    (∃ t, exec (.portResetDeassert m) s = .next t ∧ t = { s with prst := t.prst } ∧ t.prst[m] = false ∧
      (∀ n : Master, n ≠ m → t.prst[n] = s.prst[n]) ∧
      (s.resetLine = false → s.ports[m] = .idle → t.takesRequests m)) ∧
    ∃ t, exec .resetDeassert s = .next t ∧ t = { s with resetLine := false } ∧
      (s.prst[m] = false → s.ports[m] = .idle → t.takesRequests m)

/-- RESET_ASSERT: every block takes its reset values; no answer is sent; a frame in progress is discarded and its select
stays asserted with its bytes ignored (R22, R24, R67, R86, R116, R140, R153, R162). The levels of PRST0 to PRST3, the
time base, what has left the unit and the model's own fields are as log entries 3, 6, 7, 8, 9 and 18 say. -/
def Obligations.ResetAssertTakesResetValues : Prop :=
  ∀ s : State, ∃ t, exec .resetAssert s = .next t ∧
    (∀ m : Master, t.ports[m] = .idle) ∧
    (∀ i : Fin 8, t.windows.table[i] =
      { enabled := false, base := 0, limit := 0
        attrs := { readSet := 0, writeSet := 0, hold := false, posting := .posted, bypass := false
                   combining := false } }) ∧
    t.windows.background =
      { readSet := 0xF, writeSet := 0xF, hold := true, posting := .posted, bypass := true, combining := true } ∧
    t.windows.frozen = false ∧ t.queue = [] ∧ (∀ i : HoldSlot, t.holds[i] = none) ∧
    t.mem = { state := .normal, epoch := 0, ops := [], rotation := none } ∧
    t.incidents = { records := [], counter := 0, overflow := 0, alert := false } ∧
    t.settings = { holdLimit := 250, memTimeout := 40, urgentLevel := 12, alertMask := 0xFF } ∧
    t.link = {
      phase := if s.link.phase = .waiting then .waiting else .ignoring
      frame := []
      count := 0
      bits := []
      response := { status := .noResponse, tag := 0, data := [] }
      shifted := s.link.shifted
      openBytes := s.link.openBytes } ∧
    t.resetLine = true ∧ t.prst = s.prst ∧ t.now = s.now ∧ t.answers = s.answers ∧ t.operations = s.operations ∧
    t.pending = s.pending ∧ t.drawn = s.drawn ∧ t.nextId = 0

/-- The reset values of every block (R7, R24, R42, R89, R118, R128, R143, R145, R152, R153, R157, R162), and that they
satisfy every invariant of the statements below. The levels of the reset inputs are the model's choice (log entry 7). -/
def Obligations.ResetValues : Prop :=
  State.reset.ports = #v[.idle, .idle, .idle, .idle] ∧
  (∀ i : Fin 8, State.reset.windows.table[i] =
    { enabled := false, base := 0, limit := 0
      attrs := { readSet := 0, writeSet := 0, hold := false, posting := .posted, bypass := false, combining := false } }) ∧
  State.reset.windows.background =
    { readSet := 0xF, writeSet := 0xF, hold := true, posting := .posted, bypass := true, combining := true } ∧
  State.reset.windows.frozen = false ∧ State.reset.queue = [] ∧ (∀ i : HoldSlot, State.reset.holds[i] = none) ∧
  State.reset.mem = { state := .normal, epoch := 0, ops := [], rotation := none } ∧
  State.reset.incidents = { records := [], counter := 0, overflow := 0, alert := false } ∧
  State.reset.settings = { holdLimit := 250, memTimeout := 40, urgentLevel := 12, alertMask := 0xFF } ∧
  State.reset.link.response = { status := .noResponse, tag := 0, data := [] } ∧
  State.reset.prst = #v[false, false, false, false] ∧ State.reset.resetLine = false ∧ State.reset.pending = [] ∧
  State.reset.holdsSound ∧ State.reset.queueSound ∧ State.reset.memSound ∧ State.reset.issueSound ∧
  State.reset.portsSound ∧ State.reset.valuesSound ∧ State.reset.incidentsSound ∧ State.reset.linkSound ∧
  State.reset.responseSound ∧ State.reset.heldInReset ∧ State.reset.timely ∧ State.reset.link.phase = .waiting

/-! ### The control link: frames -/

/-- While RESET is asserted, and from then until select is released when it has stayed asserted, whatever is clocked
changes nothing but the link: no frame begins or is judged, the buffer stays, and the release of select ends it (R162). A
whole frame that begins under RESET carries out 00h with each byte; so does each byte of a piece clocked under RESET; and
what a byte clocked after it carries out is a free value (log entry 18). -/
def Obligations.FramesIgnoredUnderReset : Prop :=
  ∀ (s : State),
    (s.resetLine = true ∨ s.link.phase = .ignoring →
      (∀ (c : LinkCommand) (tag : Byte) (args : List Byte), ∃ l : Link,
        exec (c.instr tag args) s = .next { s with link := l } ∧ l.response = s.link.response ∧ l.phase = .waiting) ∧
      ∀ p : LinkPiece, ∃ l : Link, exec (.frameFault p) s = .next { s with link := l } ∧
        l.response = s.link.response ∧ (p.closes = true → l.phase = .waiting) ∧
        (l.phase = .receiving → s.link.phase = .receiving)) ∧
    (s.resetLine = true → s.link.phase = .waiting →
      (∀ (c : LinkCommand) (tag : Byte) (args : List Byte), args.length ≤ 20 →
        exec (c.instr tag args) s = .next { s with link := {
          phase := .waiting, frame := [], count := 0, bits := [], response := s.link.response
          shifted := List.replicate (4 + args.length) 0, openBytes := s.link.openBytes } }) ∧
      ∀ (bytes : List Byte) (cut : List Bool), cut.length < 8 →
        exec (.frameFault (wholeFrame (bitsOfBytes bytes ++ cut))) s = .next { s with link := {
          phase := .waiting, frame := [], count := 0, bits := [], response := s.link.response
          shifted := List.replicate bytes.length 0, openBytes := s.link.openBytes } }) ∧
    (s.link.phase = .ignoring → ∀ p : LinkPiece, ∃ (n : Nat) (l : Link),
      n = (s.link.bits.length + p.bits.length) / 8 ∧ exec (.frameFault p) s = .next { s with link := l } ∧
      (s.resetLine = true → l.shifted = s.link.shifted ++ List.replicate n 0 ∧ l.openBytes = s.link.openBytes) ∧
      (s.resetLine = false →
        l.shifted = s.link.shifted ++ (List.range n).map (fun k => Config.ignoredByte (s.link.openBytes + k)) ∧
        l.openBytes = s.link.openBytes + n))

/-- FRAME_FAULT, whatever bits of an unfinished byte stand at its end: a frame of the wrong length is answered FRAMING
with tag 0; one of the right length whose bytes do not sum to 0 modulo 256, BAD_CHECK with its tag; one whose code names
no command, BAD_COMMAND with its tag; nothing changes but the link. A frame clocked in pieces is judged as the whole, bits
clocked with select released change nothing (R154, R158, R159), and an asserted select is not asserted anew (log
entry 10). -/
def Obligations.FrameFaultAnswered : Prop :=
  (∀ (s : State) (opens closes : Bool) (a b : List Bool), ∃ u,
    exec (.frameFault { opens := opens, bits := a, closes := false }) s = .next u ∧
    exec (.frameFault { opens := false, bits := b, closes := closes }) u =
      exec (.frameFault { opens := opens, bits := a ++ b, closes := closes }) s) ∧
  (∀ (s : State) (bits : List Bool) (closes : Bool), s.linkSound → s.link.phase = .waiting →
    exec (.frameFault { opens := false, bits := bits, closes := closes }) s = .next s) ∧
  (∀ (s : State) (bits : List Bool) (closes : Bool), s.link.phase ≠ .waiting →
    exec (.frameFault { opens := true, bits := bits, closes := closes }) s =
      exec (.frameFault { opens := false, bits := bits, closes := closes }) s) ∧
  ∀ (s : State) (bytes : List Byte) (cut : List Bool), s.takesFrames → cut.length < 8 →
    ((¬ ∃ (code tag n : Byte) (rest : List Byte), bytes = code :: tag :: n :: rest ∧ n.toNat ≤ 20 ∧
        bytes.length = 4 + n.toNat) →
      exec (.frameFault (wholeFrame (bitsOfBytes bytes ++ cut))) s = .next (s.replied bytes.length 0 .framing [] s)) ∧
    ∀ (code tag n : Byte) (rest : List Byte), bytes = code :: tag :: n :: rest → n.toNat ≤ 20 →
      bytes.length = 4 + n.toNat →
      ((bytes.map BitVec.toNat).sum % 256 ≠ 0 →
        exec (.frameFault (wholeFrame (bitsOfBytes bytes ++ cut))) s = .next (s.replied bytes.length tag .badCheck [] s)) ∧
      ((bytes.map BitVec.toNat).sum % 256 = 0 → LinkCommand.ofCode code = none →
        exec (.frameFault (wholeFrame (bitsOfBytes bytes ++ cut))) s = .next (s.replied bytes.length tag .badCommand [] s))

/-- The frame of every control-link command, clocked bit by bit, decodes to that command with its tag and its argument
bytes (R154, R155, R158, R159). -/
def Obligations.FrameDecodesToItsCommand : Prop :=
  ∀ (c : LinkCommand) (tag : Byte) (args : List Byte), args.length ≤ 20 →
    decodeFrame (encodeFrame c tag args) = some (c.instr tag args)

/-- Bits clocked that are the good frame of a command do exactly what that command's row does, in every state: the link
judges bits, not rows. With select asserted already they must be whole bytes, since bits of an unfinished byte are dropped
at the release of select alone (R154, R158, R159; log entry 10). -/
def Obligations.BitsActAsTheirCommand : Prop :=
  ∀ (bits : List Bool) (i : Instr) (s : State), decodeFrame bits = some i →
    (s.link.phase = .waiting ∨ bits.length % 8 = 0) → exec (.frameFault (wholeFrame bits)) s = exec i s

/-- A response frame is status, tag, data length, data and check byte, summing to 0 modulo 256 (R156), and it is carried
out byte by byte with 00h beyond its end (R157); the ten statuses have the codes of Figure 46, part D. -/
def Obligations.ResponseFrameLayout : Prop :=
  (Status.ok.code = 0x00 ∧ Status.empty.code = 0x01 ∧ Status.badCommand.code = 0x02 ∧ Status.badItem.code = 0x03 ∧
    Status.badValue.code = 0x04 ∧ Status.badState.code = 0x05 ∧ Status.frozen.code = 0x06 ∧
    Status.badCheck.code = 0x07 ∧ Status.framing.code = 0x08 ∧ Status.noResponse.code = 0x09) ∧
  ∀ r : Response, r.data.length ≤ 71 →
    ∃ check : Byte,
      (((r.status.code :: r.tag :: BitVec.ofNat 8 r.data.length :: r.data) ++ [check]).map BitVec.toNat).sum % 256 = 0 ∧
      ∀ k : Nat, r.byteAt k =
        (((r.status.code :: r.tag :: BitVec.ofNat 8 r.data.length :: r.data) ++ [check])[k]?).getD 0

/-- A known command with an argument length that is not its own is answered BAD_VALUE and not executed, whatever the
frozen flag (R159, R168). -/
def Obligations.WrongArgumentLengthAnswered : Prop :=
  ∀ (s : State) (c : LinkCommand) (n : Nat) (tag : Byte) (args : List Byte), s.takesFrames → args.length ≤ 20 →
    c.argLength = some n → args.length ≠ n →
    exec (c.instr tag args) s = .next (s.replied (4 + args.length) tag .badValue [] s)

/-! ### The control link: commands -/

/-- R163: NOP with 0 to 20 argument bytes, whatever they hold, is answered OK with no data; the old response is carried
out as far as the frame goes; nothing else changes. -/
def Obligations.NopAnswersOk : Prop :=
  ∀ (s : State) (tag : Byte) (args : List Byte), s.takesFrames → args.length ≤ 20 →
    exec (.nop tag args) s = .next (s.replied (4 + args.length) tag .ok [] s)

/-- R164: GET of each of the ten items returns its value in two bytes, GET of any other code is answered BAD_ITEM, and
neither changes anything. -/
def Obligations.GetReturnsItem : Prop :=
  ∀ (s : State) (tag : Byte), s.takesFrames →
    (∀ code value, (code, value) ∈ s.itemReport →
      exec (.getItem tag [code]) s = .next (s.replied 5 tag .ok (bytes16 value) s)) ∧
    ∀ code, (∀ value, (code, value) ∉ s.itemReport) →
      exec (.getItem tag [code]) s = .next (s.replied 5 tag .badItem [] s)

/-- SET of a settings item to a value in its range replaces it and is answered OK; out of its range, BAD_VALUE; of any
other code, BAD_ITEM whatever the value; nothing else changes but ALERT, judged anew at a new ALERT_MASK (R165, R152),
in which bits 0 to 7 stand for the eight kinds in the order of Figure 46, part D. -/
def Obligations.SetReplacesItem : Prop :=
  (∀ (m : Master) (l : Line) (w : Fin 9) (i : HoldSlot) (n : Nat) (e : Epoch),
    (Incident.denied m l w).maskBit = 0 ∧ (Incident.holdExpired m l i).maskBit = 1 ∧
    (Incident.holdsDropped m n).maskBit = 2 ∧ (Incident.dataError m l).maskBit = 3 ∧
    (Incident.memTimeout l n).maskBit = 4 ∧ (Incident.writeLost m l).maskBit = 5 ∧
    (Incident.lateCompletion e).maskBit = 6 ∧ (Incident.overrun m).maskBit = 7) ∧
  ∀ (s : State) (tag : Byte) (v : BitVec 16), s.takesFrames →
    exec (.setItem tag (0x01 :: bytes16 v)) s =
      .next (if 1 ≤ v.toNat ∧ v.toNat ≤ 4000 then
        s.replied 7 tag .ok [] { s with settings := { s.settings with holdLimit := v } }
      else s.replied 7 tag .badValue [] s) ∧
    exec (.setItem tag (0x02 :: bytes16 v)) s =
      .next (if 2 ≤ v.toNat ∧ v.toNat ≤ 500 then
        s.replied 7 tag .ok [] { s with settings := { s.settings with memTimeout := v } }
      else s.replied 7 tag .badValue [] s) ∧
    exec (.setItem tag (0x03 :: bytes16 v)) s =
      .next (if 1 ≤ v.toNat ∧ v.toNat ≤ 16 then
        s.replied 7 tag .ok [] { s with settings := { s.settings with urgentLevel := v } }
      else s.replied 7 tag .badValue [] s) ∧
    (v.toNat < 256 → ∃ alert : Bool,
      exec (.setItem tag (0x04 :: bytes16 v)) s =
        .next (s.replied 7 tag .ok [] { s with
          settings := { s.settings with alertMask := v.setWidth 8 }
          incidents := { s.incidents with alert := alert } }) ∧
      (alert = true ↔
        (∃ r ∈ s.incidents.records, v.getLsbD r.incident.maskBit = true) ∨ s.incidents.overflow ≠ 0)) ∧
    (256 ≤ v.toNat → exec (.setItem tag (0x04 :: bytes16 v)) s = .next (s.replied 7 tag .badValue [] s)) ∧
    ∀ code : Byte, code ∉ ([0x01, 0x02, 0x03, 0x04] : List Byte) →
      exec (.setItem tag (code :: bytes16 v)) s = .next (s.replied 7 tag .badItem [] s)

/-- LOAD_WINDOW while the frozen flag is no: for a number 0 to 7 and fields in range it replaces the window whole; for
number 8 it replaces B, whatever the enabled, base and limit bytes hold; it is answered OK, and nothing else changes
(R33, R35, R168). -/
def Obligations.LoadWindowReplacesRecord : Prop :=
  ∀ (s : State) (tag : Byte), s.takesFrames → s.windows.frozen = false →
    (∀ (i : Fin 8) (w : Window), w.base ≤ w.limit →
      exec (.loadWindow tag (BitVec.ofNat 8 i.val :: windowArgs w)) s =
        .next (s.replied 18 tag .ok []
          { s with windows := { s.windows with table := s.windows.table.set i w } })) ∧
    ∀ (ignored : List Byte) (a : Attributes), ignored.length = 7 →
      exec (.loadWindow tag (8 :: (ignored ++ attributeArgs a))) s =
        .next (s.replied 18 tag .ok [] { s with windows := { s.windows with background := a } })

/-- LOAD_WINDOW with its 14 argument bytes is answered FROZEN while the frozen flag is yes, whatever they hold, and
BAD_VALUE while it is no when they spell neither a window in range with its limit not below its base nor attributes in
range for B; nothing changes (R34, R35, R168). -/
def Obligations.LoadWindowRefused : Prop :=
  ∀ (s : State) (tag : Byte) (args : List Byte), s.takesFrames → args.length = 14 →
    (s.windows.frozen = true → exec (.loadWindow tag args) s = .next (s.replied 18 tag .frozen [] s)) ∧
    (s.windows.frozen = false →
      (¬ ∃ (i : Fin 8) (w : Window), w.base ≤ w.limit ∧ args = BitVec.ofNat 8 i.val :: windowArgs w) →
      (¬ ∃ (ignored : List Byte) (a : Attributes), ignored.length = 7 ∧ args = 8 :: (ignored ++ attributeArgs a)) →
      exec (.loadWindow tag args) s = .next (s.replied 18 tag .badValue [] s))

/-- READ_WINDOW returns the stored record, the six fields of B for number 8, whatever the frozen flag, and is answered
BAD_VALUE above 8; nothing changes (R37). -/
def Obligations.ReadWindowReturnsRecord : Prop :=
  ∀ (s : State) (tag : Byte), s.takesFrames →
    (∀ i : Fin 8, exec (.readWindow tag [BitVec.ofNat 8 i.val]) s =
      .next (s.replied 5 tag .ok (windowArgs s.windows.table[i]) s)) ∧
    exec (.readWindow tag [8]) s = .next (s.replied 5 tag .ok (attributeArgs s.windows.background) s) ∧
    ∀ b : Byte, 8 < b.toNat → exec (.readWindow tag [b]) s = .next (s.replied 5 tag .badValue [] s)

/-- DISABLE_WINDOW sets enabled to no and keeps the window's other fields, and FREEZE sets the frozen flag; each is
answered OK while the flag is no, and FROZEN while it is yes; DISABLE_WINDOW of a number above 7 is answered BAD_VALUE;
nothing else changes (R34, R36, R40). -/
def Obligations.DisableAndFreeze : Prop :=
  ∀ (s : State) (tag : Byte), s.takesFrames →
    (s.windows.frozen = false →
      (∀ i : Fin 8, exec (.disableWindow tag [BitVec.ofNat 8 i.val]) s =
        .next (s.replied 5 tag .ok [] { s with
          windows := { s.windows with table := s.windows.table.set i { s.windows.table[i] with enabled := false } } })) ∧
      (∀ b : Byte, 7 < b.toNat → exec (.disableWindow tag [b]) s = .next (s.replied 5 tag .badValue [] s)) ∧
      exec (.freeze tag []) s = .next (s.replied 4 tag .ok [] { s with windows := { s.windows with frozen := true } })) ∧
    (s.windows.frozen = true →
      (∀ b : Byte, exec (.disableWindow tag [b]) s = .next (s.replied 5 tag .frozen [] s)) ∧
      exec (.freeze tag []) s = .next (s.replied 4 tag .frozen [] s))

/-- READ_HOLD returns the line, owner, state and remaining time of an occupied slot: for an ACTIVE entry the whole
microseconds left until its timer may expire, rounded down, 0 once it may; for a BROKEN one 0; an empty slot is answered
EMPTY and a slot above 7 BAD_VALUE; nothing changes (R112). -/
def Obligations.ReadHoldReturnsEntry : Prop :=
  ∀ (s : State) (tag : Byte), s.takesFrames →
    (∀ (i : HoldSlot) (h : Hold) (r : Timer), s.holds[i] = some h → h.state = .active r →
      ∃ left : Nat,
        (r.earliest.le s.now = true → left = 0) ∧
        (r.earliest.le s.now = false →
          (s.now.plus left).le r.earliest = true ∧ (s.now.plus (left + 1)).le r.earliest = false) ∧
        exec (.readHold tag [BitVec.ofNat 8 i.val]) s =
          .next (s.replied 5 tag .ok
            (bytes32 (h.line.setWidth 32) ++ BitVec.ofNat 8 h.owner.val :: 0 :: bytes16 (BitVec.ofNat 16 left)) s)) ∧
    (∀ (i : HoldSlot) (h : Hold), s.holds[i] = some h → h.state = .broken →
      exec (.readHold tag [BitVec.ofNat 8 i.val]) s =
        .next (s.replied 5 tag .ok
          (bytes32 (h.line.setWidth 32) ++ BitVec.ofNat 8 h.owner.val :: 1 :: bytes16 0) s)) ∧
    (∀ i : HoldSlot, s.holds[i] = none →
      exec (.readHold tag [BitVec.ofNat 8 i.val]) s = .next (s.replied 5 tag .empty [] s)) ∧
    ∀ b : Byte, 7 < b.toNat → exec (.readHold tag [b]) s = .next (s.replied 5 tag .badValue [] s)

/-- BREAK_HOLD makes an ACTIVE entry BROKEN and removes a BROKEN one, answered OK; an empty slot or one above 7 is
answered BAD_VALUE; CLEAR_HOLDS does the same to every entry at once, answered OK; no incident is raised and nothing
else changes (R109, R111). -/
def Obligations.BreakAndClearHolds : Prop :=
  ∀ (s : State) (tag : Byte), s.takesFrames →
    (∀ (i : HoldSlot) (h : Hold), s.holds[i] = some h →
      exec (.breakHold tag [BitVec.ofNat 8 i.val]) s =
        .next (s.replied 5 tag .ok [] { s with
          holds := s.holds.set i (if h.state = .broken then none else some { h with state := .broken }) })) ∧
    (∀ i : HoldSlot, s.holds[i] = none →
      exec (.breakHold tag [BitVec.ofNat 8 i.val]) s = .next (s.replied 5 tag .badValue [] s)) ∧
    (∀ b : Byte, 7 < b.toNat → exec (.breakHold tag [b]) s = .next (s.replied 5 tag .badValue [] s)) ∧
    ∃ after : Vector (Option Hold) 8,
      exec (.clearHolds tag []) s = .next (s.replied 4 tag .ok [] { s with holds := after }) ∧
      ∀ i : HoldSlot,
        match s.holds[i] with
        | none => after[i] = none
        | some h => after[i] = if h.state = .broken then none else some { h with state := .broken }

/-- PEEK_INCIDENT returns the oldest record, or EMPTY, and changes nothing (R147). -/
def Obligations.PeekReturnsOldestRecord : Prop :=
  ∀ (s : State) (tag : Byte), s.takesFrames →
    (∀ r rest, s.incidents.records = r :: rest →
      exec (.peekIncident tag []) s = .next (s.replied 4 tag .ok (recordData r) s)) ∧
    (s.incidents.records = [] → exec (.peekIncident tag []) s = .next (s.replied 4 tag .empty [] s))

/-- R148: DISCARD_INCIDENT removes the oldest record when its number is the one named; otherwise it is answered
BAD_VALUE, or EMPTY on an empty list, and removes nothing. ALERT is judged anew (R151). -/
def Obligations.DiscardRemovesNamedRecord : Prop :=
  ∀ (s : State) (tag : Byte) (seq : BitVec 16), s.takesFrames →
    (∀ r rest, s.incidents.records = r :: rest → r.seq = seq → ∃ alert : Bool,
      exec (.discardIncident tag (bytes16 seq)) s =
        .next (s.replied 6 tag .ok [] { s with incidents := { s.incidents with records := rest, alert := alert } }) ∧
      (alert = true ↔
        (∃ x ∈ rest, s.settings.alertMask.getLsbD x.incident.maskBit = true) ∨ s.incidents.overflow ≠ 0)) ∧
    (∀ r rest, s.incidents.records = r :: rest → r.seq ≠ seq →
      exec (.discardIncident tag (bytes16 seq)) s = .next (s.replied 6 tag .badValue [] s)) ∧
    (s.incidents.records = [] →
      exec (.discardIncident tag (bytes16 seq)) s = .next (s.replied 6 tag .empty [] s))

/-- R149: CLEAR_OVERFLOW returns the overflow count, sets it to 0 and is answered OK, changing no record and not the
counter, with ALERT judged anew (R151); GET of OVERFLOW and READ_STATUS return the count and do not clear it; a SET of
OVERFLOW is answered BAD_ITEM and changes nothing. -/
def Obligations.ClearOverflowReturnsCount : Prop :=
  ∀ (s : State) (tag : Byte), s.takesFrames →
    (∃ alert : Bool,
      exec (.clearOverflow tag []) s =
        .next (s.replied 4 tag .ok [s.incidents.overflow]
          { s with incidents := { s.incidents with overflow := 0, alert := alert } }) ∧
      (alert = true ↔ ∃ r ∈ s.incidents.records, s.settings.alertMask.getLsbD r.incident.maskBit = true)) ∧
    exec (.getItem tag [0x15]) s = .next (s.replied 5 tag .ok [s.incidents.overflow, 0] s) ∧
    (∃ before : List Byte,
      exec (.readStatus tag []) s = .next (s.replied 4 tag .ok (before ++ [s.incidents.overflow]) s)) ∧
    ∀ v : BitVec 16, exec (.setItem tag (0x15 :: bytes16 v)) s = .next (s.replied 7 tag .badItem [] s)

/-- R166: READ_STATUS returns the report of Figure 46, of 7 + 4 × q bytes for a queue count of q, and changes nothing. -/
def Obligations.ReadStatusReports : Prop :=
  ∀ (s : State) (tag : Byte), s.takesFrames →
    exec (.readStatus tag []) s = .next (s.replied 4 tag .ok s.statusReport s) ∧
    s.statusReport.length = 7 + 4 * s.queue.length

/-- R167: IDENTIFY returns the part code 24h and the link revision 1, in every state in which frames are judged, and
changes nothing. -/
def Obligations.IdentifyReturnsPartCode : Prop :=
  ∀ (s : State) (tag : Byte), s.takesFrames →
    exec (.identify tag []) s = .next (s.replied 4 tag .ok [0x24, 0x01] s)

/-! ### What every step keeps -/

/-- While the frozen flag is set no step but the assertion of RESET changes the windows, the background record or the
flag (R40). -/
def Obligations.FrozenTableKept : Prop :=
  ∀ s t : State, s.windows.frozen = true → s.pending.head? ≠ some .resetAssert → step s = .next t →
    t.windows = s.windows

/-- Every step keeps the Hold Table sound: at most 2 entries a master, one a master and line, one ACTIVE a line. The hold
count is the number of occupied slots, a master's count that of the slots whose entry it owns, ACTIVE and BROKEN together
(R89, R113). -/
def Obligations.StepKeepsHoldsSound : Prop :=
  (∀ s : State,
    s.holdCount = (Finset.univ.filter (fun i : HoldSlot => s.holds[i] ≠ none)).card ∧
    ∀ m : Master,
      s.heldBy m = (Finset.univ.filter (fun i : HoldSlot => s.holds[i].map Hold.owner = some m)).card) ∧
  ∀ s t : State, s.holdsSound → step s = .next t → t.holdsSound

/-- Every step keeps the Posting Queue sound: at most 16 entries in their order of creation, only the oldest ISSUED, at
most one OPEN a master and a line, and the youngest there. -/
def Obligations.StepKeepsQueueSound : Prop :=
  ∀ s t : State, s.queueSound → step s = .next t → t.queueSound

/-- Every step keeps the Memory Port sound, and the outstanding WRITE one with the ISSUED entry. -/
def Obligations.StepKeepsMemorySound : Prop :=
  ∀ s t : State, s.queueSound → s.memSound → s.issueSound → step s = .next t → t.memSound ∧ t.issueSound

/-- Every step keeps the port records sound: what they name exists, and every port is IDLE while HALTED. -/
def Obligations.StepKeepsPortsSound : Prop :=
  ∀ s t : State, s.portsSound → step s = .next t → t.portsSound

/-- Every step keeps the settings and windows in their ranges, the Incident List within 8 records and ALERT at its
condition, the frame in progress within what the Link Unit keeps of it, and the response of a form the manual allows. -/
def Obligations.StepKeepsValuesAndAlert : Prop :=
  ∀ s t : State, step s = .next t →
    (s.valuesSound → t.valuesSound) ∧ (s.incidentsSound → t.incidentsSound) ∧ (s.linkSound → t.linkSound) ∧
    (s.queueSound → s.responseSound → t.responseSound)

/-- While RESET stays asserted every block stays at its reset values, and no frame is in progress. -/
def Obligations.StepKeepsReset : Prop :=
  ∀ s t : State, s.heldInReset → step s = .next t → t.heldInReset
end

