-- ==== Sys2Proof/Laws/State.lean ====
section
/-! SUPPORT. For each update of the state that the meanings share, what every field reads after it, so that no proof
unfolds a record update. -/

namespace Sys2Proof.Machine

@[simp] theorem State.setPort_ports (s : State) (m : Master) (p : Port) :
    (s.setPort m p).ports = s.ports.set m p := rfl

@[simp] theorem State.setPort_prst (s : State) (m : Master) (p : Port) : (s.setPort m p).prst = s.prst := rfl

@[simp] theorem State.setPort_resetLine (s : State) (m : Master) (p : Port) :
    (s.setPort m p).resetLine = s.resetLine := rfl

@[simp] theorem State.setPort_windows (s : State) (m : Master) (p : Port) : (s.setPort m p).windows = s.windows := rfl

@[simp] theorem State.setPort_queue (s : State) (m : Master) (p : Port) : (s.setPort m p).queue = s.queue := rfl

@[simp] theorem State.setPort_nextId (s : State) (m : Master) (p : Port) : (s.setPort m p).nextId = s.nextId := rfl

@[simp] theorem State.setPort_holds (s : State) (m : Master) (p : Port) : (s.setPort m p).holds = s.holds := rfl

@[simp] theorem State.setPort_mem (s : State) (m : Master) (p : Port) : (s.setPort m p).mem = s.mem := rfl

@[simp] theorem State.setPort_incidents (s : State) (m : Master) (p : Port) :
    (s.setPort m p).incidents = s.incidents := rfl

@[simp] theorem State.setPort_settings (s : State) (m : Master) (p : Port) :
    (s.setPort m p).settings = s.settings := rfl

@[simp] theorem State.setPort_link (s : State) (m : Master) (p : Port) : (s.setPort m p).link = s.link := rfl

@[simp] theorem State.setPort_now (s : State) (m : Master) (p : Port) : (s.setPort m p).now = s.now := rfl

@[simp] theorem State.setPort_drawn (s : State) (m : Master) (p : Port) : (s.setPort m p).drawn = s.drawn := rfl

@[simp] theorem State.setPort_answers (s : State) (m : Master) (p : Port) : (s.setPort m p).answers = s.answers := rfl

@[simp] theorem State.setPort_operations (s : State) (m : Master) (p : Port) :
    (s.setPort m p).operations = s.operations := rfl

@[simp] theorem State.setPort_pending (s : State) (m : Master) (p : Port) : (s.setPort m p).pending = s.pending := rfl

@[simp] theorem State.answer_ports (s : State) (m : Master) (a : Answer) : (s.answer m a).ports = s.ports := rfl

@[simp] theorem State.answer_prst (s : State) (m : Master) (a : Answer) : (s.answer m a).prst = s.prst := rfl

@[simp] theorem State.answer_resetLine (s : State) (m : Master) (a : Answer) :
    (s.answer m a).resetLine = s.resetLine := rfl

@[simp] theorem State.answer_windows (s : State) (m : Master) (a : Answer) : (s.answer m a).windows = s.windows := rfl

@[simp] theorem State.answer_queue (s : State) (m : Master) (a : Answer) : (s.answer m a).queue = s.queue := rfl

@[simp] theorem State.answer_nextId (s : State) (m : Master) (a : Answer) : (s.answer m a).nextId = s.nextId := rfl

@[simp] theorem State.answer_holds (s : State) (m : Master) (a : Answer) : (s.answer m a).holds = s.holds := rfl

@[simp] theorem State.answer_mem (s : State) (m : Master) (a : Answer) : (s.answer m a).mem = s.mem := rfl

@[simp] theorem State.answer_incidents (s : State) (m : Master) (a : Answer) :
    (s.answer m a).incidents = s.incidents := rfl

@[simp] theorem State.answer_settings (s : State) (m : Master) (a : Answer) :
    (s.answer m a).settings = s.settings := rfl

@[simp] theorem State.answer_link (s : State) (m : Master) (a : Answer) : (s.answer m a).link = s.link := rfl

@[simp] theorem State.answer_now (s : State) (m : Master) (a : Answer) : (s.answer m a).now = s.now := rfl

@[simp] theorem State.answer_drawn (s : State) (m : Master) (a : Answer) : (s.answer m a).drawn = s.drawn := rfl

@[simp] theorem State.answer_answers (s : State) (m : Master) (a : Answer) :
    (s.answer m a).answers = s.answers.set m (s.answers[m] ++ [a]) := rfl

@[simp] theorem State.answer_operations (s : State) (m : Master) (a : Answer) :
    (s.answer m a).operations = s.operations := rfl

@[simp] theorem State.answer_pending (s : State) (m : Master) (a : Answer) : (s.answer m a).pending = s.pending := rfl

@[simp] theorem State.finish_ports (s : State) (m : Master) (a : Answer) :
    (s.finish m a).ports = s.ports.set m .idle := rfl

@[simp] theorem State.finish_prst (s : State) (m : Master) (a : Answer) : (s.finish m a).prst = s.prst := rfl

@[simp] theorem State.finish_resetLine (s : State) (m : Master) (a : Answer) :
    (s.finish m a).resetLine = s.resetLine := rfl

@[simp] theorem State.finish_windows (s : State) (m : Master) (a : Answer) : (s.finish m a).windows = s.windows := rfl

@[simp] theorem State.finish_queue (s : State) (m : Master) (a : Answer) : (s.finish m a).queue = s.queue := rfl

@[simp] theorem State.finish_nextId (s : State) (m : Master) (a : Answer) : (s.finish m a).nextId = s.nextId := rfl

@[simp] theorem State.finish_holds (s : State) (m : Master) (a : Answer) : (s.finish m a).holds = s.holds := rfl

@[simp] theorem State.finish_mem (s : State) (m : Master) (a : Answer) : (s.finish m a).mem = s.mem := rfl

@[simp] theorem State.finish_incidents (s : State) (m : Master) (a : Answer) :
    (s.finish m a).incidents = s.incidents := rfl

@[simp] theorem State.finish_settings (s : State) (m : Master) (a : Answer) :
    (s.finish m a).settings = s.settings := rfl

@[simp] theorem State.finish_link (s : State) (m : Master) (a : Answer) : (s.finish m a).link = s.link := rfl

@[simp] theorem State.finish_now (s : State) (m : Master) (a : Answer) : (s.finish m a).now = s.now := rfl

@[simp] theorem State.finish_drawn (s : State) (m : Master) (a : Answer) : (s.finish m a).drawn = s.drawn := rfl

@[simp] theorem State.finish_answers (s : State) (m : Master) (a : Answer) :
    (s.finish m a).answers = s.answers.set m (s.answers[m] ++ [a]) := rfl

@[simp] theorem State.finish_operations (s : State) (m : Master) (a : Answer) :
    (s.finish m a).operations = s.operations := rfl

@[simp] theorem State.finish_pending (s : State) (m : Master) (a : Answer) : (s.finish m a).pending = s.pending := rfl

@[simp] theorem State.movePorts_ports (s : State) (f : Master → Port → Port × List Answer) :
    (s.movePorts f).ports =
      Vector.ofFn (fun m => (f m s.ports[m]).1) := rfl

@[simp] theorem State.movePorts_prst (s : State) (f : Master → Port → Port × List Answer) :
    (s.movePorts f).prst = s.prst := rfl

@[simp] theorem State.movePorts_resetLine (s : State) (f : Master → Port → Port × List Answer) :
    (s.movePorts f).resetLine = s.resetLine := rfl

@[simp] theorem State.movePorts_windows (s : State) (f : Master → Port → Port × List Answer) :
    (s.movePorts f).windows = s.windows := rfl

@[simp] theorem State.movePorts_queue (s : State) (f : Master → Port → Port × List Answer) :
    (s.movePorts f).queue = s.queue := rfl

@[simp] theorem State.movePorts_nextId (s : State) (f : Master → Port → Port × List Answer) :
    (s.movePorts f).nextId = s.nextId := rfl

@[simp] theorem State.movePorts_holds (s : State) (f : Master → Port → Port × List Answer) :
    (s.movePorts f).holds = s.holds := rfl

@[simp] theorem State.movePorts_mem (s : State) (f : Master → Port → Port × List Answer) :
    (s.movePorts f).mem = s.mem := rfl

@[simp] theorem State.movePorts_incidents (s : State) (f : Master → Port → Port × List Answer) :
    (s.movePorts f).incidents = s.incidents := rfl

@[simp] theorem State.movePorts_settings (s : State) (f : Master → Port → Port × List Answer) :
    (s.movePorts f).settings = s.settings := rfl

@[simp] theorem State.movePorts_link (s : State) (f : Master → Port → Port × List Answer) :
    (s.movePorts f).link = s.link := rfl

@[simp] theorem State.movePorts_now (s : State) (f : Master → Port → Port × List Answer) :
    (s.movePorts f).now = s.now := rfl

@[simp] theorem State.movePorts_drawn (s : State) (f : Master → Port → Port × List Answer) :
    (s.movePorts f).drawn = s.drawn := rfl

@[simp] theorem State.movePorts_answers (s : State) (f : Master → Port → Port × List Answer) :
    (s.movePorts f).answers =
      Vector.ofFn (fun m => s.answers[m] ++ (f m s.ports[m]).2) := rfl

@[simp] theorem State.movePorts_operations (s : State) (f : Master → Port → Port × List Answer) :
    (s.movePorts f).operations = s.operations := rfl

@[simp] theorem State.movePorts_pending (s : State) (f : Master → Port → Port × List Answer) :
    (s.movePorts f).pending = s.pending := rfl

@[simp] theorem State.setHold_ports (s : State) (i : HoldSlot) (h : Option Hold) :
    (s.setHold i h).ports = s.ports := rfl

@[simp] theorem State.setHold_prst (s : State) (i : HoldSlot) (h : Option Hold) : (s.setHold i h).prst = s.prst := rfl

@[simp] theorem State.setHold_resetLine (s : State) (i : HoldSlot) (h : Option Hold) :
    (s.setHold i h).resetLine = s.resetLine := rfl

@[simp] theorem State.setHold_windows (s : State) (i : HoldSlot) (h : Option Hold) :
    (s.setHold i h).windows = s.windows := rfl

@[simp] theorem State.setHold_queue (s : State) (i : HoldSlot) (h : Option Hold) :
    (s.setHold i h).queue = s.queue := rfl

@[simp] theorem State.setHold_nextId (s : State) (i : HoldSlot) (h : Option Hold) :
    (s.setHold i h).nextId = s.nextId := rfl

@[simp] theorem State.setHold_holds (s : State) (i : HoldSlot) (h : Option Hold) :
    (s.setHold i h).holds = s.holds.set i h := rfl

@[simp] theorem State.setHold_mem (s : State) (i : HoldSlot) (h : Option Hold) : (s.setHold i h).mem = s.mem := rfl

@[simp] theorem State.setHold_incidents (s : State) (i : HoldSlot) (h : Option Hold) :
    (s.setHold i h).incidents = s.incidents := rfl

@[simp] theorem State.setHold_settings (s : State) (i : HoldSlot) (h : Option Hold) :
    (s.setHold i h).settings = s.settings := rfl

@[simp] theorem State.setHold_link (s : State) (i : HoldSlot) (h : Option Hold) : (s.setHold i h).link = s.link := rfl

@[simp] theorem State.setHold_now (s : State) (i : HoldSlot) (h : Option Hold) : (s.setHold i h).now = s.now := rfl

@[simp] theorem State.setHold_drawn (s : State) (i : HoldSlot) (h : Option Hold) :
    (s.setHold i h).drawn = s.drawn := rfl

@[simp] theorem State.setHold_answers (s : State) (i : HoldSlot) (h : Option Hold) :
    (s.setHold i h).answers = s.answers := rfl

@[simp] theorem State.setHold_operations (s : State) (i : HoldSlot) (h : Option Hold) :
    (s.setHold i h).operations = s.operations := rfl

@[simp] theorem State.setHold_pending (s : State) (i : HoldSlot) (h : Option Hold) :
    (s.setHold i h).pending = s.pending := rfl

@[simp] theorem State.respond_ports (s : State) (r : Response) : (s.respond r).ports = s.ports := rfl

@[simp] theorem State.respond_prst (s : State) (r : Response) : (s.respond r).prst = s.prst := rfl

@[simp] theorem State.respond_resetLine (s : State) (r : Response) : (s.respond r).resetLine = s.resetLine := rfl

@[simp] theorem State.respond_windows (s : State) (r : Response) : (s.respond r).windows = s.windows := rfl

@[simp] theorem State.respond_queue (s : State) (r : Response) : (s.respond r).queue = s.queue := rfl

@[simp] theorem State.respond_nextId (s : State) (r : Response) : (s.respond r).nextId = s.nextId := rfl

@[simp] theorem State.respond_holds (s : State) (r : Response) : (s.respond r).holds = s.holds := rfl

@[simp] theorem State.respond_mem (s : State) (r : Response) : (s.respond r).mem = s.mem := rfl

@[simp] theorem State.respond_incidents (s : State) (r : Response) : (s.respond r).incidents = s.incidents := rfl

@[simp] theorem State.respond_settings (s : State) (r : Response) : (s.respond r).settings = s.settings := rfl

@[simp] theorem State.respond_link (s : State) (r : Response) :
    (s.respond r).link = { s.link with response := r } := rfl

@[simp] theorem State.respond_now (s : State) (r : Response) : (s.respond r).now = s.now := rfl

@[simp] theorem State.respond_drawn (s : State) (r : Response) : (s.respond r).drawn = s.drawn := rfl

@[simp] theorem State.respond_answers (s : State) (r : Response) : (s.respond r).answers = s.answers := rfl

@[simp] theorem State.respond_operations (s : State) (r : Response) : (s.respond r).operations = s.operations := rfl

@[simp] theorem State.respond_pending (s : State) (r : Response) : (s.respond r).pending = s.pending := rfl

@[simp] theorem State.judgeAlert_ports (s : State) : (s.judgeAlert).ports = s.ports := rfl

@[simp] theorem State.judgeAlert_prst (s : State) : (s.judgeAlert).prst = s.prst := rfl

@[simp] theorem State.judgeAlert_resetLine (s : State) : (s.judgeAlert).resetLine = s.resetLine := rfl

@[simp] theorem State.judgeAlert_windows (s : State) : (s.judgeAlert).windows = s.windows := rfl

@[simp] theorem State.judgeAlert_queue (s : State) : (s.judgeAlert).queue = s.queue := rfl

@[simp] theorem State.judgeAlert_nextId (s : State) : (s.judgeAlert).nextId = s.nextId := rfl

@[simp] theorem State.judgeAlert_holds (s : State) : (s.judgeAlert).holds = s.holds := rfl

@[simp] theorem State.judgeAlert_mem (s : State) : (s.judgeAlert).mem = s.mem := rfl

@[simp] theorem State.judgeAlert_incidents (s : State) :
    (s.judgeAlert).incidents =
      { s.incidents with
        alert := alertCondition s.incidents.records s.incidents.overflow s.settings.alertMask } := rfl

@[simp] theorem State.judgeAlert_settings (s : State) : (s.judgeAlert).settings = s.settings := rfl

@[simp] theorem State.judgeAlert_link (s : State) : (s.judgeAlert).link = s.link := rfl

@[simp] theorem State.judgeAlert_now (s : State) : (s.judgeAlert).now = s.now := rfl

@[simp] theorem State.judgeAlert_drawn (s : State) : (s.judgeAlert).drawn = s.drawn := rfl

@[simp] theorem State.judgeAlert_answers (s : State) : (s.judgeAlert).answers = s.answers := rfl

@[simp] theorem State.judgeAlert_operations (s : State) : (s.judgeAlert).operations = s.operations := rfl

@[simp] theorem State.judgeAlert_pending (s : State) : (s.judgeAlert).pending = s.pending := rfl

@[simp] theorem State.raise_ports (s : State) (x : Incident) : (s.raise x).ports = s.ports := rfl

@[simp] theorem State.raise_prst (s : State) (x : Incident) : (s.raise x).prst = s.prst := rfl

@[simp] theorem State.raise_resetLine (s : State) (x : Incident) : (s.raise x).resetLine = s.resetLine := rfl

@[simp] theorem State.raise_windows (s : State) (x : Incident) : (s.raise x).windows = s.windows := rfl

@[simp] theorem State.raise_queue (s : State) (x : Incident) : (s.raise x).queue = s.queue := rfl

@[simp] theorem State.raise_nextId (s : State) (x : Incident) : (s.raise x).nextId = s.nextId := rfl

@[simp] theorem State.raise_holds (s : State) (x : Incident) : (s.raise x).holds = s.holds := rfl

@[simp] theorem State.raise_mem (s : State) (x : Incident) : (s.raise x).mem = s.mem := rfl

@[simp] theorem State.raise_incidents (s : State) (x : Incident) :
    (s.raise x).incidents =
      { s.incidents.take x with
        alert :=
          alertCondition (s.incidents.take x).records (s.incidents.take x).overflow s.settings.alertMask } := rfl

@[simp] theorem State.raise_settings (s : State) (x : Incident) : (s.raise x).settings = s.settings := rfl

@[simp] theorem State.raise_link (s : State) (x : Incident) : (s.raise x).link = s.link := rfl

@[simp] theorem State.raise_now (s : State) (x : Incident) : (s.raise x).now = s.now := rfl

@[simp] theorem State.raise_drawn (s : State) (x : Incident) : (s.raise x).drawn = s.drawn := rfl

@[simp] theorem State.raise_answers (s : State) (x : Incident) : (s.raise x).answers = s.answers := rfl

@[simp] theorem State.raise_operations (s : State) (x : Incident) : (s.raise x).operations = s.operations := rfl

@[simp] theorem State.raise_pending (s : State) (x : Incident) : (s.raise x).pending = s.pending := rfl

@[simp] theorem State.issue_ports (s : State) (c : Claimant) (kind : OpKind) (l : Line) (m : Master) (sent : Operation) :
    (s.issue c kind l m sent).ports = s.ports := rfl

@[simp] theorem State.issue_prst (s : State) (c : Claimant) (kind : OpKind) (l : Line) (m : Master) (sent : Operation) :
    (s.issue c kind l m sent).prst = s.prst := rfl

@[simp] theorem State.issue_resetLine (s : State) (c : Claimant) (kind : OpKind) (l : Line) (m : Master) (sent : Operation) :
    (s.issue c kind l m sent).resetLine = s.resetLine := rfl

@[simp] theorem State.issue_windows (s : State) (c : Claimant) (kind : OpKind) (l : Line) (m : Master) (sent : Operation) :
    (s.issue c kind l m sent).windows = s.windows := rfl

@[simp] theorem State.issue_queue (s : State) (c : Claimant) (kind : OpKind) (l : Line) (m : Master) (sent : Operation) :
    (s.issue c kind l m sent).queue = s.queue := rfl

@[simp] theorem State.issue_nextId (s : State) (c : Claimant) (kind : OpKind) (l : Line) (m : Master) (sent : Operation) :
    (s.issue c kind l m sent).nextId = s.nextId := rfl

@[simp] theorem State.issue_holds (s : State) (c : Claimant) (kind : OpKind) (l : Line) (m : Master) (sent : Operation) :
    (s.issue c kind l m sent).holds = s.holds := rfl

@[simp] theorem State.issue_mem (s : State) (c : Claimant) (kind : OpKind) (l : Line) (m : Master) (sent : Operation) :
    (s.issue c kind l m sent).mem = { s.mem with
        ops :=
          s.mem.ops ++
            [{ kind := kind, slot := s.freeOpSlot, epoch := s.mem.epoch, line := l, master := m,
               timer := Timer.start s.settings.memTimeout.toNat s.now }]
        rotation := some c } := rfl

@[simp] theorem State.issue_incidents (s : State) (c : Claimant) (kind : OpKind) (l : Line) (m : Master) (sent : Operation) :
    (s.issue c kind l m sent).incidents = s.incidents := rfl

@[simp] theorem State.issue_settings (s : State) (c : Claimant) (kind : OpKind) (l : Line) (m : Master) (sent : Operation) :
    (s.issue c kind l m sent).settings = s.settings := rfl

@[simp] theorem State.issue_link (s : State) (c : Claimant) (kind : OpKind) (l : Line) (m : Master) (sent : Operation) :
    (s.issue c kind l m sent).link = s.link := rfl

@[simp] theorem State.issue_now (s : State) (c : Claimant) (kind : OpKind) (l : Line) (m : Master) (sent : Operation) :
    (s.issue c kind l m sent).now = s.now := rfl

@[simp] theorem State.issue_drawn (s : State) (c : Claimant) (kind : OpKind) (l : Line) (m : Master) (sent : Operation) :
    (s.issue c kind l m sent).drawn = s.drawn := rfl

@[simp] theorem State.issue_answers (s : State) (c : Claimant) (kind : OpKind) (l : Line) (m : Master) (sent : Operation) :
    (s.issue c kind l m sent).answers = s.answers := rfl

@[simp] theorem State.issue_operations (s : State) (c : Claimant) (kind : OpKind) (l : Line) (m : Master) (sent : Operation) :
    (s.issue c kind l m sent).operations = s.operations ++ [sent] := rfl

@[simp] theorem State.issue_pending (s : State) (c : Claimant) (kind : OpKind) (l : Line) (m : Master) (sent : Operation) :
    (s.issue c kind l m sent).pending = s.pending := rfl

@[simp] theorem State.raiseAll_ports (s : State) (xs : List Incident) : (s.raiseAll xs).ports = s.ports := by
  induction xs generalizing s with
  | nil => rfl
  | cons x xs ih => exact (ih (s.raise x)).trans rfl

@[simp] theorem State.raiseAll_prst (s : State) (xs : List Incident) : (s.raiseAll xs).prst = s.prst := by
  induction xs generalizing s with
  | nil => rfl
  | cons x xs ih => exact (ih (s.raise x)).trans rfl

@[simp] theorem State.raiseAll_resetLine (s : State) (xs : List Incident) : (s.raiseAll xs).resetLine = s.resetLine := by
  induction xs generalizing s with
  | nil => rfl
  | cons x xs ih => exact (ih (s.raise x)).trans rfl

@[simp] theorem State.raiseAll_windows (s : State) (xs : List Incident) : (s.raiseAll xs).windows = s.windows := by
  induction xs generalizing s with
  | nil => rfl
  | cons x xs ih => exact (ih (s.raise x)).trans rfl

@[simp] theorem State.raiseAll_queue (s : State) (xs : List Incident) : (s.raiseAll xs).queue = s.queue := by
  induction xs generalizing s with
  | nil => rfl
  | cons x xs ih => exact (ih (s.raise x)).trans rfl

@[simp] theorem State.raiseAll_nextId (s : State) (xs : List Incident) : (s.raiseAll xs).nextId = s.nextId := by
  induction xs generalizing s with
  | nil => rfl
  | cons x xs ih => exact (ih (s.raise x)).trans rfl

@[simp] theorem State.raiseAll_holds (s : State) (xs : List Incident) : (s.raiseAll xs).holds = s.holds := by
  induction xs generalizing s with
  | nil => rfl
  | cons x xs ih => exact (ih (s.raise x)).trans rfl

@[simp] theorem State.raiseAll_mem (s : State) (xs : List Incident) : (s.raiseAll xs).mem = s.mem := by
  induction xs generalizing s with
  | nil => rfl
  | cons x xs ih => exact (ih (s.raise x)).trans rfl

@[simp] theorem State.raiseAll_settings (s : State) (xs : List Incident) : (s.raiseAll xs).settings = s.settings := by
  induction xs generalizing s with
  | nil => rfl
  | cons x xs ih => exact (ih (s.raise x)).trans rfl

@[simp] theorem State.raiseAll_link (s : State) (xs : List Incident) : (s.raiseAll xs).link = s.link := by
  induction xs generalizing s with
  | nil => rfl
  | cons x xs ih => exact (ih (s.raise x)).trans rfl

@[simp] theorem State.raiseAll_now (s : State) (xs : List Incident) : (s.raiseAll xs).now = s.now := by
  induction xs generalizing s with
  | nil => rfl
  | cons x xs ih => exact (ih (s.raise x)).trans rfl

@[simp] theorem State.raiseAll_drawn (s : State) (xs : List Incident) : (s.raiseAll xs).drawn = s.drawn := by
  induction xs generalizing s with
  | nil => rfl
  | cons x xs ih => exact (ih (s.raise x)).trans rfl

@[simp] theorem State.raiseAll_answers (s : State) (xs : List Incident) : (s.raiseAll xs).answers = s.answers := by
  induction xs generalizing s with
  | nil => rfl
  | cons x xs ih => exact (ih (s.raise x)).trans rfl

@[simp] theorem State.raiseAll_operations (s : State) (xs : List Incident) : (s.raiseAll xs).operations = s.operations := by
  induction xs generalizing s with
  | nil => rfl
  | cons x xs ih => exact (ih (s.raise x)).trans rfl

@[simp] theorem State.raiseAll_pending (s : State) (xs : List Incident) : (s.raiseAll xs).pending = s.pending := by
  induction xs generalizing s with
  | nil => rfl
  | cons x xs ih => exact (ih (s.raise x)).trans rfl

end Sys2Proof.Machine
end

