-- ==== Sys2Proof/Laws/Incidents.lean ====
section
/-! SUPPORT. Raising incidents: `State.raise` and `State.raiseAll` do what `Raised` says (R142 to R145, R151). -/

namespace Sys2Proof.Machine

/-- The ALERT condition as the manual words it (R151). -/
theorem alertCondition_iff (rs : List Record) (n mask : BitVec 8) :
    alertCondition rs n mask = true ↔ (∃ r ∈ rs, mask.getLsbD r.incident.maskBit = true) ∨ n ≠ 0 := by
  simp [alertCondition]

/-- One more overflow, as a number (R145). -/
theorem bumpOverflow_toNat (n : BitVec 8) : (bumpOverflow n).toNat = min 255 (n.toNat + 1) := by
  unfold bumpOverflow
  split
  · subst_vars; rfl
  · rename_i hn
    have h : n.toNat ≠ 255 := fun h => hn (BitVec.eq_of_toNat_eq h)
    rw [BitVec.toNat_add]
    have := n.isLt
    simp
    omega

/-- One incident (R142 to R145). -/
theorem take_room (u : IncidentUnit) (x : Incident) (h : u.records.length < 8) :
    u.take x = { u with records := u.records ++ [{ seq := u.counter, incident := x }], counter := u.counter + 1 } :=
  if_pos h

/-- One incident on a full list (R145). -/
theorem take_full (u : IncidentUnit) (x : Incident) (h : 8 ≤ u.records.length) :
    u.take x = { u with overflow := bumpOverflow u.overflow, counter := u.counter + 1 } :=
  if_neg (Nat.not_lt.mpr h)

theorem take_counter (u : IncidentUnit) (x : Incident) : (u.take x).counter = u.counter + 1 := by
  unfold IncidentUnit.take
  split <;> rfl

theorem take_records (u : IncidentUnit) (x : Incident) :
    (u.take x).records =
      u.records ++ if u.records.length < 8 then [{ seq := u.counter, incident := x }] else [] := by
  by_cases h : u.records.length < 8
  · simp [take_room u x h, h]
  · simp [take_full u x (Nat.not_lt.mp h), h]

theorem take_overflow (u : IncidentUnit) (x : Incident) :
    (u.take x).overflow.toNat = min 255 (u.overflow.toNat + if u.records.length < 8 then 0 else 1) := by
  have := u.overflow.isLt
  by_cases h : u.records.length < 8
  · simp [take_room u x h, h]
    omega
  · simp [take_full u x (Nat.not_lt.mp h), h, bumpOverflow_toNat]

theorem raiseAll_cons (s : State) (x : Incident) (xs : List Incident) :
    s.raiseAll (x :: xs) = (s.raise x).raiseAll xs := rfl

theorem raiseAll_other (s : State) (xs : List Incident) :
    s.raiseAll xs = { s with incidents := (s.raiseAll xs).incidents } := by
  induction xs generalizing s with
  | nil => rfl
  | cons x xs ih =>
    rw [raiseAll_cons, ih (s.raise x)]
    rfl

theorem raiseAll_counter (s : State) (xs : List Incident) :
    (s.raiseAll xs).incidents.counter = s.incidents.counter + BitVec.ofNat 16 xs.length := by
  induction xs generalizing s with
  | nil => simp [State.raiseAll]
  | cons x xs ih =>
    rw [raiseAll_cons, ih]
    simp only [State.raise_incidents, take_counter, List.length_cons]
    apply BitVec.eq_of_toNat_eq
    simp [BitVec.toNat_add]
    omega

theorem raiseAll_records (s : State) (xs : List Incident) :
    (s.raiseAll xs).incidents.records =
      s.incidents.records ++
        (xs.take (8 - s.incidents.records.length)).mapIdx
          (fun k x => { seq := s.incidents.counter + BitVec.ofNat 16 k, incident := x }) := by
  induction xs generalizing s with
  | nil => simp [State.raiseAll]
  | cons x xs ih =>
    rw [raiseAll_cons, ih]
    simp only [State.raise_incidents, take_counter, take_records]
    by_cases h : s.incidents.records.length < 8
    · have h' : 8 - s.incidents.records.length = (8 - (s.incidents.records.length + 1)) + 1 := by omega
      have hf : ∀ k : Nat, s.incidents.counter + 1#16 + BitVec.ofNat 16 k =
          s.incidents.counter + BitVec.ofNat 16 (k + 1) := fun k => by
        apply BitVec.eq_of_toNat_eq
        simp [BitVec.toNat_add]
        omega
      rw [if_pos h, h']
      simp [hf]
    · have h' : 8 - s.incidents.records.length = 0 := by omega
      simp [h, h']

theorem raiseAll_overflow (s : State) (xs : List Incident) :
    (s.raiseAll xs).incidents.overflow.toNat =
      min 255 (s.incidents.overflow.toNat + (xs.length - (8 - s.incidents.records.length))) := by
  induction xs generalizing s with
  | nil =>
    have := s.incidents.overflow.isLt
    simp [State.raiseAll]
    omega
  | cons x xs ih =>
    rw [raiseAll_cons, ih]
    simp only [State.raise_incidents, take_overflow, take_records, List.length_append, List.length_cons]
    by_cases h : s.incidents.records.length < 8
    · simp [h]
      omega
    · simp [h]
      omega

theorem raiseAll_alert (s : State) (x : Incident) (xs : List Incident) :
    (s.raiseAll (x :: xs)).incidents.alert =
      alertCondition (s.raiseAll (x :: xs)).incidents.records (s.raiseAll (x :: xs)).incidents.overflow
        s.settings.alertMask := by
  induction xs generalizing s x with
  | nil => rfl
  | cons y ys ih => exact ih (s.raise x) y

/-- Raising incidents in one event does what R142 to R145 and R151 say, and nothing else. -/
theorem Raised.all (s : State) (x : Incident) (xs : List Incident) :
    Raised s (s.raiseAll (x :: xs)) (x :: xs) :=
  ⟨raiseAll_other s _, raiseAll_counter s _, raiseAll_records s _, raiseAll_overflow s _,
    (raiseAll_alert s x xs) ▸ alertCondition_iff _ _ _⟩

/-- Raising one incident. -/
theorem Raised.one (s : State) (x : Incident) : Raised s (s.raise x) [x] := Raised.all s x []

end Sys2Proof.Machine
end

