-- ==== Sys2Proof/Laws/Requests.lean ====
section
/-! SUPPORT. Requests: the arrival, the form of each kind, and stages 2 and 3, each function against the manual's words
in Safety.lean. -/

namespace Sys2Proof.Machine

theorem mem_masters (m : Master) : m ∈ masters := by revert m; decide

theorem mem_holdSlots (i : HoldSlot) : i ∈ holdSlots := by revert i; decide

theorem mem_windowNumbers (i : Fin 8) : i ∈ windowNumbers := by revert i; decide

theorem mem_opSlots (k : OpSlot) : k ∈ opSlots := by revert k; decide

/-! ### Arrival -/

theorem request_discarded (s : State) (m : Master) (g : State → State) (h : s.resetLine = true ∨ s.prst[m] = true) :
    s.request m g = s := by
  unfold State.request
  rw [if_pos (by simpa using h)]

theorem request_overrun (s : State) (m : Master) (g : State → State) (h₁ : s.resetLine = false)
    (h₂ : s.prst[m] = false) (h₃ : s.ports[m] ≠ .idle) :
    s.request m g = (s.answer m (.refused .overrun)).raise (.overrun m) := by
  unfold State.request
  rw [if_neg (by simp [h₁, h₂]), if_neg h₃]

theorem request_accepted (s : State) (m : Master) (g : State → State) (h : s.takesRequests m) :
    s.request m g = g s := by
  unfold State.request
  rw [if_neg (by simp [h.1, h.2.1]), if_pos h.2.2]

theorem answer_eq_told (s : State) (m : Master) (a : Answer) : s.answer m a = s.told m a := rfl

/-! ### Stage 1 -/

theorem lineField_toNat (l : Line) : lineField l.toNat = some l := by
  unfold lineField
  rw [if_pos l.isLt]
  simp

theorem accessField_eq_some (f : Fields) (a : Access) :
    accessField f = some a ↔
      f.line = some a.line.toNat ∧ f.first = some a.first.val ∧ f.count = some a.count ∧
        1 ≤ a.count ∧ a.first.val + a.count ≤ 8 := by
  rcases f with ⟨l, i, n, d, k⟩
  rcases a with ⟨al, ai, an⟩
  unfold accessField
  rcases l with _ | l <;> rcases i with _ | i <;> rcases n with _ | n <;> simp
  constructor
  · rintro ⟨⟨h1, h2, h3, h4, h5⟩, rfl, rfl, rfl⟩
    refine ⟨?_, ?_, rfl, h3, ?_⟩
    · simp [Nat.mod_eq_of_lt h1]
    · simp; omega
    · simp; omega
  · rintro ⟨rfl, rfl, rfl, h1, h2⟩
    have := al.isLt
    have := ai.isLt
    refine ⟨⟨by omega, by omega, h1, by omega, h2⟩, ?_, ?_⟩
    · simp
    · exact ⟨Fin.ext (Nat.mod_eq_of_lt this), rfl⟩

theorem markField_eq_some (f : Fields) (k : Mark) : markField f = some k ↔ f.mark = some (.valid k) := by
  rcases f with ⟨l, i, n, d, _ | _ | _⟩ <;> simp [markField]

theorem readForm_iff (f : Fields) (a : Access) (k : Mark) : readForm f = some (a, k) ↔ GoodRead f a k := by
  unfold readForm GoodRead
  constructor
  · intro hf
    split at hf
    · rename_i x y z hd ha hk
      simp only [Option.some.injEq, Prod.mk.injEq] at hf
      obtain ⟨rfl, rfl⟩ := hf
      have ha := (accessField_eq_some f _).mp ha
      have hk := (markField_eq_some f _).mp hk
      rcases f with ⟨l, i, n, d, mk⟩
      simp_all
    · simp at hf
  · rintro ⟨rfl, h1, h2⟩
    rw [(accessField_eq_some _ a).mpr ⟨rfl, rfl, rfl, h1, h2⟩, (markField_eq_some _ k).mpr rfl]

theorem wordPresent_iff (w : WordData) :
    wordPresent w = true ↔ w.b0 ≠ none ∨ w.b1 ≠ none ∨ w.b2 ≠ none ∨ w.b3 ≠ none := by
  simp [wordPresent, Option.isSome_iff_ne_none, or_assoc]

theorem writeForm_iff (f : Fields) (a : Access) (ws : List WordData) (k : Mark) :
    writeForm f = some (a, ws, k) ↔ GoodWrite f a ws k := by
  unfold writeForm GoodWrite
  constructor
  · intro hf
    split at hf
    · rename_i w b j hd ha hk
      split at hf
      · rename_i hw
        simp only [Option.some.injEq, Prod.mk.injEq] at hf
        obtain ⟨rfl, rfl, rfl⟩ := hf
        have ha := (accessField_eq_some f _).mp ha
        have hk := (markField_eq_some f _).mp hk
        simp only [List.all_eq_true, wordPresent_iff] at hw
        rcases f with ⟨l, i, n, d, mk⟩
        simp_all
      · simp at hf
    · simp at hf
  · rintro ⟨rfl, h1, h2, h3, h4⟩
    rw [(accessField_eq_some _ a).mpr ⟨rfl, rfl, rfl, h1, h2⟩, (markField_eq_some _ k).mpr rfl]
    dsimp only
    rw [if_pos ⟨h3, by simpa only [List.all_eq_true, wordPresent_iff] using h4⟩]

theorem fenceForm_iff (f : Fields) : fenceForm f = true ↔ f = noFields := by
  rcases f with ⟨_ | l, _ | i, _ | n, _ | d, _ | k⟩ <;> simp [fenceForm, noFields]

theorem dropForm_iff (f : Fields) (l : Line) : dropForm f = some l ↔ f = dropFields l := by
  rcases f with ⟨_ | x, _ | i, _ | n, _ | d, _ | k⟩ <;> simp [dropForm, dropFields, lineField]
  constructor
  · rintro ⟨h, rfl⟩
    simp [Nat.mod_eq_of_lt h]
  · rintro rfl
    exact ⟨l.isLt, by simp⟩

end Sys2Proof.Machine
end

