-- ==== Sys2Proof/Laws/Holds.lean ====
section
/-! SUPPORT. The Hold Unit: what stage 3 finds and what a passed request does to the table. -/

namespace Sys2Proof.Machine

theorem isActive_iff (h : Hold) : h.isActive = true ↔ h.state ≠ .broken := by
  unfold Hold.isActive
  split <;> simp_all

theorem otherActive_iff (s : State) (m : Master) (l : Line) : s.otherActive m l = true ↔ s.heldByOther m l := by
  unfold State.otherActive State.heldByOther
  rw [List.any_eq_true]
  constructor
  · rintro ⟨i, -, hi⟩
    split at hi
    · rename_i h hh
      simp only [Bool.and_eq_true, bne_iff_ne, ne_eq, beq_iff_eq, isActive_iff] at hi
      exact ⟨i, h, hh, hi.1.1, hi.1.2, hi.2⟩
    · simp at hi
  · rintro ⟨i, h, hh, h1, h2, h3⟩
    refine ⟨i, mem_holdSlots i, ?_⟩
    rw [hh]
    simp [h1, h2, (isActive_iff h).mpr h3]

theorem ownHold_some (s : State) (m : Master) (l : Line) (i : HoldSlot) (h : Hold)
    (H : s.ownHold m l = some (i, h)) : s.ownAt m l i h := by
  unfold State.ownHold at H
  obtain ⟨j, -, hj⟩ := List.exists_of_findSome?_eq_some H
  split at hj
  · rename_i h' hh
    split at hj
    · rename_i hc
      simp only [Option.some.injEq, Prod.mk.injEq] at hj
      obtain ⟨rfl, rfl⟩ := hj
      exact ⟨hh, hc.1, hc.2⟩
    · simp at hj
  · simp at hj

theorem ownHold_none (s : State) (m : Master) (l : Line) : s.ownHold m l = none ↔ s.ownNone m l := by
  unfold State.ownHold State.ownNone State.ownAt
  rw [List.findSome?_eq_none_iff]
  constructor
  · rintro H i h ⟨hh, h1, h2⟩
    have := H i (mem_holdSlots i)
    rw [hh] at this
    simp [h1, h2] at this
  · intro H i _
    split
    · rename_i h hh
      split
      · rename_i hc
        exact absurd ⟨hh, hc.1, hc.2⟩ (H i h)
      · rfl
    · rfl

/-- In a sound table a master's entry on a line is the one the Hold Unit finds (R90). -/
theorem ownHold_of_ownAt (s : State) (m : Master) (l : Line) (i : HoldSlot) (h : Hold) (hs : s.holdsSound)
    (H : s.ownAt m l i h) : s.ownHold m l = some (i, h) := by
  cases hf : s.ownHold m l with
  | none => exact absurd H ((ownHold_none s m l).mp hf i h)
  | some p =>
    obtain ⟨j, h'⟩ := p
    have h2 := ownHold_some s m l j h' hf
    by_cases hij : j = i
    · subst hij
      have := h2.1.symm.trans H.1
      simp only [Option.some.injEq] at this
      rw [this]
    · exact absurd ⟨h2.2.1.trans H.2.1.symm, h2.2.2.trans H.2.2.symm⟩ (hs.2 j i h' h hij h2.1 H.1).1

theorem readInFlight_iff (s : State) (m : Master) (l : Line) : s.readInFlight m l = true ↔ s.otherReads m l := by
  unfold State.readInFlight State.otherReads
  rw [List.any_eq_true]
  constructor
  · rintro ⟨n, -, hn⟩
    simp only [Bool.and_eq_true, bne_iff_ne, ne_eq] at hn
    obtain ⟨h1, h2⟩ := hn
    unfold Port.reads at h2
    split at h2
    · exact ⟨n, _, h1, beq_iff_eq.mp h2, Or.inl ⟨_, by assumption⟩⟩
    · exact ⟨n, _, h1, beq_iff_eq.mp h2, Or.inr (Or.inl (by assumption))⟩
    · exact ⟨n, _, h1, beq_iff_eq.mp h2, Or.inr (Or.inr ⟨_, by assumption⟩)⟩
    · simp at h2
  · rintro ⟨n, a, h1, h2, h3⟩
    refine ⟨n, mem_masters n, ?_⟩
    simp only [Bool.and_eq_true, bne_iff_ne, ne_eq]
    refine ⟨h1, ?_⟩
    rcases h3 with ⟨ws, h3⟩ | h3 | ⟨k, h3⟩ <;> simp [Port.reads, h3, h2]

theorem freeHoldSlot_some (s : State) (i : HoldSlot) (H : s.freeHoldSlot = some i) :
    s.holds[i] = none ∧ ∀ j : HoldSlot, j < i → s.holds[j] ≠ none := by
  unfold State.freeHoldSlot at H
  rw [show holdSlots = List.finRange 8 by decide] at H
  rw [List.find?_eq_some_iff_getElem] at H
  obtain ⟨h1, n, hn, rfl, h2⟩ := H
  refine ⟨by simpa using h1, ?_⟩
  intro j hj
  have hjn : j.val < n := by simpa [Fin.lt_def] using hj
  have := h2 j.val hjn
  simpa [Option.isSome_iff_ne_none] using this

theorem freeHoldSlot_exists (s : State) (H : s.holdCount < 8) : ∃ i, s.freeHoldSlot = some i := by
  cases hf : s.freeHoldSlot with
  | some i => exact ⟨i, rfl⟩
  | none =>
    unfold State.freeHoldSlot at hf
    rw [List.find?_eq_none] at hf
    have : holdSlots.filter (fun i => s.holds[i].isSome) = holdSlots := by
      rw [List.filter_eq_self]
      intro i hi
      have := hf i hi
      simpa [Option.isSome_iff_ne_none] using this
    unfold State.holdCount at H
    rw [this] at H
    exact absurd H (by decide)

/-- Stage 3 in the order of R93, as a choice on what it finds. -/
theorem holdCheck_held (s : State) (m : Master) (l : Line) (k : Mark) (H : s.heldByOther m l) :
    s.holdCheck m l k = .fail (.retry .held) := by
  unfold State.holdCheck
  rw [if_pos ((otherActive_iff s m l).mpr H)]

theorem holdCheck_lost (s : State) (m : Master) (l : Line) (k : Mark) (i : HoldSlot) (h : Hold)
    (hs : s.holdsSound) (H : ¬ s.heldByOther m l) (ho : s.ownAt m l i h) (hb : h.state = .broken)
    (hk : k ≠ .noMark) : s.holdCheck m l k = .lost i := by
  unfold State.holdCheck
  rw [if_neg (fun h => H ((otherActive_iff s m l).mp h)), ownHold_of_ownAt s m l i h hs ho]
  dsimp only
  rw [hb]
  cases k <;> simp_all

theorem holdCheck_acquire (s : State) (m : Master) (l : Line) (H : ¬ s.heldByOther m l) (ho : s.ownNone m l) :
    s.holdCheck m l .take = s.acquireCheck m l := by
  unfold State.holdCheck
  rw [if_neg (fun h => H ((otherActive_iff s m l).mp h)), (ownHold_none s m l).mpr ho]

/-- A request passes stage 3 when the manual says so (R93 to R98). -/
theorem holdCheck_pass (s : State) (m : Master) (l : Line) (k : Mark) (hp : s.passesHolds m l k) :
    ∃ e, s.holdCheck m l k = .pass e := by
  obtain ⟨H, hb, ht⟩ := hp
  cases hf : s.ownHold m l with
  | none =>
    have hn := (ownHold_none s m l).mp hf
    cases k with
    | noMark => exact ⟨_, by simp only [State.holdCheck, mt (otherActive_iff s m l).mp H, hf]; rfl⟩
    | free => exact ⟨_, by simp only [State.holdCheck, mt (otherActive_iff s m l).mp H, hf]; rfl⟩
    | take =>
      obtain ⟨h1, h2, h3⟩ := ht rfl hn
      refine ⟨.acquire, ?_⟩
      rw [holdCheck_acquire s m l H hn, State.acquireCheck, if_neg (mt (readInFlight_iff s m l).mp h1),
        if_neg (show ¬ Config.holdsPerMaster ≤ s.heldBy m from Nat.not_le.mpr h2),
        if_neg (show ¬ Config.holdCapacity ≤ s.holdCount from Nat.not_le.mpr h3)]
  | some p =>
    obtain ⟨i, h⟩ := p
    have := hb i h (ownHold_some s m l i h hf)
    unfold State.holdCheck
    rw [if_neg (mt (otherActive_iff s m l).mp H), hf]
    dsimp only
    cases hst : h.state <;> cases k <;> simp_all

/-- The effect of a passed request is on the Hold Table alone. -/
theorem applyHold_other (s : State) (m : Master) (l : Line) (e : HoldEffect) :
    s.applyHold m l e = { s with holds := (s.applyHold m l e).holds } := by
  unfold State.applyHold
  split
  · rfl
  · rfl
  · split <;> rfl

/-- What a passed request does to the table (R96, R97, R100, R102); `t` is the state it is applied to, which differs
from the judged one in neither the table, the settings nor the time. -/
theorem applyHold_holds (s t : State) (m : Master) (l : Line) (k : Mark) (e : HoldEffect)
    (H : s.holdCheck m l k = .pass e) (h1 : t.holds = s.holds) (h2 : t.settings = s.settings) (h3 : t.now = s.now) :
    s.holdsAfter m l k (t.applyHold m l e).holds := by
  unfold State.holdCheck at H
  split at H
  · simp at H
  rename_i hne
  split at H
  · rename_i i h hf
    have ho := ownHold_some s m l i h hf
    split at H
    · obtain rfl : e = .keep := by simpa using H.symm
      exact h1
    · simp at H
    · simp at H
    · obtain rfl : e = .keep := by simpa using H.symm
      exact Or.inl ⟨⟨i, h, ho⟩, h1⟩
    · obtain rfl : e = .release i := by simpa using H.symm
      refine Or.inl ⟨i, h, ho, ?_⟩
      simp [State.applyHold, h1]
  · rename_i hf
    have hn := (ownHold_none s m l).mp hf
    split at H
    · obtain rfl : e = .keep := by simpa using H.symm
      exact h1
    · obtain rfl : e = .keep := by simpa using H.symm
      exact Or.inr ⟨hn, h1⟩
    · unfold State.acquireCheck at H
      split at H
      · simp at H
      split at H
      · simp at H
      split at H
      · simp at H
      rename_i hc
      obtain rfl : e = .acquire := by simpa using H.symm
      obtain ⟨i, hi⟩ := freeHoldSlot_exists t (by
        have : t.holdCount = s.holdCount := by simp [State.holdCount, h1]
        rw [this]
        exact Nat.lt_of_not_le hc)
      have hi' := freeHoldSlot_some t i hi
      rw [h1] at hi'
      refine Or.inr ⟨hn, i, hi'.1, hi'.2, ?_⟩
      simp [State.applyHold, hi, h1, State.newHold, h2, h3, Timer.start]

end Sys2Proof.Machine
end

