-- ==== Sys2Proof/Laws/Queue.lean ====
section
/-! SUPPORT. The Posting Queue: sealing, the entry a WRITE merges into, the bytes of an entry, and removal. -/

namespace Sys2Proof.Machine

theorem close_eq_sealed (e : Entry) : e.close = sealedEntry e := by
  unfold Entry.close sealedEntry
  split <;> simp_all

/-- Sealing where a condition holds (R57). -/
theorem sealWhere_eq (p : Entry → Bool) (P : Entry → Prop) [DecidablePred P] (q : List Entry)
    (h : ∀ e, p e = true ↔ P e) :
    sealWhere p q = q.map (fun e => if P e then sealedEntry e else e) := by
  unfold sealWhere
  apply List.map_congr_left
  intro e _
  by_cases he : P e
  · rw [if_pos he, if_pos ((h e).mpr he), close_eq_sealed]
  · rw [if_neg he, if_neg (fun x => he ((h e).mp x))]

theorem sealedEntry_id (e : Entry) : (sealedEntry e).id = e.id := by
  unfold sealedEntry; split <;> rfl

theorem sealedEntry_master (e : Entry) : (sealedEntry e).master = e.master := by
  unfold sealedEntry; split <;> rfl

theorem sealedEntry_line (e : Entry) : (sealedEntry e).line = e.line := by
  unfold sealedEntry; split <;> rfl

theorem sealedEntry_posting (e : Entry) : (sealedEntry e).posting = e.posting := by
  unfold sealedEntry; split <;> rfl

theorem sealedEntry_words (e : Entry) : (sealedEntry e).words = e.words := by
  unfold sealedEntry; split <;> rfl

theorem sealedEntry_not_opened (e : Entry) : (sealedEntry e).state ≠ .opened := by
  unfold sealedEntry
  split
  · simp
  · assumption

theorem sealedEntry_issued (e : Entry) : (sealedEntry e).state = .issued ↔ e.state = .issued := by
  unfold sealedEntry
  split
  · simp_all
  · rfl

/-- In an ordered queue an entry is told by its identity. -/
theorem eq_of_id (q : List Entry) (hp : q.Pairwise (fun e e' => e.id ≠ e'.id)) (e e' : Entry) (h : e ∈ q)
    (h' : e' ∈ q) (hid : e.id = e'.id) : e = e' := by
  induction q with
  | nil => simp at h
  | cons a q ih =>
    rw [List.pairwise_cons] at hp
    rcases List.mem_cons.mp h with h1 | h1 <;> rcases List.mem_cons.mp h' with h2 | h2
    · rw [h1, h2]
    · exact absurd (h1 ▸ hid) (hp.1 _ h2)
    · exact absurd (h2 ▸ hid).symm (hp.1 _ h1)
    · exact ih hp.2 h1 h2

theorem ids_ne_of_sound (s : State) (hs : s.queueSound) : s.queue.Pairwise (fun e e' => e.id ≠ e'.id) :=
  hs.2.1.imp (fun h => Nat.ne_of_lt h.1)

theorem getLast?_filter_mem {α : Type} (q : List α) (p : α → Bool) (e : α) (h : (q.filter p).getLast? = some e) :
    e ∈ q ∧ p e = true := by
  have := List.mem_of_getLast? h
  simpa [List.mem_filter] using this

/-- The last entry of a filtered ordered queue is its youngest. -/
theorem le_getLast_filter (q : List Entry) (p : Entry → Bool) (hp : q.Pairwise (fun e e' => e.id < e'.id)) (e : Entry)
    (h : (q.filter p).getLast? = some e) (x : Entry) (hx : x ∈ q) (hpx : p x = true) : x.id ≤ e.id := by
  have hp' := hp.sublist (List.filter_sublist (p := p))
  have hx' : x ∈ q.filter p := List.mem_filter.mpr ⟨hx, hpx⟩
  generalize q.filter p = r at *
  rw [List.getLast?_eq_some_iff] at h
  obtain ⟨ys, rfl⟩ := h
  rcases List.mem_append.mp hx' with hx' | hx'
  · rw [List.pairwise_append] at hp'
    exact Nat.le_of_lt (hp'.2.2 x hx' e (by simp))
  · simp at hx'
    rw [hx']

/-- The entry a WRITE would merge into is the one the manual names (R49). -/
theorem mergeTarget_some (s : State) (m : Master) (l : Line) (e : Entry) (hs : s.queueSound)
    (h : s.mergeTarget m l = some e) : s.mergesInto m l e := by
  unfold State.mergeTarget at h
  split at h
  · rename_i e' hl
    split at h
    · rename_i hc
      obtain rfl : e' = e := by simpa using h
      obtain ⟨h1, h2⟩ := getLast?_filter_mem _ _ _ hl
      refine ⟨h1, by simpa using h2, hc.1, hc.2.1, ?_⟩
      rintro x hx (hm | hline)
      · exact le_getLast_filter _ _ (hs.2.1.imp (fun h => h.1)) _ hl x hx (by simpa using hm)
      · have := List.all_eq_true.mp hc.2.2 x hx
        simp only [Bool.not_eq_true', Bool.and_eq_false_iff, decide_eq_false_iff_not, beq_eq_false_iff_ne] at this
        rcases this with h | h
        · omega
        · exact absurd hline h
    · simp at h
  · simp at h

theorem mergeTarget_of (s : State) (m : Master) (l : Line) (e : Entry) (hs : s.queueSound)
    (h : s.mergesInto m l e) : s.mergeTarget m l = some e := by
  obtain ⟨h1, h2, h3, h4, h5⟩ := h
  have hmem : e ∈ s.queue.filter (fun e => e.master == m) := List.mem_filter.mpr ⟨h1, by simpa using h2⟩
  unfold State.mergeTarget
  cases hl : (s.queue.filter (fun e => e.master == m)).getLast? with
  | none =>
    rw [List.getLast?_eq_none_iff] at hl
    rw [hl] at hmem
    simp at hmem
  | some e' =>
    obtain ⟨h1', h2'⟩ := getLast?_filter_mem _ _ _ hl
    have hle := le_getLast_filter _ _ (hs.2.1.imp (fun h => h.1)) _ hl e h1 (by simpa using h2)
    have hle' := h5 e' h1' (Or.inl (by simpa using h2'))
    obtain rfl := eq_of_id _ (ids_ne_of_sound s hs) e e' h1 h1' (Nat.le_antisymm hle hle')
    dsimp only
    refine if_pos ⟨h3, h4, ?_⟩
    rw [List.all_eq_true]
    intro x hx
    by_cases hxl : x.line = l
    · have := h5 x hx (Or.inr hxl)
      simp [hxl]
      omega
    · simp [hxl]

theorem mergeTarget_none_iff (s : State) (m : Master) (l : Line) (hs : s.queueSound) :
    s.mergeTarget m l = none ↔ ∀ e, ¬ s.mergesInto m l e := by
  constructor
  · intro h e he
    rw [mergeTarget_of s m l e hs he] at h
    simp at h
  · intro h
    cases ht : s.mergeTarget m l with
    | none => rfl
    | some e => exact absurd (mergeTarget_some s m l e hs ht) (h e)

/-- The bytes of a new entry (R45). -/
theorem placeWords_byte (a : Access) (ws : List WordData) (i : Fin 8) (j : Fin 4) :
    dataByte (placeWords a.first ws) i j = writtenByte a ws i j := by
  unfold dataByte placeWords writtenByte
  simp only [Fin.getElem_fin, Vector.getElem_ofFn]
  split
  · cases ws[i.val - a.first.val]? with
    | none => fin_cases j <;> rfl
    | some w => rfl
  · fin_cases j <;> rfl

/-- The bytes of an overlay (R50). -/
theorem overlay_byte (d d' : LineData) (i : Fin 8) (j : Fin 4) :
    dataByte (overlay d d') i j = (dataByte d i j).or (dataByte d' i j) := by
  unfold dataByte overlay
  simp only [Fin.getElem_fin, Vector.getElem_ofFn]
  unfold overlayWord wordByte
  fin_cases j <;> exact Option.orElse_eq_or

end Sys2Proof.Machine
end

