-- ==== Sys2Proof/Laws/Acceptance.lean ====
section
/-! SUPPORT. What a request that is taken does, stage by stage, for every function of Machine/Requests.lean. -/

namespace Sys2Proof.Machine

/-- Past stage 2, stage 3 decides (R13, R93). -/
theorem judgeAccess_window (s : State) (m : Master) (l : Line) (k : Mark) (needed : MasterSet)
    (g : HoldEffect → State) (h : s.passesWindow m l k needed) :
    s.judgeAccess m l k needed g =
      match s.holdCheck m l k with
      | .fail a => s.answer m a
      | .lost i => (s.setHold i none).answer m .lost
      | .pass e => g e := by
  have h' : ¬ (k = .take ∧ (s.windows.governing l).hold = false) := by
    rintro ⟨hk, hh⟩
    rw [h.2 hk] at hh
    simp at hh
  unfold State.judgeAccess
  exact (if_neg (by simp [h.1])).trans ((if_neg h').trans (by cases s.holdCheck m l k <;> rfl))

/-- Stages 2 and 3 answer, or pass the request on (R13). -/
theorem judgeAccess_cases (s : State) (m : Master) (l : Line) (k : Mark) (needed : MasterSet)
    (g : HoldEffect → State) :
    (∃ x, s.judgeAccess m l k needed g = (s.answer m (.refused .denied)).raise x) ∨
    (∃ a, s.judgeAccess m l k needed g = s.answer m a) ∨
    (∃ i, s.judgeAccess m l k needed g = (s.setHold i none).answer m .lost) ∨
    (∃ e, s.holdCheck m l k = .pass e ∧ s.judgeAccess m l k needed g = g e) := by
  unfold State.judgeAccess
  split
  · exact Or.inl ⟨_, rfl⟩
  · split
    · exact Or.inr (Or.inl ⟨_, rfl⟩)
    · cases s.holdCheck m l k with
      | fail a => exact Or.inr (Or.inl ⟨a, rfl⟩)
      | lost i => exact Or.inr (Or.inr (Or.inl ⟨i, rfl⟩))
      | pass e => exact Or.inr (Or.inr (Or.inr ⟨e, rfl, rfl⟩))

end Sys2Proof.Machine
end

