-- ==== Sys2Proof/Laws/Timers.lean ====
section
/-! SUPPORT. The time base and the running timers: which have run past their window, and whose expiry can come next. -/

namespace Sys2Proof.Machine

/-- A timer that will have run past its window at the next step of the time base may expire now. -/
theorem due_of_overrun_tick (t : Timer) (now : Time) (h : t.overrun now.tick = true) : t.due now = true := by
  rcases now with ⟨u, b⟩
  unfold Timer.overrun Timer.latest Time.tick Time.le Time.plus at h
  unfold Timer.due Timer.earliest Time.le Time.plus
  split at h <;> simp at h ⊢ <;> omega

/-- A timer just started is inside its window. -/
theorem start_not_overrun (n : Nat) (now : Time) : (Timer.start n now).overrun now = false := by
  unfold Timer.start Timer.overrun Timer.latest Time.le Time.plus
  simp

/-- The time base after an expiry stands at the timer's limit or later. -/
theorem earliest_le_reach (t : Timer) (now : Time) : t.earliest.le (t.reach now) = true := by
  unfold Timer.reach Timer.due
  split
  · assumption
  · simp [Time.le]

/-- The timer of the oldest operation (R128). -/
theorem oldestTimer_eq (s : State) (t : Timer) : s.oldestTimer = some t ↔ ∃ o rest, s.mem.ops = o :: rest ∧ o.timer = t := by
  unfold State.oldestTimer
  cases s.mem.ops with
  | nil => simp
  | cons o rest => simp

/-- The running timer of a hold slot (R92). -/
theorem holdTimer_eq (s : State) (i : HoldSlot) (t : Timer) :
    s.holdTimer i = some t ↔ ∃ h, s.holds[i] = some h ∧ h.state = .active t := by
  unfold State.holdTimer
  cases hh : s.holds[i] with
  | none => simp
  | some h => cases hs : h.state <;> simp [hs]

/-- The oldest operation's timer has not run past its window. -/
theorem oldestTimer_within (s : State) (n : Time) :
    s.oldestTimer.any (fun t => t.overrun n) = false ↔
      ∀ o rest, s.mem.ops = o :: rest → ¬ o.timer.latest.le n = true := by
  unfold State.oldestTimer
  cases s.mem.ops with
  | nil => simp
  | cons o rest => simp [Timer.overrun]

/-- No timer has run past its window: the manual's words and the machine's test (00_scope.md, Time). -/
theorem noneOverrun_iff (s : State) (n : Time) : s.noneOverrun n = true ↔ s.timelyAt n := by
  unfold State.noneOverrun State.timelyAt State.holdsTimelyAt
  rw [Bool.and_eq_true, Bool.not_eq_true', Bool.not_eq_true', oldestTimer_within, List.any_eq_false]
  refine and_congr Iff.rfl ⟨fun H i h t hh ht => ?_, fun H i _ => ?_⟩
  · have := H i (mem_holdSlots i)
    rw [(holdTimer_eq s i t).mpr ⟨h, hh, ht⟩] at this
    exact this
  · cases ht : s.holdTimer i with
    | none => simp
    | some t =>
      obtain ⟨h, hh, hs⟩ := (holdTimer_eq s i t).mp ht
      exact H i h t hh hs

/-- A running timer's expiry can be the next to come: the manual's words and the machine's test. -/
theorem timeAllows_some (s : State) (t : Timer) : s.timeAllows (some t) = true ↔ s.mayExpire t := by
  unfold State.timeAllows State.mayExpire Timer.due
  rw [Option.any_some, Bool.or_eq_true, noneOverrun_iff]

/-- A timer that does not run does not expire. -/
theorem timeAllows_none (s : State) : s.timeAllows none = false := rfl

/-- At a timer's expiry no other timer has run past its window, if none had before. -/
theorem timelyAt_reach (s : State) (t : Timer) (hs : s.timely) (h : s.mayExpire t) : s.timelyAt (t.reach s.now) := by
  unfold Timer.reach Timer.due
  split
  · exact hs
  · rename_i hd
    exact h.resolve_left hd

end Sys2Proof.Machine
end

