-- ==== Sys2Proof/Laws/Arbiter.lean ====
section
/-! SUPPORT. The arbiter and the issue of operations: claims, urgency, the search of the rotation, the op slot. -/

namespace Sys2Proof.Machine

theorem mayIssue_iff (s : State) : s.mayIssue = true ↔ s.canIssue := by
  unfold State.mayIssue State.canIssue State.haltIsNext
  simp only [Bool.and_eq_true, Bool.not_eq_true', beq_iff_eq, decide_eq_true_eq, and_assoc]
  exact and_congr Iff.rfl (and_congr Iff.rfl (and_congr Iff.rfl (oldestTimer_within s s.now)))

theorem isWrite_iff (o : Op) : o.isWrite = true ↔ ∃ id, o.kind = .write id := by
  unfold Op.isWrite
  split <;> simp_all

theorem claims_iff (s : State) (c : Claimant) : s.claims c = true ↔ s.claiming c := by
  cases c with
  | q =>
    unfold State.claims State.claiming
    simp only [Bool.and_eq_true, mayIssue_iff, Bool.not_eq_true', and_assoc]
    refine and_congr Iff.rfl (and_congr ?_ ?_)
    · rw [List.any_eq_false]
      constructor
      · intro h o ho id hk
        exact h o ho ((isWrite_iff o).mpr ⟨id, hk⟩)
      · intro h o ho hw
        obtain ⟨id, hk⟩ := (isWrite_iff o).mp hw
        exact h o ho id hk
    · split
      · rename_i e rest h
        simp only [bne_iff_ne, ne_eq, h, List.cons.injEq]
        constructor
        · intro h1; exact ⟨e, rest, ⟨rfl, rfl⟩, h1⟩
        · rintro ⟨e', rest', ⟨rfl, rfl⟩, h1⟩; exact h1
      · rename_i h
        simp [h]
  | p m =>
    unfold State.claims State.claiming
    simp only [Bool.and_eq_true, mayIssue_iff]
    refine and_congr Iff.rfl ?_
    unfold Port.isReady
    split
    · rename_i a h
      simp [h]
    · rename_i h
      simp only [Bool.false_eq_true, false_iff, not_exists]
      exact h

theorem urgent_iff (s : State) : s.urgent = true ↔ s.isUrgent := by
  unfold State.urgent State.isUrgent
  simp only [Bool.or_eq_true, decide_eq_true_eq, List.any_eq_true]
  refine or_congr Iff.rfl ?_
  constructor
  · rintro ⟨m, -, hm⟩
    refine ⟨m, ?_⟩
    unfold Port.urges at hm
    split at hm
    · exact Or.inl ⟨_, _, by assumption⟩
    · exact Or.inr ⟨_, by assumption⟩
    · simp at hm
  · rintro ⟨m, ⟨a, ws, h⟩ | ⟨ws, h⟩⟩ <;> exact ⟨m, mem_masters m, by rw [h]; rfl⟩

/-- Every claimant. -/
def allClaimants : List Claimant := [.q, .p 0, .p 1, .p 2, .p 3]

theorem mem_allClaimants (c : Claimant) : c ∈ allClaimants := by
  cases c with
  | q => simp [allClaimants]
  | p m => fin_cases m <;> simp [allClaimants]

/-- The search order lists every claimant, nearest first (R123). -/
theorem searchOrder_sorted (r : Option Claimant) :
    (searchOrder r).Pairwise (fun c d => searchDistance r c < searchDistance r d) := by
  rcases r with _ | _ | m
  · decide
  · decide
  · revert m; decide

theorem mem_searchOrder (r : Option Claimant) (c : Claimant) : c ∈ searchOrder r := by
  have h : ∀ r ∈ none :: allClaimants.map some, ∀ c ∈ allClaimants, c ∈ searchOrder r := by decide
  refine h r ?_ c (mem_allClaimants c)
  cases r with
  | none => simp
  | some d => simp [mem_allClaimants]

theorem searchDistance_inj (r : Option Claimant) (c d : Claimant) (h : searchDistance r c = searchDistance r d) :
    c = d := by
  have H : ∀ r ∈ none :: allClaimants.map some, ∀ c ∈ allClaimants, ∀ d ∈ allClaimants,
      searchDistance r c = searchDistance r d → c = d := by decide
  refine H r ?_ c (mem_allClaimants c) d (mem_allClaimants d) h
  cases r with
  | none => simp
  | some d => simp [mem_allClaimants]

/-- The first element a search of a sorted list finds is nearest. -/
theorem find?_nearest {α : Type} (f : α → Nat) (p : α → Bool) (l : List α)
    (hs : l.Pairwise (fun c d => f c < f d)) (c : α) (h : l.find? p = some c) (d : α) (hd : d ∈ l) (hp : p d = true) :
    f c ≤ f d := by
  induction l with
  | nil => simp at hd
  | cons a l ih =>
    rw [List.pairwise_cons] at hs
    by_cases ha : p a = true
    · rw [List.find?_cons_of_pos ha] at h
      obtain rfl : a = c := by simpa using h
      rcases List.mem_cons.mp hd with rfl | hd
      · exact Nat.le_refl _
      · exact Nat.le_of_lt (hs.1 d hd)
    · rw [List.find?_cons_of_neg ha] at h
      rcases List.mem_cons.mp hd with rfl | hd
      · exact absurd hp ha
      · exact ih hs.2 h hd

/-- The arbiter's choice is the manual's (R123). -/
theorem grantee_iff (s : State) (c : Claimant) : s.grantee = some c ↔ s.chooses c := by
  unfold State.grantee State.chooses
  by_cases hq : s.claiming .q ∧ s.isUrgent
  · rw [if_pos (by simp [claims_iff, urgent_iff, hq])]
    simp only [Option.some.injEq, hq, not_true, false_and, or_false, and_true]
    constructor
    · rintro rfl; exact ⟨hq.1, rfl⟩
    · exact fun h => h.2.symm
  · rw [if_neg (by simpa [claims_iff, urgent_iff] using hq)]
    constructor
    · intro h
      have hc := List.find?_some h
      rw [claims_iff] at hc
      refine ⟨hc, Or.inr ⟨hq, fun d hd => ?_⟩⟩
      exact find?_nearest (searchDistance s.mem.rotation) _ _ (searchOrder_sorted _) c h d (mem_searchOrder _ d)
        ((claims_iff s d).mpr hd)
    · rintro ⟨hc, h⟩
      have h' : ∀ d, s.claiming d → searchDistance s.mem.rotation c ≤ searchDistance s.mem.rotation d := by
        rcases h with ⟨rfl, hu⟩ | ⟨-, h⟩
        · exact absurd ⟨hc, hu⟩ hq
        · exact h
      cases hf : (searchOrder s.mem.rotation).find? s.claims with
      | none =>
        rw [List.find?_eq_none] at hf
        exact absurd ((claims_iff s c).mpr hc) (hf c (mem_searchOrder _ c))
      | some d =>
        have hd := (claims_iff s d).mp (List.find?_some hf)
        have h1 := find?_nearest (searchDistance s.mem.rotation) _ _ (searchOrder_sorted _) d hf c
          (mem_searchOrder _ c) ((claims_iff s c).mpr hc)
        rw [searchDistance_inj _ d c (Nat.le_antisymm h1 (h' d hd))]

/-- With a claimant claiming there is a choice. -/
theorem grantee_exists (s : State) (c : Claimant) (h : s.claiming c) : ∃ d, s.grantee = some d := by
  unfold State.grantee
  split
  · exact ⟨_, rfl⟩
  · cases hf : (searchOrder s.mem.rotation).find? s.claims with
    | some d => exact ⟨d, rfl⟩
    | none =>
      rw [List.find?_eq_none] at hf
      exact absurd ((claims_iff s c).mpr h) (hf c (mem_searchOrder _ c))

/-- The op slot of the next operation is the lowest free one (R120), while fewer than 4 are outstanding. -/
theorem freeOpSlot_lowest (s : State) (h : s.mem.ops.length < 4) : s.lowestFree s.freeOpSlot := by
  unfold State.lowestFree State.freeOpSlot
  cases hf : opSlots.find? (fun k => s.mem.ops.all (fun o => o.slot != k)) with
  | some k =>
    have hk := List.find?_some hf
    simp only [List.all_eq_true, bne_iff_ne, ne_eq] at hk
    refine ⟨hk, ?_⟩
    intro j hj
    rw [show opSlots = List.finRange 4 by decide, List.find?_eq_some_iff_getElem] at hf
    obtain ⟨-, n, hn, hnk, hlow⟩ := hf
    have hjn : j.val < n := by
      have : k.val = n := by rw [← hnk]; simp
      rw [← this]; exact hj
    have := hlow j.val hjn
    simp only [List.getElem_finRange, Fin.cast_mk, Fin.eta, Bool.not_eq_true', List.all_eq_false, bne_iff_ne, ne_eq,
      Decidable.not_not] at this
    exact this
  | none =>
    exfalso
    rw [List.find?_eq_none] at hf
    have hall : ∀ k : OpSlot, k ∈ s.mem.ops.map Op.slot := by
      intro k
      have := hf k (mem_opSlots k)
      simp only [List.all_eq_true, not_forall, bne_iff_ne, ne_eq, Decidable.not_not] at this
      obtain ⟨o, ho, hk⟩ := this
      exact List.mem_map.mpr ⟨o, ho, hk⟩
    have hc : (Finset.univ : Finset OpSlot).card ≤ (s.mem.ops.map Op.slot).toFinset.card :=
      Finset.card_le_card (fun k _ => List.mem_toFinset.mpr (hall k))
    have h2 := List.toFinset_card_le (s.mem.ops.map Op.slot)
    simp only [Finset.card_univ, Fintype.card_fin, List.length_map] at hc h2
    omega

end Sys2Proof.Machine
end

