-- ==== Sys2Proof/Laws/Link.lean ====
section
/-! SUPPORT. The control link: bits and bytes, the frame clocked and the response carried out, the judging of a frame
and the frames that `frameOf` makes. -/

namespace Sys2Proof.Machine

/-! ### Bits and bytes -/

theorem byteOfBits_bits (b : Byte) :
    byteOfBits (b.getLsbD 7) (b.getLsbD 6) (b.getLsbD 5) (b.getLsbD 4) (b.getLsbD 3) (b.getLsbD 2) (b.getLsbD 1)
      (b.getLsbD 0) = b := by
  revert b; decide

theorem bytesOfBits_short (cut : List Bool) (h : cut.length < 8) : bytesOfBits cut = [] := by
  rcases cut with _ | ⟨_, _ | ⟨_, _ | ⟨_, _ | ⟨_, _ | ⟨_, _ | ⟨_, _ | ⟨_, _ | ⟨_, cut⟩⟩⟩⟩⟩⟩⟩⟩ <;> try rfl
  simp at h
  omega

/-- The bytes of the bits clocked, whatever bits of an unfinished byte follow (R154). -/
theorem bytesOfBits_bitsOfBytes (bytes : List Byte) (cut : List Bool) (h : cut.length < 8) :
    bytesOfBits (bitsOfBytes bytes ++ cut) = bytes := by
  induction bytes with
  | nil => exact bytesOfBits_short cut h
  | cons b bs ih =>
    have : bitsOfBytes (b :: bs) ++ cut = bitsOfByte b ++ (bitsOfBytes bs ++ cut) := by
      simp [bitsOfBytes]
    rw [this]
    simp only [bitsOfByte, List.cons_append, List.nil_append, bytesOfBits, byteOfBits_bits, ih]

theorem cutBits_short (x : List Bool) (h : x.length < 8) : cutBits x = x := by
  rcases x with _ | ⟨_, _ | ⟨_, _ | ⟨_, _ | ⟨_, _ | ⟨_, _ | ⟨_, _ | ⟨_, _ | ⟨_, cut⟩⟩⟩⟩⟩⟩⟩⟩ <;> try rfl
  simp at h
  omega

/-- A first byte whole, or none (R154). -/
theorem short_of_no_byte (x : List Bool)
    (h : ∀ b7 b6 b5 b4 b3 b2 b1 b0 rest, x = b7 :: b6 :: b5 :: b4 :: b3 :: b2 :: b1 :: b0 :: rest → False) :
    x.length < 8 := by
  rcases x with _ | ⟨_, _ | ⟨_, _ | ⟨_, _ | ⟨_, _ | ⟨_, _ | ⟨_, _ | ⟨_, _ | ⟨_, cut⟩⟩⟩⟩⟩⟩⟩⟩
  case cons.cons.cons.cons.cons.cons.cons.cons => exact (h _ _ _ _ _ _ _ _ _ rfl).elim
  all_goals simp

/-- The bytes of more bits: those of the first bits, then those that the bits left over make with the others (R154). -/
theorem bytesOfBits_append (x y : List Bool) : bytesOfBits (x ++ y) = bytesOfBits x ++ bytesOfBits (cutBits x ++ y) := by
  induction x using bytesOfBits.induct with
  | case1 b7 b6 b5 b4 b3 b2 b1 b0 rest ih => simp only [List.cons_append, bytesOfBits, cutBits, ih]
  | case2 x h =>
    have hl := short_of_no_byte x h
    rw [bytesOfBits_short x hl, cutBits_short x hl, List.nil_append]

theorem cutBits_append (x y : List Bool) : cutBits (x ++ y) = cutBits (cutBits x ++ y) := by
  induction x using bytesOfBits.induct with
  | case1 b7 b6 b5 b4 b3 b2 b1 b0 rest ih => simp only [List.cons_append, cutBits, ih]
  | case2 x h => rw [cutBits_short x (short_of_no_byte x h)]

/-- How many whole bytes bits make, and how many bits are left over (R154). -/
theorem bits_lengths (x : List Bool) : (bytesOfBits x).length = x.length / 8 ∧ (cutBits x).length = x.length % 8 := by
  induction x using bytesOfBits.induct with
  | case1 b7 b6 b5 b4 b3 b2 b1 b0 rest ih =>
    simp only [bytesOfBits, cutBits, List.length_cons, ih]
    omega
  | case2 x h =>
    have hl := short_of_no_byte x h
    rw [bytesOfBits_short x hl, cutBits_short x hl, List.length_nil]
    omega

/-- Whole bytes leave no bit over. -/
theorem cutBits_whole (x : List Bool) (h : x.length % 8 = 0) : cutBits x = [] :=
  List.eq_nil_of_length_eq_zero ((bits_lengths x).2.trans h)

/-- Bits that are whole bytes are the bits of those bytes. -/
theorem bits_of_bytes (x : List Bool) (h : x.length % 8 = 0) : x = bitsOfBytes (bytesOfBits x) := by
  induction x using bytesOfBits.induct with
  | case1 b7 b6 b5 b4 b3 b2 b1 b0 rest ih =>
    have hr : rest.length % 8 = 0 := by simp only [List.length_cons] at h; omega
    have hb : ∀ b7 b6 b5 b4 b3 b2 b1 b0 : Bool,
        bitsOfByte (byteOfBits b7 b6 b5 b4 b3 b2 b1 b0) = [b7, b6, b5, b4, b3, b2, b1, b0] := by decide
    simp only [bytesOfBits, bitsOfBytes, List.flatMap_cons, hb, List.cons_append, List.nil_append]
    rw [← bitsOfBytes, ← ih hr]
  | case2 x hx =>
    have hl := short_of_no_byte x hx
    rw [List.eq_nil_of_length_eq_zero (show x.length = 0 by omega)]
    rfl

/-! ### Sums -/

theorem byteSum_append (xs ys : List Byte) : byteSum (xs ++ ys) = byteSum xs + byteSum ys := by
  induction xs with
  | nil => simp [byteSum]
  | cons x xs ih =>
    simp only [byteSum, List.cons_append, List.foldr_cons] at *
    rw [ih, BitVec.add_assoc]

theorem byteSum_toNat (xs : List Byte) : (byteSum xs).toNat = (xs.map BitVec.toNat).sum % 256 := by
  induction xs with
  | nil => rfl
  | cons x xs ih =>
    simp only [byteSum, List.foldr_cons, List.map_cons, List.sum_cons] at *
    rw [BitVec.toNat_add, ih]
    omega

theorem byteSum_eq_zero_iff (xs : List Byte) : byteSum xs = 0 ↔ (xs.map BitVec.toNat).sum % 256 = 0 := by
  rw [← byteSum_toNat]
  constructor
  · intro h; rw [h]; rfl
  · intro h; exact BitVec.eq_of_toNat_eq h

/-- The check byte makes the frame sum to 0 (R155). -/
theorem byteSum_checked (xs : List Byte) : byteSum (xs ++ [checkByte xs]) = 0 := by
  rw [byteSum_append]
  simp [byteSum, checkByte]

theorem frameOf_length (code tag : Byte) (args : List Byte) : (frameOf code tag args).length = 4 + args.length := by
  simp [frameOf, frameBody]
  omega

/-! ### The frame clocked -/

/-- What clocking a byte leaves alone. -/
theorem clock_parts (r : Bool) (l : Link) (b : Byte) :
    (l.clock r b).phase = l.phase ∧ (l.clock r b).bits = l.bits ∧ (l.clock r b).response = l.response := by
  unfold Link.clock
  split <;> exact ⟨by simp_all, rfl, rfl⟩

theorem clock_bits (r : Bool) (l : Link) (b : Byte) (x : List Bool) :
    Link.clock r { l with bits := x } b = { l.clock r b with bits := x } := by
  rcases l with ⟨p, f, n, y, q, w, k⟩
  cases p <;> cases r <;> rfl

theorem foldl_clock_bits (r : Bool) (bytes : List Byte) (l : Link) (x : List Bool) :
    bytes.foldl (Link.clock r) { l with bits := x } = { bytes.foldl (Link.clock r) l with bits := x } := by
  induction bytes generalizing l with
  | nil => rfl
  | cons b bs ih => rw [List.foldl_cons, clock_bits, ih, List.foldl_cons]

theorem foldl_clock_parts (r : Bool) (bytes : List Byte) (l : Link) :
    (bytes.foldl (Link.clock r) l).phase = l.phase ∧ (bytes.foldl (Link.clock r) l).bits = l.bits ∧
      (bytes.foldl (Link.clock r) l).response = l.response := by
  induction bytes generalizing l with
  | nil => exact ⟨rfl, rfl, rfl⟩
  | cons b bs ih =>
    have h := clock_parts r l b
    rw [List.foldl_cons, (ih _).1, (ih _).2.1, (ih _).2.2]
    exact h

theorem clockBits_waiting (l : Link) (r : Bool) (x : List Bool) (h : l.phase = .waiting) : l.clockBits r x = l := by
  unfold Link.clockBits
  rw [h]

theorem clockBits_asserted (l : Link) (r : Bool) (x : List Bool) (h : l.phase ≠ .waiting) :
    l.clockBits r x =
      { (bytesOfBits (l.bits ++ x)).foldl (Link.clock r) l with bits := cutBits (l.bits ++ x) } := by
  unfold Link.clockBits
  split
  · exact absurd (by assumption) h
  · rfl

/-- What clocking bits leaves alone. -/
theorem clockBits_parts (l : Link) (r : Bool) (x : List Bool) :
    (l.clockBits r x).phase = l.phase ∧ (l.clockBits r x).response = l.response := by
  by_cases h : l.phase = .waiting
  · rw [clockBits_waiting l r x h]
    exact ⟨rfl, rfl⟩
  · rw [clockBits_asserted l r x h]
    exact ⟨(foldl_clock_parts r _ l).1, (foldl_clock_parts r _ l).2.2⟩

/-- Bits clocked in two parts are clocked as the whole (R154). -/
theorem clockBits_append (l : Link) (r : Bool) (x y : List Bool) :
    (l.clockBits r x).clockBits r y = l.clockBits r (x ++ y) := by
  by_cases h : l.phase = .waiting
  · rw [clockBits_waiting l r x h, clockBits_waiting l r y h, clockBits_waiting l r _ h]
  · rw [clockBits_asserted _ r y (by rw [(clockBits_parts l r x).1]; exact h), clockBits_asserted l r x h,
      clockBits_asserted l r _ h, ← List.append_assoc, bytesOfBits_append (l.bits ++ x), cutBits_append (l.bits ++ x),
      List.foldl_append, foldl_clock_bits]

/-- Select asserted already is not asserted anew (R154). -/
theorem selectAssert_asserted (l : Link) (r : Bool) (h : l.phase ≠ .waiting) : l.selectAssert r = l := by
  unfold Link.selectAssert
  split
  · exact absurd (by assumption) h
  · rfl
  · rfl

/-- What clocking bytes into a frame in progress does (R154, R157). -/
theorem foldl_clock_receiving (bytes : List Byte) (l : Link) (hp : l.phase = .receiving) (hf : l.frame.length ≤ 24)
    (hc : l.count ≤ 25) :
    bytes.foldl (Link.clock false) l =
      { l with
        frame := (l.frame ++ bytes).take 24
        count := min (l.count + bytes.length) 25
        shifted :=
          l.shifted ++ (List.range bytes.length).map (fun k => l.response.byteAt (l.shifted.length + k)) } := by
  induction bytes generalizing l with
  | nil =>
    simp only [List.foldl_nil, List.append_nil, List.length_nil, List.range_zero, List.map_nil, Nat.add_zero]
    rw [List.take_of_length_le hf, Nat.min_eq_left hc]
  | cons b bs ih =>
    rw [List.foldl_cons]
    have hstep : l.clock false b = { l with
        frame := if l.frame.length < Config.frameKept then l.frame ++ [b] else l.frame
        count := min (l.count + 1) Config.frameCountMax
        shifted := l.shifted ++ [l.response.byteAt l.shifted.length] } := by
      unfold Link.clock
      rw [hp]
    rw [hstep, ih]
    · have h1 : ((if l.frame.length < Config.frameKept then l.frame ++ [b] else l.frame) ++ bs).take 24 =
          (l.frame ++ b :: bs).take 24 := by
        by_cases h : l.frame.length < 24
        · rw [if_pos (show _ < Config.frameKept from h)]
          simp
        · rw [if_neg (show ¬ _ < Config.frameKept from h)]
          have : l.frame.length = 24 := by omega
          rw [List.take_append_of_le_length (by omega), List.take_append_of_le_length (by omega)]
      have h2 : min (min (l.count + 1) Config.frameCountMax + bs.length) 25 = min (l.count + (b :: bs).length) 25 := by
        simp only [Config.frameCountMax, List.length_cons]
        omega
      have h3 : l.shifted ++ [l.response.byteAt l.shifted.length] ++
            (List.range bs.length).map
              (fun k => l.response.byteAt ((l.shifted ++ [l.response.byteAt l.shifted.length]).length + k)) =
          l.shifted ++ (List.range (b :: bs).length).map (fun k => l.response.byteAt (l.shifted.length + k)) := by
        rw [List.length_cons, List.range_succ_eq_map]
        simp only [List.map_cons, List.map_map, List.append_assoc, List.cons_append, List.nil_append,
          List.length_append, List.length_cons, List.length_nil, Nat.add_zero]
        congr 2
        apply List.map_congr_left
        intro k _
        simp only [Function.comp_apply]
        congr 1
        omega
      rw [h1, h2, h3]
    · exact hp
    · dsimp only
      split
      · rename_i h
        have : l.frame.length < 24 := h
        simp
        omega
      · exact hf
    · exact Nat.min_le_right _ _

/-- What clocking bytes while they are ignored does (R162): 00h is carried out while RESET is asserted, and after it an
open value (assumption 18). -/
theorem foldl_clock_ignoring (r : Bool) (bytes : List Byte) (l : Link) (hp : l.phase = .ignoring) :
    bytes.foldl (Link.clock r) l =
      if r then { l with shifted := l.shifted ++ List.replicate bytes.length 0 }
      else { l with
        shifted := l.shifted ++ (List.range bytes.length).map (fun k => Config.ignoredByte (l.openBytes + k))
        openBytes := l.openBytes + bytes.length } := by
  induction bytes generalizing l with
  | nil => cases r <;> simp
  | cons b bs ih =>
    rw [List.foldl_cons, ih _ (by rw [(clock_parts r l b).1, hp])]
    cases r with
    | true => simp [Link.clock, hp, List.replicate_succ]
    | false =>
      simp only [Link.clock, hp, Bool.false_eq_true, if_false, List.length_cons, List.range_succ_eq_map,
        List.map_cons, List.map_map, List.append_assoc, List.cons_append, List.nil_append, Nat.add_zero,
        Link.mk.injEq, true_and]
      refine ⟨?_, by omega⟩
      congr 2
      apply List.map_congr_left
      intro k _
      simp only [Function.comp_apply]
      congr 1
      omega

/-! ### A piece received -/

/-- The link after a piece, before select is released if the piece releases it. -/
theorem receive_eq (s : State) (p : LinkPiece) :
    s.receive p =
      let t : State :=
        { s with link := (if p.opens then s.link.selectAssert s.resetLine else s.link).clockBits s.resetLine p.bits }
      if p.closes then t.selectRelease else t := rfl

/-- A frame clocked in two pieces is the frame clocked in one (R154). -/
theorem receive_pieces (s : State) (opens closes : Bool) (a b : List Bool) :
    (s.receive { opens := opens, bits := a, closes := false }).receive { opens := false, bits := b, closes := closes } =
      s.receive { opens := opens, bits := a ++ b, closes := closes } := by
  simp only [receive_eq, Bool.false_eq_true, if_false, clockBits_append]

/-- Select asserted already: a piece that asserts it does what the piece does without (R154). -/
theorem receive_asserted (s : State) (bits : List Bool) (closes : Bool) (h : s.link.phase ≠ .waiting) :
    s.receive { opens := true, bits := bits, closes := closes } =
      s.receive { opens := false, bits := bits, closes := closes } := by
  simp only [receive_eq, if_true, selectAssert_asserted _ _ h, Bool.false_eq_true, if_false]

/-- The release of select with no frame in progress, or under RESET, judges nothing (R154, R162). -/
theorem selectRelease_unjudged (s : State) (h : s.resetLine = true ∨ s.link.phase ≠ .receiving) :
    s.selectRelease = { s with link := s.link.released } := by
  unfold State.selectRelease
  refine if_neg ?_
  rcases h with h | h
  · simp [h]
  · exact fun hc => h hc.1

/-- The link after bits are clocked that no frame takes (R162). -/
theorem receive_ignored (s : State) (p : LinkPiece) (h : s.resetLine = true ∨ s.link.phase = .ignoring) :
    s.receive p =
      { s with link :=
        let l := (if p.opens then s.link.selectAssert s.resetLine else s.link).clockBits s.resetLine p.bits
        if p.closes then l.released else l } := by
  rw [receive_eq]
  dsimp only
  split
  · rw [selectRelease_unjudged]
    rcases h with h | h
    · exact .inl h
    · refine .inr ?_
      have hp : (if p.opens then s.link.selectAssert s.resetLine else s.link) = s.link := by
        split
        · exact selectAssert_asserted _ _ (by rw [h]; decide)
        · rfl
      dsimp only
      rw [(clockBits_parts _ _ _).1, hp, h]
      decide
  · rfl

/-- Clocking a byte keeps the link sound (R154). -/
theorem clock_sound (r : Bool) (l : Link) (b : Byte) (h : l.sound) : (l.clock r b).sound := by
  obtain ⟨h1, h2, h3, h4, h5⟩ := h
  unfold Link.clock
  split
  · exact ⟨h1, h2, h3, h4, h5⟩
  · exact ⟨h1, h2, h3, h4, h5⟩
  · exact ⟨h1, h2, h3, h4, h5⟩
  · rename_i hp
    refine ⟨?_, Nat.min_le_right _ _, h3, fun h => absurd hp h, fun h => by simp [hp] at h⟩
    show (if l.frame.length < Config.frameKept then l.frame ++ [b] else l.frame).length =
      min (min (l.count + 1) 25) 24
    by_cases hl : l.frame.length < 24
    · rw [if_pos (show _ < Config.frameKept from hl), List.length_append, List.length_singleton]
      omega
    · rw [if_neg (show ¬ _ < Config.frameKept from hl)]
      omega
  · exact ⟨h1, h2, h3, h4, h5⟩

theorem foldl_clock_sound (r : Bool) (bytes : List Byte) (l : Link) (h : l.sound) :
    (bytes.foldl (Link.clock r) l).sound := by
  induction bytes generalizing l with
  | nil => exact h
  | cons b bs ih => exact ih _ (clock_sound r l b h)

/-- Clocking bits keeps the link sound (R154). -/
theorem clockBits_sound (l : Link) (r : Bool) (x : List Bool) (h : l.sound) : (l.clockBits r x).sound := by
  by_cases hp : l.phase = .waiting
  · rw [clockBits_waiting l r x hp]
    exact h
  · rw [clockBits_asserted l r x hp]
    obtain ⟨h1, h2, -, h4, -⟩ := foldl_clock_sound r (bytesOfBits (l.bits ++ x)) l h
    refine ⟨h1, h2, ?_, h4, ?_⟩
    · show (cutBits (l.bits ++ x)).length < 8
      rw [(bits_lengths _).2]
      omega
    · intro hw
      exact absurd ((foldl_clock_parts r _ l).1.symm.trans hw) hp

/-- The assertion of select keeps the link sound (R154, R162). -/
theorem selectAssert_sound (l : Link) (r : Bool) (h : l.sound) : (l.selectAssert r).sound := by
  unfold Link.selectAssert
  split
  · exact ⟨rfl, by simp, by simp, fun _ => rfl, fun _ => rfl⟩
  · exact h
  · exact h

/-- With select released the link is sound. -/
theorem released_sound (l : Link) : l.released.sound := ⟨rfl, by simp [Link.released], by simp [Link.released],
  fun _ => rfl, fun _ => rfl⟩

/-- A whole frame while RESET is asserted that finds select released (R162). -/
theorem receive_reset (s : State) (bits : List Bool) (h : s.resetLine = true) (hp : s.link.phase = .waiting) :
    s.receive (wholeFrame bits) =
      { s with link :=
        { phase := .waiting, frame := [], count := 0, bits := [], response := s.link.response
          shifted := List.replicate (bytesOfBits bits).length 0, openBytes := s.link.openBytes } } := by
  rw [receive_ignored s _ (.inl h)]
  have hl : s.link.selectAssert s.resetLine =
      { s.link with phase := .ignoring, frame := [], count := 0, bits := [], shifted := [] } := by
    simp [Link.selectAssert, h, hp]
  simp only [wholeFrame, if_true]
  rw [hl, h]
  rw [clockBits_asserted _ _ _ (by simp), foldl_clock_ignoring _ _ _ rfl]
  simp [Link.released]

/-- A whole frame that the Link Unit takes: the link as R157 leaves it before the judging, then the judging. -/
theorem receive_judged (s : State) (bits : List Bool) (h : s.takesFrames) :
    s.receive (wholeFrame bits) =
      { s with link := s.linkAfter (bytesOfBits bits).length s.link.response }.afterJudging
        (judgeBytes (bytesOfBits bits)) := by
  rw [receive_eq]
  have hl : s.link.selectAssert s.resetLine =
      { s.link with phase := .receiving, frame := [], count := 0, bits := [], shifted := [] } := by
    simp [Link.selectAssert, h.1, h.2]
  simp only [wholeFrame, if_true]
  rw [hl, h.1]
  rw [clockBits_asserted _ _ _ (by simp), foldl_clock_receiving _ _ rfl (by simp) (by simp)]
  unfold State.selectRelease
  rw [if_pos (by simp)]
  simp only [List.nil_append, Nat.zero_add, List.length_nil]
  rfl

/-! ### Judging -/

theorem judgeBytes_bad (bytes : List Byte)
    (h : ¬ ∃ (code tag n : Byte) (rest : List Byte), bytes = code :: tag :: n :: rest ∧ n.toNat ≤ 20 ∧
        bytes.length = 4 + n.toNat) : judgeBytes bytes = .framing := by
  unfold judgeBytes
  rcases bytes with _ | ⟨code, _ | ⟨tag, _ | ⟨n, rest⟩⟩⟩
  · rfl
  · rfl
  · rfl
  · refine if_pos ?_
    by_contra hc
    apply h
    simp only [Config.frameCountMax, Config.maxArgs, List.length_cons] at *
    exact ⟨code, tag, n, rest, rfl, by omega, by omega⟩

theorem judgeBytes_framed (code tag n : Byte) (rest : List Byte) (hn : n.toNat ≤ 20)
    (hl : (code :: tag :: n :: rest).length = 4 + n.toNat) :
    judgeBytes (code :: tag :: n :: rest) =
      if byteSum (code :: tag :: n :: rest) ≠ 0 then .badCheck tag else .good code tag (rest.take n.toNat) := by
  unfold judgeBytes
  have h1 : (code :: tag :: n :: rest).take Config.frameKept = code :: tag :: n :: rest :=
    List.take_of_length_le (by rw [hl]; simp only [Config.frameKept]; omega)
  have h2 : min (code :: tag :: n :: rest).length Config.frameCountMax = 4 + n.toNat := by
    rw [hl]; simp only [Config.frameCountMax]; omega
  rw [h1, h2]
  exact if_neg (by simp only [Config.maxArgs]; omega)

theorem ofNat_length_toNat (args : List Byte) (h : args.length ≤ 20) :
    (BitVec.ofNat 8 args.length).toNat = args.length := by
  rw [BitVec.toNat_ofNat]
  omega

/-- A command frame is judged good (R155, R158). -/
theorem judgeBytes_frameOf (code tag : Byte) (args : List Byte) (h : args.length ≤ 20) :
    judgeBytes (frameOf code tag args) = .good code tag args := by
  have hl := frameOf_length code tag args
  have hs : byteSum (frameOf code tag args) = 0 := byteSum_checked _
  have he : frameOf code tag args =
      code :: tag :: BitVec.ofNat 8 args.length :: (args ++ [checkByte (frameBody code tag args)]) := rfl
  rw [he] at hl hs ⊢
  rw [judgeBytes_framed _ _ _ _ (by rw [ofNat_length_toNat args h]; exact h) (by rw [ofNat_length_toNat args h, hl])]
  rw [if_neg (by simp [hs]), ofNat_length_toNat args h]
  simp

/-- A frame judged good is the frame of its command (R155). -/
theorem eq_frameOf_of_good (bytes : List Byte) (code tag : Byte) (args : List Byte)
    (h : judgeBytes bytes = .good code tag args) : bytes = frameOf code tag args ∧ args.length ≤ 20 := by
  by_cases hf : ∃ (code tag n : Byte) (rest : List Byte), bytes = code :: tag :: n :: rest ∧ n.toNat ≤ 20 ∧
      bytes.length = 4 + n.toNat
  · obtain ⟨c, t, n, rest, rfl, hn, hl⟩ := hf
    rw [judgeBytes_framed c t n rest hn hl] at h
    split at h
    · simp at h
    · rename_i hs
      simp only [Verdict.good.injEq] at h
      obtain ⟨rfl, rfl, rfl⟩ := h
      simp only [ne_eq, Decidable.not_not] at hs
      have hrl : rest.length = n.toNat + 1 := by simp only [List.length_cons] at hl; omega
      have hargs : (rest.take n.toNat).length = n.toNat := by rw [List.length_take]; omega
      obtain ⟨x, hx⟩ : ∃ x, rest = rest.take n.toNat ++ [x] := by
        have hd : (rest.drop n.toNat).length = 1 := by rw [List.length_drop]; omega
        obtain ⟨x, hx⟩ := List.length_eq_one_iff.mp hd
        exact ⟨x, by rw [← hx, List.take_append_drop]⟩
      have hnn : BitVec.ofNat 8 n.toNat = n := by simp
      have hb : c :: t :: n :: rest = frameBody c t (rest.take n.toNat) ++ [x] := by
        unfold frameBody
        rw [hargs, hnn]
        simp only [List.cons_append, List.cons.injEq, true_and]
        exact hx
      refine ⟨?_, by omega⟩
      rw [hb]
      unfold frameOf
      rw [hb, byteSum_append] at hs
      congr 2
      have hx : byteSum [x] = x := by simp [byteSum]
      rw [hx] at hs
      unfold checkByte
      apply BitVec.eq_of_toNat_eq
      have := congrArg BitVec.toNat hs
      simp only [BitVec.toNat_add, BitVec.toNat_sub] at this ⊢
      omega
  · rw [judgeBytes_bad bytes hf] at h
    simp at h

theorem ofCode_code (c : LinkCommand) : LinkCommand.ofCode c.code = some c := by cases c <;> rfl

theorem code_of_ofCode (code : Byte) (c : LinkCommand) (h : LinkCommand.ofCode code = some c) : c.code = code := by
  revert h c
  revert code
  decide

/-- The bytes of a command's frame as it is clocked (R155). -/
theorem bytesOfBits_encodeFrame (c : LinkCommand) (tag : Byte) (args : List Byte) :
    bytesOfBits (encodeFrame c tag args) = frameOf c.code tag args := by
  have := bytesOfBits_bitsOfBytes (frameOf c.code tag args) [] (by decide)
  rwa [List.append_nil] at this

/-- The frame of a command received (R155, R159). -/
theorem receiveCommand_eq (s : State) (c : LinkCommand) (tag : Byte) (args : List Byte) (hr : s.takesFrames)
    (ha : args.length ≤ 20) :
    s.receiveCommand c tag args =
      if c.takes args.length then
        State.reply
          ({ s with link := s.linkAfter (4 + args.length) s.link.response }.runCommand c args) tag
      else s.replied (4 + args.length) tag .badValue [] s := by
  unfold State.receiveCommand
  rw [receive_judged s _ hr, bytesOfBits_encodeFrame, judgeBytes_frameOf _ _ _ ha, frameOf_length]
  simp only [State.afterJudging, State.executeFrame, ofCode_code]
  rfl

end Sys2Proof.Machine
end

