-- ==== Sys2Proof/Laws/Operands.lean ====
section
/-! SUPPORT. The byte layouts of Figure 46: what the model reads from argument bytes and writes as data is what the
vocabulary of Safety.lean spells. -/

namespace Sys2Proof.Machine

theorem leBytes2 (n : Nat) : leBytes 2 n = bytes16 (BitVec.ofNat 16 n) := by
  simp only [leBytes, bytes16]
  congr 1
  · apply BitVec.eq_of_toNat_eq; simp
  congr 1
  apply BitVec.eq_of_toNat_eq; simp [Nat.shiftRight_eq_div_pow]; omega

theorem leBytes4 (n : Nat) : leBytes 4 n = bytes32 (BitVec.ofNat 32 n) := by
  simp only [leBytes, bytes32]
  congr 1
  · apply BitVec.eq_of_toNat_eq; simp
  congr 1
  · apply BitVec.eq_of_toNat_eq; simp [Nat.shiftRight_eq_div_pow]; omega
  congr 1
  · apply BitVec.eq_of_toNat_eq; simp [Nat.shiftRight_eq_div_pow]; omega
  congr 1
  · apply BitVec.eq_of_toNat_eq; simp [Nat.shiftRight_eq_div_pow]; omega

theorem leValue_bytes16 (v : BitVec 16) : leValue (bytes16 v) = v.toNat := by
  have := v.isLt
  simp [bytes16, leValue, Nat.shiftRight_eq_div_pow]
  omega

theorem leBytes4_line (l : Line) : leBytes 4 l.toNat = bytes32 (l.setWidth 32) := by
  rw [leBytes4]
  congr 1
  apply BitVec.eq_of_toNat_eq
  simp

theorem leBytes3_page (p : Page) : leBytes 3 p.toNat = pageBytes p := by
  have := p.isLt
  simp only [leBytes, pageBytes]
  simp only [List.cons.injEq, and_true]
  refine ⟨?_, ?_, ?_⟩ <;> apply BitVec.eq_of_toNat_eq <;> simp [Nat.shiftRight_eq_div_pow] <;> omega

theorem leValue_pageBytes (p : Page) : leValue (pageBytes p) = p.toNat := by
  have := p.isLt
  simp [pageBytes, leValue, Nat.shiftRight_eq_div_pow]
  omega

theorem flagByte_eq (b : Bool) : flagByte b = yesNo b := rfl

theorem attributesBytes_eq (a : Attributes) : attributesBytes a = attributeArgs a := by
  rcases a with ⟨r, w, h, p, b, c⟩
  simp only [attributesBytes, attributeArgs, flagByte_eq]
  congr 1
  · revert r; decide
  congr 1
  · revert w; decide
  congr 2
  cases p <;> rfl

theorem windowBytes_eq (w : Window) : windowBytes w = windowArgs w := by
  simp only [windowBytes, windowArgs, flagByte_eq, leBytes3_page, attributesBytes_eq]

theorem recordBytes_eq (r : Record) : r.bytes = recordData r := by
  rcases r with ⟨seq, x⟩
  have h1 : leBytes 2 seq.toNat = bytes16 seq := by rw [leBytes2]; simp
  have he : ∀ e : Epoch, numByte e.toNat = e.setWidth 8 := by decide
  unfold Record.bytes recordData
  rw [h1]
  cases x <;> simp only [Incident.code, Incident.fieldBytes, leBytes4_line, numByte]
  rename_i e
  rw [← he e]
  rfl

theorem toNat_append_add {n k : Nat} (x : BitVec n) (y : BitVec k) :
    (x ++ y).toNat = x.toNat * 2 ^ k + y.toNat := by
  rw [BitVec.toNat_append, ← Nat.shiftLeft_add_eq_or_of_lt y.isLt, Nat.shiftLeft_eq]

theorem entryRecord_eq (e : Entry) :
    BitVec.ofNat 32 (e.line.toNat + e.master.val * 134217728 + e.state.bits * 536870912) = entryRecord e := by
  have hl := e.line.isLt
  have hm := e.master.isLt
  apply BitVec.eq_of_toNat_eq
  unfold entryRecord
  simp only [toNat_append_add, BitVec.toNat_ofNat]
  cases e.state <;> simp [EntryState.bits] <;> omega

theorem statusBytes_eq (s : State) : s.statusBytes = s.statusReport := by
  have he : ∀ e : Epoch, numByte e.toNat = e.setWidth 8 := by decide
  have hm : s.mem.state.byte = if s.mem.state = .halted then 1 else 0 := by cases s.mem.state <;> rfl
  have hf : Entry.statusBytes = fun e => bytes32 (entryRecord e) := by
    funext e
    rw [Entry.statusBytes, leBytes4, entryRecord_eq]
  unfold State.statusBytes State.statusReport
  rw [hf, he, hm]
  rfl

theorem statusReport_length (s : State) : s.statusReport.length = 7 + 4 * s.queue.length := by
  have : (s.queue.flatMap (fun e => bytes32 (entryRecord e))).length = 4 * s.queue.length := by
    induction s.queue with
    | nil => rfl
    | cons e q ih =>
      rw [List.flatMap_cons, List.length_append, ih]
      simp only [bytes32, List.length_cons, List.length_nil]
      omega
  simp only [State.statusReport, List.length_cons, List.length_append, this, List.length_nil]
  omega

/-! ### Argument bytes -/

theorem flagArg_yesNo (b : Bool) : flagArg (yesNo b) = some b := by cases b <;> rfl

theorem flagArg_some (x : Byte) (b : Bool) (h : flagArg x = some b) : x = yesNo b := by
  revert h b x; decide

theorem setArg_setWidth (r : MasterSet) : setArg (r.setWidth 8) = some r := by revert r; decide

theorem setArg_some (x : Byte) (r : MasterSet) (h : setArg x = some r) : x = r.setWidth 8 := by
  revert h r x; decide

theorem postingArg_code (p : Posting) : postingArg (if p = .unposted then 1 else 0) = some p := by cases p <;> rfl

theorem postingArg_some (x : Byte) (p : Posting) (h : postingArg x = some p) :
    x = if p = .unposted then 1 else 0 := by
  unfold postingArg at h
  split at h
  · obtain rfl : Posting.posted = p := by simpa using h
    simpa
  · split at h
    · obtain rfl : Posting.unposted = p := by simpa using h
      simpa
    · simp at h

/-- The attribute bytes of LOAD_WINDOW are in range exactly when they spell attributes (R34, R168). -/
theorem attributesArg_iff (rs ws ho po bp co : Byte) (a : Attributes) :
    attributesArg rs ws ho po bp co = some a ↔ [rs, ws, ho, po, bp, co] = attributeArgs a := by
  unfold attributesArg attributeArgs
  constructor
  · intro h
    split at h
    · rename_i r w h' p b c h1 h2 h3 h4 h5 h6
      obtain rfl : _ = a := by simpa using h
      rw [setArg_some _ _ h1, setArg_some _ _ h2, flagArg_some _ _ h3, postingArg_some _ _ h4, flagArg_some _ _ h5,
        flagArg_some _ _ h6]
    · simp at h
  · intro h
    simp only [List.cons.injEq, and_true] at h
    obtain ⟨rfl, rfl, rfl, rfl, rfl, rfl⟩ := h
    simp only [setArg_setWidth, flagArg_yesNo, postingArg_code]

/-- The range bytes of LOAD_WINDOW are in range exactly when they spell a flag and two pages in order (R34). -/
theorem rangeArg_iff (en b0 b1 b2 l0 l1 l2 : Byte) (e : Bool) (b l : Page) :
    rangeArg en b0 b1 b2 l0 l1 l2 = some (e, b, l) ↔
      en = yesNo e ∧ [b0, b1, b2] = pageBytes b ∧ [l0, l1, l2] = pageBytes l ∧ b ≤ l := by
  have key : ∀ (x0 x1 x2 : Byte), leValue [x0, x1, x2] ≤ 1048575 →
      [x0, x1, x2] = pageBytes (BitVec.ofNat 20 (leValue [x0, x1, x2])) := by
    intro x0 x1 x2 h
    have h0 := x0.isLt
    have h1 := x1.isLt
    have h2 := x2.isLt
    simp only [leValue] at h
    simp only [pageBytes, leValue, List.cons.injEq, and_true]
    refine ⟨?_, ?_, ?_⟩ <;> apply BitVec.eq_of_toNat_eq <;> simp [Nat.shiftRight_eq_div_pow] <;> omega
  unfold rangeArg
  constructor
  · intro h
    split at h
    · rename_i e' he
      split at h
      · rename_i hc
        simp only [Option.some.injEq, Prod.mk.injEq] at h
        obtain ⟨rfl, rfl, rfl⟩ := h
        refine ⟨flagArg_some _ _ he, key _ _ _ hc.1, key _ _ _ hc.2.1, ?_⟩
        rw [BitVec.le_def, BitVec.toNat_ofNat, BitVec.toNat_ofNat, Nat.mod_eq_of_lt, Nat.mod_eq_of_lt]
        · exact hc.2.2
        · omega
        · omega
      · simp at h
    · simp at h
  · rintro ⟨rfl, hb, hl, hle⟩
    have := b.isLt
    have := l.isLt
    rw [BitVec.le_def] at hle
    rw [flagArg_yesNo]
    dsimp only
    rw [hb, hl, leValue_pageBytes, leValue_pageBytes, if_pos ⟨by omega, by omega, hle⟩]
    simp

theorem windowNumber_ofNat (i : Fin 8) : windowNumber (BitVec.ofNat 8 i.val) = some i := by revert i; decide

theorem windowNumber_some (b : Byte) (i : Fin 8) (h : windowNumber b = some i) : b = BitVec.ofNat 8 i.val := by
  revert h i b; decide

theorem windowNumber_none (b : Byte) (h : 7 < b.toNat) : windowNumber b = none := by
  unfold windowNumber
  rw [if_neg (by omega)]

theorem holdSlotArg_ofNat (i : HoldSlot) : holdSlotArg (BitVec.ofNat 8 i.val) = some i := by revert i; decide

theorem holdSlotArg_none (b : Byte) (h : 7 < b.toNat) : holdSlotArg b = none := by
  unfold holdSlotArg
  rw [if_neg (by omega)]

end Sys2Proof.Machine
end

