-- ==== Sys2Proof/Laws/Replies.lean ====
section
/-! SUPPORT. The data the commands of the control link return: at most 71 bytes, and none with a status other than OK
(R156). -/

namespace Sys2Proof.Machine

theorem leBytes_length (k n : Nat) : (leBytes k n).length = k := by
  induction k generalizing n with
  | zero => rfl
  | succ k ih => simp [leBytes, ih]

theorem recordBytes_length (r : Record) : r.bytes.length ≤ 9 := by
  unfold Record.bytes Incident.fieldBytes
  split <;> simp [leBytes_length]

theorem holdBytes_length (h : Hold) (now : Time) : (h.bytes now).length = 8 := by
  unfold Hold.bytes
  split <;> simp [leBytes_length]

theorem windowBytes_length (w : Window) : (windowBytes w).length = 13 := by
  simp [windowBytes, attributesBytes, leBytes_length]

theorem statusBytes_length (s : State) : s.statusBytes.length = 7 + 4 * s.queue.length := by
  rw [statusBytes_eq, statusReport_length]

/-- The data of every command's response (R156). -/
theorem runCommand_data (s : State) (c : LinkCommand) (args : List Byte) (hq : s.queue.length ≤ 16) :
    (s.runCommand c args).2.data.length ≤ 71 ∧
      ((s.runCommand c args).2.status ≠ .ok → (s.runCommand c args).2.data = []) := by
  cases c <;> unfold State.runCommand <;> dsimp only
  case readStatus =>
    have := statusBytes_length s
    refine ⟨?_, fun h => absurd rfl h⟩
    show s.statusBytes.length ≤ 71
    omega
  case peekIncident =>
    unfold Sys2Proof.Machine.peekIncident
    split
    · rename_i r rest _
      have := recordBytes_length r
      refine ⟨?_, fun h => absurd rfl h⟩
      show r.bytes.length ≤ 71
      omega
    · simp
  case readHold =>
    unfold Sys2Proof.Machine.readHold
    repeat' split
    all_goals simp [holdBytes_length]
  case readWindow =>
    unfold Sys2Proof.Machine.readWindow
    repeat' split
    all_goals simp [windowBytes_length, attributesBytes]
  case getItem =>
    unfold Sys2Proof.Machine.getItem
    repeat' split
    all_goals simp [leBytes_length]
  case setItem =>
    unfold Sys2Proof.Machine.setItem
    repeat' split
    all_goals simp
  case loadWindow =>
    unfold Sys2Proof.Machine.loadWindow
    repeat' split
    all_goals simp
  case disableWindow =>
    unfold Sys2Proof.Machine.disableWindow
    repeat' split
    all_goals simp
  case freeze =>
    unfold Sys2Proof.Machine.freeze
    split <;> simp
  case breakHold =>
    unfold Sys2Proof.Machine.breakHold
    repeat' split
    all_goals simp
  case discardIncident =>
    unfold Sys2Proof.Machine.discardIncident
    repeat' split
    all_goals simp
  case resume =>
    unfold Sys2Proof.Machine.resume
    split <;> simp
  all_goals simp [nopCommand, clearHolds, clearOverflow, identify]

end Sys2Proof.Machine
end

