-- ==== Sys2Proof/Laws/Events.lean ====
section
/-! SUPPORT. Everything one step can do to the state, once: the list of its events, each with what is known when it comes
about. A proof about every step takes the cases of `Event` and unfolds no meaning. -/

namespace Sys2Proof.Machine

/-- What a command of the control link does to the blocks, its response left aside. -/
inductive Commanded (s : State) : State → Prop where
  /-- Nothing: a report, or a command turned away. -/
  | same : Commanded s s
  /-- SET of HOLD_LIMIT. -/
  | holdLimit (v : BitVec 16) (h : 1 ≤ v.toNat ∧ v.toNat ≤ 4000) :
      Commanded s { s with settings := { s.settings with holdLimit := v } }
  /-- SET of MEM_TIMEOUT. -/
  | memTimeout (v : BitVec 16) (h : 2 ≤ v.toNat ∧ v.toNat ≤ 500) :
      Commanded s { s with settings := { s.settings with memTimeout := v } }
  /-- SET of URGENT_LEVEL. -/
  | urgentLevel (v : BitVec 16) (h : 1 ≤ v.toNat ∧ v.toNat ≤ 16) :
      Commanded s { s with settings := { s.settings with urgentLevel := v } }
  /-- SET of ALERT_MASK. -/
  | alertMask (v : Byte) : Commanded s { s with settings := { s.settings with alertMask := v } }.judgeAlert
  /-- LOAD_WINDOW of a window, and DISABLE_WINDOW. -/
  | window (i : Fin 8) (w : Window) (hf : s.windows.frozen = false)
      (h : w.base ≤ w.limit ∨ (w.base = s.windows.table[i].base ∧ w.limit = s.windows.table[i].limit)) :
      Commanded s { s with windows := { s.windows with table := s.windows.table.set i w } }
  /-- LOAD_WINDOW of B. -/
  | background (a : Attributes) (hf : s.windows.frozen = false) :
      Commanded s { s with windows := { s.windows with background := a } }
  /-- FREEZE. -/
  | frozen (hf : s.windows.frozen = false) : Commanded s { s with windows := { s.windows with frozen := true } }
  /-- BREAK_HOLD. -/
  | hold (i : HoldSlot) (h : Hold) (hh : s.holds[i] = some h) : Commanded s (s.setHold i h.broken)
  /-- CLEAR_HOLDS. -/
  | holds : Commanded s { s with holds := Vector.ofFn (fun i : HoldSlot => s.holds[i].bind Hold.broken) }
  /-- DISCARD_INCIDENT. -/
  | discarded (r : Record) (rest : List Record) (h : s.incidents.records = r :: rest) :
      Commanded s { s with incidents := { s.incidents with records := rest } }.judgeAlert
  /-- CLEAR_OVERFLOW. -/
  | overflow : Commanded s { s with incidents := { s.incidents with overflow := 0 } }.judgeAlert
  /-- RESUME. -/
  | resumed (h : s.mem.state = .halted) : Commanded s { s with mem := { s.mem with state := .normal } }

/-- What is known of the link after bytes are clocked and select is asserted or released, up to a judging. -/
structure LinkKept (s : State) (l : Link) : Prop where
  /-- No frame begins under RESET. -/
  phase : s.resetLine = true → l.phase = .receiving → s.link.phase = .receiving
  /-- The link stays sound. -/
  sound : s.linkSound → l.sound

/-- One event of the block but the assertion of RESET, from a state to the next. -/
inductive Event (s : State) : State → Prop where
  /-- Nothing changes. -/
  | same : Event s s
  /-- An answer at acceptance, and no other effect. -/
  | told (m : Master) (a : Answer) (hr : s.resetLine = false) : Event s (s.answer m a)
  /-- A denial or an overrun: an answer and an incident. -/
  | toldRaised (m : Master) (a : Answer) (x : Incident) (hr : s.resetLine = false) : Event s ((s.answer m a).raise x)
  /-- A late completion. -/
  | raised (x : Incident) (hr : s.resetLine = false) : Event s (s.raise x)
  /-- A hold removed by LOST or DROP, with its answer. -/
  | holdRemoved (i : HoldSlot) (m : Master) (a : Answer) (hr : s.resetLine = false) :
      Event s ((s.setHold i none).answer m a)
  /-- A READ that passed every stage. -/
  | readStarted (m : Master) (a : Access) (k : Mark) (bypass : Bool) (e : HoldEffect) (ht : s.takesRequests m)
      (hm : s.mem.state ≠ .halted) (hc : s.holdCheck m a.line k = .pass e) :
      Event s ((s.startRead m a bypass).applyHold m a.line e)
  /-- A WRITE merged. -/
  | writeMerged (m : Master) (a : Access) (ws : List WordData) (k : Mark) (t : Entry) (e : HoldEffect)
      (ht : s.takesRequests m) (hc : s.holdCheck m a.line k = .pass e) (hg : s.mergeTarget m a.line = some t) :
      Event s (((s.mergeInto t (placeWords a.first ws) k).applyHold m a.line e).answer m (.done []))
  /-- A WRITE appended. -/
  | writeAppended (m : Master) (a : Access) (ws : List WordData) (k : Mark) (posting : Posting) (combining : Bool)
      (e : HoldEffect) (ht : s.takesRequests m) (hc : s.holdCheck m a.line k = .pass e)
      (hl : s.queue.length < 16) (hm : posting = .unposted → s.mem.state ≠ .halted)
      (hw : ∃ f, GoodWrite f a ws k) :
      Event s
        (((s.appendEntry m a.line (placeWords a.first ws) posting (newEntryState posting combining k)).applyHold m
          a.line e).answerWrite m a posting s.nextId)
  /-- A FENCE that waits. -/
  | fenceStarted (m : Master) (ht : s.takesRequests m) (hm : s.mem.state ≠ .halted) (he : s.entriesOf m ≠ []) :
      Event s ({ s with queue := sealWhere (fun e => e.master == m) s.queue }.setPort m (.fencing (s.entriesOf m)))
  /-- A grant. -/
  | granted (c : Claimant) (hc : s.claiming c) : Event s (s.grant c)
  /-- A completion matched to the oldest operation. -/
  | completed (o : Op) (rest : List Op) (status : MemStatus) (words : List Word) (hr : s.resetLine = false)
      (ho : s.mem.ops = o :: rest) : Event s ({ s with mem := { s.mem with ops := rest } }.complete o status words)
  /-- A halt. -/
  | halted (r : Timer) (hr : s.oldestTimer = some r) (hm : s.mayExpire r) : Event s s.halt
  /-- A hold expiry. -/
  | expired (i : HoldSlot) (r : Timer) (hr : s.holdTimer i = some r) (hm : s.mayExpire r) : Event s (s.expireHold i)
  /-- PRSTn asserted. -/
  | portReset (m : Master) : Event s (s.portReset m)
  /-- PRSTn deasserted. -/
  | portReleased (m : Master) : Event s { s with prst := s.prst.set m false }
  /-- RESET deasserted. -/
  | released : Event s { s with resetLine := false }
  /-- A frame that executes nothing, or is ignored. -/
  | linkOnly (l : Link) (hl : LinkKept s l)
      (h : l.response = s.link.response ∨ (s.resetLine = false ∧ l.response.data = [])) : Event s { s with link := l }
  /-- A command of the control link executed. -/
  | commanded (l : Link) (u : State) (r : Response) (hr : s.resetLine = false) (hl : LinkKept s l)
      (hu : Commanded { s with link := l } u)
      (hd : s.queue.length ≤ 16 → r.data.length ≤ 71 ∧ (r.status ≠ .ok → r.data = [])) : Event s (u.respond r)
  /-- A step of the time base. -/
  | ticked (h : s.timelyAt s.now.tick) : Event s { s with now := s.now.tick }

theorem rangeArg_ordered (en b0 b1 b2 l0 l1 l2 : Byte) (e : Bool) (b l : Page)
    (h : rangeArg en b0 b1 b2 l0 l1 l2 = some (e, b, l)) : b ≤ l := by
  unfold rangeArg at h
  split at h
  · split at h
    · rename_i hr
      simp only [Option.some.injEq, Prod.mk.injEq] at h
      obtain ⟨-, rfl, rfl⟩ := h
      rw [BitVec.le_def, BitVec.toNat_ofNat, BitVec.toNat_ofNat]
      omega
    · simp at h
  · simp at h

theorem leValue_two_lt (v0 v1 : Byte) : leValue [v0, v1] < 65536 := by
  have h0 := v0.isLt
  have h1 := v1.isLt
  simp only [leValue]
  omega

theorem Commanded.of_setItem (s : State) (args : List Byte) : Commanded s (setItem s args).1 := by
  unfold setItem
  split
  · rename_i code v0 v1
    have hv := leValue_two_lt v0 v1
    have ht : (BitVec.ofNat 16 (leValue [v0, v1])).toNat = leValue [v0, v1] := by
      rw [BitVec.toNat_ofNat]; omega
    split
    · split
      · exact .holdLimit _ (by rw [ht]; assumption)
      · exact .same
    · split
      · exact .memTimeout _ (by rw [ht]; assumption)
      · exact .same
    · split
      · exact .urgentLevel _ (by rw [ht]; assumption)
      · exact .same
    · split
      · exact .alertMask _
      · exact .same
    · exact .same
  · exact .same

theorem Commanded.of_loadWindow (s : State) (args : List Byte) : Commanded s (loadWindow s args).1 := by
  unfold loadWindow
  split
  · exact .same
  · rename_i hf
    simp only [Bool.not_eq_true] at hf
    split
    · split
      · split
        · rename_i hr _
          exact .window _ _ hf (.inl (rangeArg_ordered _ _ _ _ _ _ _ _ _ _ hr))
        · exact .same
      · split
        · exact .background _ hf
        · exact .same
    · exact .same

theorem Commanded.of_disableWindow (s : State) (args : List Byte) : Commanded s (disableWindow s args).1 := by
  unfold disableWindow
  split
  · exact .same
  · rename_i hf
    simp only [Bool.not_eq_true] at hf
    split
    · split
      · exact .window _ _ hf (.inr ⟨rfl, rfl⟩)
      · exact .same
    · exact .same

/-- A command of the control link does one of the things of `Commanded`. -/
theorem Commanded.of_runCommand (s : State) (c : LinkCommand) (args : List Byte) :
    Commanded s (s.runCommand c args).1 := by
  cases c with
  | nop => exact .same
  | getItem =>
    show Commanded s (getItem s args).1
    unfold getItem
    repeat' split
    all_goals exact .same
  | setItem => exact .of_setItem s args
  | loadWindow => exact .of_loadWindow s args
  | readWindow =>
    show Commanded s (readWindow s args).1
    unfold readWindow
    repeat' split
    all_goals exact .same
  | disableWindow => exact .of_disableWindow s args
  | freeze =>
    show Commanded s (Sys2Proof.Machine.freeze s).1
    unfold Sys2Proof.Machine.freeze
    split
    · exact .same
    · exact .frozen (by simp_all)
  | readHold =>
    show Commanded s (readHold s args).1
    unfold readHold
    repeat' split
    all_goals exact .same
  | breakHold =>
    show Commanded s (breakHold s args).1
    unfold breakHold
    split
    · split
      · split
        · exact .hold _ _ (by assumption)
        · exact .same
      · exact .same
    · exact .same
  | clearHolds => exact .holds
  | peekIncident =>
    show Commanded s (peekIncident s).1
    unfold peekIncident
    split <;> exact .same
  | discardIncident =>
    show Commanded s (discardIncident s args).1
    unfold discardIncident
    split
    · split
      · exact .discarded _ _ (by assumption)
      · exact .same
    · exact .same
  | clearOverflow => exact .overflow
  | readStatus => exact .same
  | resume =>
    show Commanded s (Sys2Proof.Machine.resume s).1
    unfold Sys2Proof.Machine.resume
    split
    · exact .resumed (by assumption)
    · exact .same
  | identify => exact .same

theorem Event.of_request (s : State) (m : Master) (g : State → State)
    (h : s.takesRequests m → Event s (g s)) : Event s (s.request m g) := by
  by_cases h1 : s.resetLine = true ∨ s.prst[m] = true
  · rw [request_discarded s m g h1]
    exact .same
  · simp only [not_or, Bool.not_eq_true] at h1
    by_cases h2 : s.ports[m] = .idle
    · rw [request_accepted s m g ⟨h1.1, h1.2, h2⟩]
      exact h ⟨h1.1, h1.2, h2⟩
    · rw [request_overrun s m g h1.1 h1.2 h2]
      exact .toldRaised m _ _ h1.1

theorem Event.of_judge (s : State) (m : Master) (l : Line) (k : Mark) (needed : MasterSet)
    (g : HoldEffect → State) (hr : s.resetLine = false) (h : ∀ e, s.holdCheck m l k = .pass e → Event s (g e)) :
    Event s (s.judgeAccess m l k needed g) := by
  rcases judgeAccess_cases s m l k needed g with ⟨x, hx⟩ | ⟨a, ha⟩ | ⟨i, hi⟩ | ⟨e, he, hg⟩
  · rw [hx]; exact .toldRaised m _ _ hr
  · rw [ha]; exact .told m a hr
  · rw [hi]; exact .holdRemoved i m _ hr
  · rw [hg]; exact h e he

theorem Event.of_acceptRead (s : State) (m : Master) (f : Fields) (ht : s.takesRequests m) :
    Event s (s.acceptRead m f) := by
  unfold State.acceptRead
  split
  · exact .told m _ ht.1
  · rename_i a k _
    refine .of_judge s m a.line k _ _ ht.1 (fun e he => ?_)
    split
    · exact .told m _ ht.1
    · exact .readStarted m a k _ e ht (by assumption) he

theorem Event.of_acceptWrite (s : State) (m : Master) (f : Fields) (ht : s.takesRequests m) :
    Event s (s.acceptWrite m f) := by
  unfold State.acceptWrite
  split
  · exact .told m _ ht.1
  · rename_i a ws k hf
    refine .of_judge s m a.line k _ _ ht.1 (fun e he => ?_)
    split
    · exact .told m _ ht.1
    · rename_i hn
      unfold State.takeWrite
      split
      · rename_i t hg
        split at hg
        · exact .writeMerged m a ws k t e ht he hg
        · simp at hg
      · split
        · rename_i hl
          exact .writeAppended m a ws k _ _ e ht he hl (fun hp hh => hn ⟨hh, hp⟩) ⟨f, (writeForm_iff f a ws k).mp hf⟩
        · exact .told m _ ht.1

theorem Event.of_acceptFence (s : State) (m : Master) (f : Fields) (ht : s.takesRequests m) :
    Event s (s.acceptFence m f) := by
  unfold State.acceptFence
  split
  · exact .told m _ ht.1
  · split
    · exact .told m _ ht.1
    · split
      · exact .told m _ ht.1
      · exact .fenceStarted m ht (by assumption) (by assumption)

theorem Event.of_acceptDrop (s : State) (m : Master) (f : Fields) (ht : s.takesRequests m) :
    Event s (s.acceptDrop m f) := by
  unfold State.acceptDrop
  split
  · exact .told m _ ht.1
  · split
    · exact .told m _ ht.1
    · exact .holdRemoved _ m _ ht.1

theorem Event.of_arrive (s : State) (epoch : Epoch) (status : MemStatus) (words : List Word) :
    Event s (s.arrive epoch status words) := by
  unfold State.arrive
  split
  · exact .same
  · rename_i hr
    have hr' : s.resetLine = false := by simpa using hr
    split
    · split
      · rename_i o rest ho
        exact .completed o rest status words hr' ho
      · exact .raised _ hr'
    · exact .raised _ hr'

/-- Select asserted if the piece opens, and its bits clocked. -/
theorem LinkKept.of_clocked (s : State) (p : LinkPiece) :
    LinkKept s ((if p.opens then s.link.selectAssert s.resetLine else s.link).clockBits s.resetLine p.bits) := by
  constructor
  · intro hr hp
    rw [(clockBits_parts _ _ _).1] at hp
    split at hp
    · unfold Link.selectAssert at hp
      split at hp
      · simp [hr] at hp
      · exact hp
      · exact hp
    · exact hp
  · intro h
    refine clockBits_sound _ _ _ ?_
    split
    · exact selectAssert_sound _ _ h
    · exact h

theorem LinkKept.of_released (s : State) (l : Link) : LinkKept s l.released :=
  ⟨fun _ h => by simp [Link.released] at h, fun _ => released_sound l⟩

/-- What select and bits clocked leave of the response (R157). -/
theorem clocked_response (s : State) (p : LinkPiece) :
    ((if p.opens then s.link.selectAssert s.resetLine else s.link).clockBits s.resetLine p.bits).response =
      s.link.response := by
  rw [(clockBits_parts _ _ _).2]
  split
  · unfold Link.selectAssert
    split <;> rfl
  · rfl

/-- A piece received is one event: the link alone moves, or a command is executed at the release (R154, R158, R162). -/
theorem Event.of_receive (s : State) (p : LinkPiece) : Event s (s.receive p) := by
  rw [receive_eq]
  have hk := LinkKept.of_clocked s p
  have hre := clocked_response s p
  generalize (if p.opens then s.link.selectAssert s.resetLine else s.link).clockBits s.resetLine p.bits = l at hk hre
  dsimp only
  have hl : LinkKept s l.released := .of_released s l
  split
  · unfold State.selectRelease
    split
    · rename_i hj
      have hr : s.resetLine = false := hj.2
      have hf : ∀ r : Response, r.data = [] →
          Event s (State.respond { s with link := l.released } r) := fun r hd =>
        .linkOnly _ ⟨fun _ h => by simp [Link.released] at h, hl.sound⟩ (.inr ⟨hr, hd⟩)
      unfold State.afterJudging
      split
      · exact hf _ rfl
      · exact hf _ rfl
      · rename_i code tag args _
        unfold State.executeFrame
        split
        · exact hf _ rfl
        · rename_i c _
          split
          · exact .commanded l.released _ _ hr hl (.of_runCommand _ c args)
              (runCommand_data { s with link := l.released } c args)
          · exact hf _ rfl
    · exact .linkOnly _ hl (.inl hre)
  · exact .linkOnly _ hk (.inl hre)

/-- Every command but RESET_ASSERT answers a next state, and it is one event. -/
theorem exec_event (c : Instr) (s : State) (hc : c ≠ .resetAssert) : ∃ t, exec c s = .next t ∧ Event s t := by
  cases c with
  | read m f => exact ⟨_, rfl, .of_request s m _ (.of_acceptRead s m f)⟩
  | write m f => exact ⟨_, rfl, .of_request s m _ (.of_acceptWrite s m f)⟩
  | fence m f => exact ⟨_, rfl, .of_request s m _ (.of_acceptFence s m f)⟩
  | drop m f => exact ⟨_, rfl, .of_request s m _ (.of_acceptDrop s m f)⟩
  | malformedRequest m f => exact ⟨_, rfl, .of_request s m _ (fun ht => .told m _ ht.1)⟩
  | grantQ =>
    refine ⟨_, rfl, ?_⟩
    split
    · rename_i h
      exact .granted .q ((grantee_iff s .q).mp h).1
    · exact .same
  | grantP m =>
    refine ⟨_, rfl, ?_⟩
    split
    · rename_i h
      exact .granted (.p m) ((grantee_iff s (.p m)).mp h).1
    · exact .same
  | completion epoch k status words => exact ⟨_, rfl, .of_arrive s epoch status words⟩
  | halt =>
    refine ⟨_, rfl, ?_⟩
    split
    · rename_i h
      cases hr : s.oldestTimer with
      | none => rw [hr, timeAllows_none] at h; simp at h
      | some r => exact .halted r hr ((timeAllows_some s r).mp (hr ▸ h))
    · exact .same
  | holdExpiry i =>
    refine ⟨_, rfl, ?_⟩
    split
    · rename_i h
      cases hr : s.holdTimer i with
      | none => rw [hr, timeAllows_none] at h; simp at h
      | some r => exact .expired i r hr ((timeAllows_some s r).mp (hr ▸ h))
    · exact .same
  | portResetAssert m => exact ⟨_, rfl, .portReset m⟩
  | portResetDeassert m => exact ⟨_, rfl, .portReleased m⟩
  | resetAssert => exact absurd rfl hc
  | resetDeassert => exact ⟨_, rfl, .released⟩
  | frameFault piece => exact ⟨_, rfl, .of_receive s _⟩
  | nop tag args => exact ⟨_, rfl, .of_receive s _⟩
  | getItem tag args => exact ⟨_, rfl, .of_receive s _⟩
  | setItem tag args => exact ⟨_, rfl, .of_receive s _⟩
  | loadWindow tag args => exact ⟨_, rfl, .of_receive s _⟩
  | readWindow tag args => exact ⟨_, rfl, .of_receive s _⟩
  | disableWindow tag args => exact ⟨_, rfl, .of_receive s _⟩
  | freeze tag args => exact ⟨_, rfl, .of_receive s _⟩
  | readHold tag args => exact ⟨_, rfl, .of_receive s _⟩
  | breakHold tag args => exact ⟨_, rfl, .of_receive s _⟩
  | clearHolds tag args => exact ⟨_, rfl, .of_receive s _⟩
  | peekIncident tag args => exact ⟨_, rfl, .of_receive s _⟩
  | discardIncident tag args => exact ⟨_, rfl, .of_receive s _⟩
  | clearOverflow tag args => exact ⟨_, rfl, .of_receive s _⟩
  | readStatus tag args => exact ⟨_, rfl, .of_receive s _⟩
  | resume tag args => exact ⟨_, rfl, .of_receive s _⟩
  | identify tag args => exact ⟨_, rfl, .of_receive s _⟩

/-! ### The empty queue -/

/-- What is known of each event the unit may take of its own (R104, R122, R128; 00_scope.md, Time). -/
theorem ownEvents_known (s : State) (e : OwnEvent) (h : e ∈ s.ownEvents) :
    match e with
    | .halt => ∃ r, s.oldestTimer = some r ∧ s.mayExpire r
    | .expire i => ∃ r, s.holdTimer i = some r ∧ s.mayExpire r
    | .grant c => s.grantee = some c
    | .time => s.timelyAt s.now.tick := by
  unfold State.ownEvents State.haltEvents State.expiryEvents State.grantEvents State.timeEvents at h
  simp only [List.mem_append] at h
  rcases h with ((h | h) | h) | h
  · split at h
    · rename_i r hr
      split at h
      · rename_i hd
        obtain rfl := List.mem_singleton.mp h
        exact ⟨r, hr, .inl hd⟩
      · simp at h
    · simp at h
  · obtain ⟨i, hi, rfl⟩ := List.mem_map.mp h
    have hd := (List.mem_filter.mp hi).2
    cases hr : s.holdTimer i with
    | none => rw [hr] at hd; simp at hd
    | some r =>
      rw [hr] at hd
      exact ⟨r, hr, .inl hd⟩
  · split at h
    · rename_i c hc
      obtain rfl := List.mem_singleton.mp h
      exact hc
    · simp at h
  · split at h
    · rename_i hn
      obtain rfl := List.mem_singleton.mp h
      exact (noneOverrun_iff s _).mp (Bool.and_eq_true _ _ ▸ hn).2
    · simp at h

/-- Every event the unit may take of its own. -/
theorem Event.of_runOwn (s : State) (e : OwnEvent) (n : Nat) (h : e ∈ s.ownEvents) :
    Event { s with drawn := n } (State.runOwn { s with drawn := n } e) := by
  have hk := ownEvents_known s e h
  cases e with
  | halt =>
    obtain ⟨r, hr, hm⟩ := hk
    exact .halted r hr hm
  | expire i =>
    obtain ⟨r, hr, hm⟩ := hk
    exact .expired i r hr hm
  | time => exact .ticked hk
  | grant c => exact .granted c ((grantee_iff s c).mp hk).1

/-- A step with no command waiting runs one of the unit's own events. -/
theorem idle_runs (s : State) (h : s.ownEvents ≠ []) :
    ∃ e ∈ s.ownEvents, ∃ n, s.idle = State.runOwn { s with drawn := n } e := by
  unfold State.idle
  split
  · rename_i h'
    exact absurd h' h
  · rename_i e h'
    exact ⟨e, by rw [h']; simp, s.drawn, rfl⟩
  · rename_i e es _ h'
    rw [h']
    cases hc : (e :: es)[Config.choice s.drawn % (e :: es).length]? with
    | none => exact ⟨e, by simp, _, rfl⟩
    | some x => exact ⟨x, List.mem_of_getElem? hc, _, rfl⟩

/-- Everything a step can do: RESET is asserted, or one event comes, after the queue of commands or the count of choices
has moved on. -/
theorem step_event (s t : State) (h : step s = .next t) :
    (∃ rest, s.pending = .resetAssert :: rest ∧ t = State.powerOnReset { s with pending := rest }) ∨
    ∃ rest n, Event { s with pending := rest, drawn := n } t := by
  unfold step at h
  split at h
  · rename_i c rest hp
    by_cases hc : c = .resetAssert
    · subst hc
      exact .inl ⟨rest, hp, (Host.Outcome.next.inj h).symm⟩
    · obtain ⟨u, hu, he⟩ := exec_event c { s with pending := rest } hc
      rw [hu] at h
      simp only [Host.Outcome.next.injEq] at h
      exact .inr ⟨rest, s.drawn, h ▸ he⟩
  · simp only [Host.Outcome.next.injEq] at h
    subst h
    by_cases ho : s.ownEvents = []
    · refine .inr ⟨s.pending, s.drawn, ?_⟩
      unfold State.idle
      rw [ho]
      exact .same
    · obtain ⟨e, he, n, hn⟩ := idle_runs s ho
      rw [hn]
      exact .inr ⟨s.pending, n, .of_runOwn s e n he⟩

end Sys2Proof.Machine
end

