-- ==== Sys2Proof/Laws/Effects.lean ====
section
/-! SUPPORT. What each shared operation leaves alone: one lemma for each, to be cited by proofs over `Event`. With them,
reading a vector after one place is set, and the updates of queue entries that keep what identifies an entry. -/

namespace Sys2Proof.Machine

/-! ### One place of a vector set -/

theorem holds_set_get (v : Vector (Option Hold) 8) (i j : HoldSlot) (x : Option Hold) :
    (v.set i x)[j] = if i = j then x else v[j] := by
  simp only [Fin.getElem_fin]
  rw [Vector.getElem_set]
  simp [Fin.ext_iff]

theorem ports_set_get (v : Vector Port 4) (i j : Master) (x : Port) :
    (v.set i x)[j] = if i = j then x else v[j] := by
  simp only [Fin.getElem_fin]
  rw [Vector.getElem_set]
  simp [Fin.ext_iff]

theorem prst_set_get (v : Vector Bool 4) (i j : Master) (x : Bool) :
    (v.set i x)[j] = if i = j then x else v[j] := by
  simp only [Fin.getElem_fin]
  rw [Vector.getElem_set]
  simp [Fin.ext_iff]

/-! ### What stays -/

/-- Carrying out a hold effect touches the Hold Table alone. -/
theorem applyHold_parts (s : State) (m : Master) (l : Line) (e : HoldEffect) :
    (s.applyHold m l e).windows = s.windows ∧ (s.applyHold m l e).settings = s.settings ∧
      (s.applyHold m l e).resetLine = s.resetLine ∧ (s.applyHold m l e).nextId = s.nextId ∧
      (s.applyHold m l e).prst = s.prst ∧ (s.applyHold m l e).link = s.link ∧ (s.applyHold m l e).mem = s.mem ∧
      (s.applyHold m l e).ports = s.ports ∧ (s.applyHold m l e).queue = s.queue ∧
      (s.applyHold m l e).incidents = s.incidents := by
  rw [applyHold_other]
  exact ⟨rfl, rfl, rfl, rfl, rfl, rfl, rfl, rfl, rfl, rfl⟩

/-- A matched completion leaves the windows, settings, inputs, holds, the Memory Port and the link alone. -/
theorem complete_parts (s : State) (o : Op) (status : MemStatus) (words : List Word) :
    (s.complete o status words).windows = s.windows ∧ (s.complete o status words).settings = s.settings ∧
      (s.complete o status words).resetLine = s.resetLine ∧ (s.complete o status words).holds = s.holds ∧
      (s.complete o status words).mem = s.mem ∧ (s.complete o status words).nextId = s.nextId ∧
      (s.complete o status words).prst = s.prst ∧ (s.complete o status words).link = s.link := by
  unfold State.complete
  split
  · unfold State.removeEntry
    split <;> exact ⟨rfl, rfl, rfl, rfl, rfl, rfl, rfl, rfl⟩
  · repeat' split
    all_goals exact ⟨rfl, rfl, rfl, rfl, rfl, rfl, rfl, rfl⟩

/-- A halt leaves the windows, settings, inputs, holds and the link alone. -/
theorem halt_parts (s : State) :
    s.halt.windows = s.windows ∧ s.halt.settings = s.settings ∧ s.halt.resetLine = s.resetLine ∧
      s.halt.holds = s.holds ∧ s.halt.nextId = s.nextId ∧ s.halt.prst = s.prst ∧ s.halt.link = s.link := by
  unfold State.halt
  split
  · exact ⟨rfl, rfl, rfl, rfl, rfl, rfl, rfl⟩
  · simp

/-- A grant leaves the windows, settings, inputs, holds, the link and the incidents alone. -/
theorem grant_parts (s : State) (c : Claimant) :
    (s.grant c).windows = s.windows ∧ (s.grant c).settings = s.settings ∧ (s.grant c).resetLine = s.resetLine ∧
      (s.grant c).holds = s.holds ∧ (s.grant c).nextId = s.nextId ∧ (s.grant c).prst = s.prst ∧
      (s.grant c).link = s.link ∧ (s.grant c).incidents = s.incidents := by
  cases c with
  | q =>
    simp only [State.grant]
    unfold State.issueWrite
    refine ⟨?_, ?_, ?_, ?_, ?_, ?_, ?_, ?_⟩ <;> split <;> rfl
  | p m =>
    simp only [State.grant]
    unfold State.issueRead
    refine ⟨?_, ?_, ?_, ?_, ?_, ?_, ?_, ?_⟩ <;> split <;> rfl

/-- A hold expiry leaves everything alone but the Hold Table, the incidents and the time base. -/
theorem expireHold_parts (s : State) (i : HoldSlot) :
    (s.expireHold i).windows = s.windows ∧ (s.expireHold i).settings = s.settings ∧
      (s.expireHold i).resetLine = s.resetLine ∧ (s.expireHold i).nextId = s.nextId ∧
      (s.expireHold i).prst = s.prst ∧ (s.expireHold i).link = s.link ∧ (s.expireHold i).mem = s.mem ∧
      (s.expireHold i).ports = s.ports ∧ (s.expireHold i).queue = s.queue := by
  unfold State.expireHold
  repeat' split
  all_goals exact ⟨rfl, rfl, rfl, rfl, rfl, rfl, rfl, rfl, rfl⟩

/-- What a port reset does to each block but the Incident Unit. -/
theorem portReset_parts (s : State) (m : Master) :
    (s.portReset m).windows = s.windows ∧ (s.portReset m).settings = s.settings ∧
      (s.portReset m).resetLine = s.resetLine ∧ (s.portReset m).nextId = s.nextId ∧
      (s.portReset m).prst = s.prst.set m true ∧ (s.portReset m).link = s.link ∧
      (s.portReset m).ports = s.ports.set m .idle ∧
      (s.portReset m).queue = sealWhere (fun e => e.master == m) s.queue ∧
      (s.portReset m).mem = { s.mem with ops := s.mem.ops.map (Op.orphan m) } ∧
      (s.portReset m).holds = Vector.ofFn (fun i : HoldSlot => dropOwned m s.holds[i]) := by
  unfold State.portReset
  dsimp only
  split <;> exact ⟨rfl, rfl, rfl, rfl, rfl, rfl, rfl, rfl, rfl, rfl⟩

/-- The queue after the removal of an entry. -/
theorem removeEntry_queue (s : State) (id : Nat) :
    (s.removeEntry id).queue = s.queue.filter (fun x => x.id != id) := by
  unfold State.removeEntry
  split
  · rfl
  · rename_i h
    symm
    rw [List.filter_eq_self]
    intro a ha
    simpa using List.find?_eq_none.mp h a ha

/-- A master owns no entry of the Hold Table. -/
theorem heldBy_zero (s : State) (m : Master) :
    s.heldBy m = 0 ↔ ∀ (i : HoldSlot) (h : Hold), s.holds[i] = some h → h.owner ≠ m := by
  unfold State.heldBy
  rw [List.length_eq_zero_iff, List.filter_eq_nil_iff]
  constructor
  · intro H i h hh
    have := H i (mem_holdSlots i)
    rw [hh] at this
    simpa using this
  · intro H i _
    cases hh : s.holds[i] with
    | none => simp
    | some h => simpa using H i h hh

/-- What a port reset makes of an operation: its kind as far as a WRITE goes, its op slot, epoch, line and master stay. -/
theorem orphan_parts (m : Master) (o : Op) :
    (Op.orphan m o).slot = o.slot ∧ (Op.orphan m o).epoch = o.epoch ∧ (Op.orphan m o).line = o.line ∧
      (Op.orphan m o).master = o.master ∧ ∀ id, (Op.orphan m o).kind = .write id ↔ o.kind = .write id := by
  unfold Op.orphan
  split
  · split <;> simp_all
  · simp
  · simp

/-! ### Updates of entries -/

/-- An update of queue entries that keeps identity, master, line, posting and ISSUED, makes none OPEN, and loses no
byte. -/
structure Keeps (f : Entry → Entry) : Prop where
  id : ∀ e, (f e).id = e.id
  master : ∀ e, (f e).master = e.master
  line : ∀ e, (f e).line = e.line
  posting : ∀ e, (f e).posting = e.posting
  issued : ∀ e, (f e).state = .issued ↔ e.state = .issued
  opened : ∀ e, (f e).state = .opened → e.state = .opened
  words : ∀ e, (∃ (i : Fin 8) (j : Fin 4), dataByte e.words i j ≠ none) →
    ∃ (i : Fin 8) (j : Fin 4), dataByte (f e).words i j ≠ none

/-- Sealing is such an update (R57). -/
theorem Keeps.seal (p : Entry → Bool) : Keeps (fun e => if p e then e.close else e) := by
  constructor <;> intro e <;> split
  all_goals try rw [close_eq_sealed]
  · exact sealedEntry_id e
  · rfl
  · exact sealedEntry_master e
  · rfl
  · exact sealedEntry_line e
  · rfl
  · exact sealedEntry_posting e
  · rfl
  · exact sealedEntry_issued e
  · rfl
  · intro h
    exact absurd h (sealedEntry_not_opened e)
  · exact fun h => h
  · rw [sealedEntry_words]
    exact fun h => h
  · exact fun h => h

/-- The queue after a merge into an OPEN entry is the queue with such an update (R50). -/
theorem Keeps.merge (s : State) (t : Entry) (d : LineData) (k : Mark) (hk : t.state = .opened)
    (hs : s.queue.Pairwise (fun e e' => e.id ≠ e'.id)) (ht : t ∈ s.queue) :
    ∃ f, Keeps f ∧ s.queue.map (fun e => if e.id = t.id then e.merge d k else e) = s.queue.map f := by
  refine ⟨fun e => if e.id = t.id ∧ e.state = .opened then e.merge d k else e, ?_, ?_⟩
  · constructor <;> intro e <;> split
    all_goals try rfl
    · rename_i h
      unfold Entry.merge
      dsimp only
      split <;> simp [h.2]
    · rename_i h
      exact fun _ => h.2
    · exact fun h => h
    · rintro ⟨i, j, hij⟩
      refine ⟨i, j, ?_⟩
      show dataByte (overlay d e.words) i j ≠ none
      rw [overlay_byte]
      simp [hij]
    · exact fun h => h
  · apply List.map_congr_left
    intro e he
    by_cases h : e.id = t.id
    · obtain rfl : e = t := eq_of_id s.queue hs e t he ht h
      simp [hk]
    · simp [h]

/-- The entry a merge goes into is in the queue and OPEN (R49). -/
theorem mergeTarget_mem (s : State) (m : Master) (l : Line) (e : Entry) (h : s.mergeTarget m l = some e) :
    e ∈ s.queue ∧ e.state = .opened := by
  unfold State.mergeTarget at h
  split at h
  · rename_i e' hl
    split at h
    · rename_i hc
      obtain rfl := Option.some.inj h
      exact ⟨(getLast?_filter_mem _ _ _ hl).1, hc.1⟩
    · simp at h
  · simp at h

end Sys2Proof.Machine
end

