-- ==== Sys2Proof/Tests/Slice0.lean ====
section
/-! SUPPORT. The model's own tests: ill-formed commands refused by the check of form, one or two steps for every command
with the values the manual's figures give, and for every statement with hypotheses a state and operands that meet them. -/

namespace Sys2Proof.Tests

open Sys2Proof Sys2Proof.Machine

/-! ### Helpers -/

/-- The state a command leads to. -/
def after (i : Instr) (s : State) : State :=
  match exec i s with
  | .next t => t
  | .fault _ => s
  | .refused _ => s

/-- A READ's fields. -/
def readOf (l i n : Nat) (k : Mark) : Fields :=
  { line := some l, first := some i, count := some n, data := none, mark := some (.valid k) }

/-- A WRITE's fields. -/
def writeOf (l i : Nat) (ws : List WordData) (k : Mark) : Fields :=
  { line := some l, first := some i, count := some ws.length, data := some ws, mark := some (.valid k) }

/-- A word with all four bytes present, each holding `b`. -/
def full (b : Byte) : WordData := { b0 := some b, b1 := some b, b2 := some b, b3 := some b }

/-- A word with bytes 0 and 1 present. -/
def low (b : Byte) : WordData := { b0 := some b, b1 := some b, b2 := none, b3 := none }

/-- A queue entry whose data is one word at word 0. -/
def entry (id : Nat) (m : Master) (l : Line) (p : Posting) (st : EntryState) : Entry :=
  { id := id, master := m, line := l, words := placeWords 0 [full 0x11], posting := p, state := st }

/-- Reset with a queue. -/
def queued (q : List Entry) : State := { State.reset with queue := q, nextId := 100 }

/-- A timer of 40 µs started at time 0. -/
def timer40 : Timer := { limit := 40, started := { us := 0, sub := 0 } }

/-- An outstanding WRITE. -/
def writeOp (id : Nat) (k : OpSlot) (l : Line) (m : Master) : Op :=
  { kind := .write id, slot := k, epoch := 0, line := l, master := m, timer := timer40 }

/-- An outstanding READ of words 0 and 1, its port waiting. -/
def readOp (k : OpSlot) (l : Line) (m : Master) : Op :=
  { kind := .read 0 2 true, slot := k, epoch := 0, line := l, master := m, timer := timer40 }

/-- Words 0 and 1 of a line. -/
def twoWords (l : Line) : Access := { line := l, first := 0, count := 2 }

/-- An ACTIVE hold. -/
def active (m : Master) (l : Line) : Hold :=
  { line := l, owner := m, state := .active { limit := 250, started := { us := 0, sub := 0 } } }

/-- A BROKEN hold. -/
def broken (m : Master) (l : Line) : Hold := { line := l, owner := m, state := .broken }

/-- Reset with a hold in slot 0. -/
def holding (h : Hold) : State := { State.reset with holds := State.reset.holds.set 0 (some h) }

/-- Window 3 of Figure 15 as the manual's examples use it: page 1025, masters 0 and 3, POSTED, bypass no, combining yes. -/
def window3 : Window :=
  { enabled := true, base := 1025, limit := 1025,
    attrs := { readSet := 9, writeSet := 9, hold := false, posting := .posted, bypass := false, combining := true } }

/-- Page 324 governed as in section 9.8: masters 0 and 3, UNPOSTED. -/
def window4 : Window :=
  { enabled := true, base := 324, limit := 324,
    attrs := { readSet := 9, writeSet := 9, hold := false, posting := .unposted, bypass := false, combining := false } }

/-- Reset with windows 3 and 4. -/
def windowed : State :=
  { State.reset with
    windows := { State.reset.windows with table := (State.reset.windows.table.set 3 window3).set 4 window4 } }

/-- The record of an incident with a sequence number. -/
def record (n : Seq) (i : Incident) : Record := { seq := n, incident := i }

/-- Reset with the Memory Port HALTED. -/
def haltedState : State := { State.reset with mem := { State.reset.mem with state := .halted, epoch := 1 } }

/-- Reset with RESET asserted. -/
def inReset : State := { State.reset with resetLine := true }

/-! ### Well-formedness: an ill-formed term for each check -/

theorem test_wf_tooManyArguments : Instr.wf (.nop 0 (List.replicate 21 0)) = false := by decide

theorem test_wf_twentyArguments : Instr.wf (.nop 0 (List.replicate 20 0)) = true := by decide

theorem test_wf_everyLinkCommandRefusesTwentyOne :
    [LinkCommand.nop, .getItem, .setItem, .loadWindow, .readWindow, .disableWindow, .freeze, .readHold, .breakHold,
      .clearHolds, .peekIncident, .discardIncident, .clearOverflow, .readStatus, .resume, .identify].all
      (fun c => !(c.instr 0 (List.replicate 21 0)).wf) = true := by decide

theorem test_wf_nineWords : Instr.wf (.completion 0 0 .good (List.replicate 9 0)) = false := by decide

theorem test_wf_goodFrameIsNoFault : Instr.wf (.frameFault (wholeFrame (encodeFrame .identify 5 []))) = false := by decide

theorem test_wf_badFrameIsFault : Instr.wf (.frameFault (wholeFrame (bitsOfBytes [0x42, 5, 0, 0]))) = true := by decide

/-! ### Frames, byte by byte from section 8.2 and Figure 46 -/

/-- R155's own example: code 02h, tag 05h, length 01h, argument 01h, check byte F7h. -/
theorem test_frame_checkByteOfR155 : frameOf 0x02 0x05 [0x01] = [0x02, 0x05, 0x01, 0x01, 0xF7] := by decide

/-- The same frame written out bit by bit, most significant bit of each byte first, is GET of HOLD_LIMIT. -/
theorem test_frame_bitsOfR155 :
    decodeFrame
      [false, false, false, false, false, false, true, false,
       false, false, false, false, false, true, false, true,
       false, false, false, false, false, false, false, true,
       false, false, false, false, false, false, false, true,
       true, true, true, true, false, true, true, true] = some (.getItem 0x05 [0x01]) := by decide

theorem test_frame_responseShiftedOneFrameLate :
    (after (.nop 9 [1, 2]) (after (.identify 7 []) State.reset)).link.shifted = [0x00, 0x07, 0x02, 0x24, 0x01, 0xD2] := by
  decide

/-! ### Requests, with the steps of Figures 47 to 49 -/

/-- Figure 47 after step 0. -/
def fig47_0 : State :=
  { windowed with
    queue := [entry 0 1 65536 .posted .issued], nextId := 1
    mem := { State.reset.mem with ops := [writeOp 0 0 65536 1] } }

def fig47_1 : State := after (.write 3 (writeOf 131200 0 [full 1, full 1, full 1, full 1] .noMark)) fig47_0
def fig47_2 : State := after (.write 0 (writeOf 131200 2 [low 2] .noMark)) fig47_1
def fig47_3 : State := after (.write 3 (writeOf 131200 3 [full 3] .noMark)) fig47_2
def fig47_4 : State := after (.write 3 (writeOf 131200 4 [full 4] .noMark)) fig47_3
def fig47_5 : State := after (.read 0 (readOf 131200 2 2 .noMark)) fig47_4
def fig47_6 : State := after (.fence 3 noFields) fig47_5

/-- The queue as Figure 47 writes it: master, line, state. -/
def queueOf (s : State) : List (Master × Line × EntryState) := s.queue.map (fun e => (e.master, e.line, e.state))

theorem test_write_appendsAndSeals :
    queueOf fig47_3 = [(1, 65536, .issued), (3, 131200, .sealed), (0, 131200, .sealed), (3, 131200, .opened)] ∧
      fig47_3.answers = #v[[.done []], [], [], [.done [], .done []]] := by decide

theorem test_write_merges :
    queueOf fig47_4 = queueOf fig47_3 ∧ fig47_4.queue.length = 4 ∧
      (fig47_4.queue[3]?).map Entry.words = some (placeWords 3 [full 3, full 4]) := by decide

theorem test_read_blocked :
    fig47_5.ports[0] = .blocked { line := 131200, first := 2, count := 2 } [1, 2, 3] ∧
      queueOf fig47_5 = [(1, 65536, .issued), (3, 131200, .sealed), (0, 131200, .sealed), (3, 131200, .sealed)] := by decide

theorem test_fence_waits : fig47_6.ports[3] = .fencing [1, 3] ∧ fig47_6.queue = fig47_5.queue := by decide

theorem test_completion_ofWrite :
    queueOf (after (.completion 0 0 .good []) fig47_6) =
        [(3, 131200, .sealed), (0, 131200, .sealed), (3, 131200, .sealed)] ∧
      (after (.completion 0 0 .good []) fig47_6).ports[3] = .fencing [1, 3] := by decide

theorem test_grantQ_issuesOldest :
    queueOf (after .grantQ (after (.completion 0 0 .good []) fig47_6)) =
        [(3, 131200, .issued), (0, 131200, .sealed), (3, 131200, .sealed)] ∧
      (after .grantQ (after (.completion 0 0 .good []) fig47_6)).mem.rotation = some .q := by decide

/-- Step 1 of Figure 48, on an empty queue. -/
theorem test_read_takesHold :
    (after (.read 2 (readOf 40960 0 1 .take)) State.reset).ports[2] = .ready { line := 40960, first := 0, count := 1 } ∧
      (after (.read 2 (readOf 40960 0 1 .take)) State.reset).holds[0] = some (active 2 40960) := by decide

theorem test_drop_ofBrokenIsLost :
    after (.drop 2 (dropFields 40960)) (holding (broken 2 40960)) =
      { State.reset with answers := #v[[], [], [.lost], []] } := by decide

theorem test_drop_notHeld :
    (after (.drop 1 (dropFields 40960)) (holding (broken 2 40960))).answers = #v[[], [.refused .notHeld], [], []] := by
  decide

theorem test_malformedRequest_answered :
    after (.malformedRequest 0 noFields) State.reset =
      { State.reset with answers := #v[[.refused .malformed], [], [], []] } := by decide

theorem test_fence_doneAtOnce : (after (.fence 1 noFields) State.reset).answers = #v[[], [.done []], [], []] := by decide

/-! ### The Memory Port -/

/-- A READY port 2. -/
def ready2 : State := { State.reset with ports := State.reset.ports.set 2 (.ready (twoWords 65600)) }

theorem test_grantP_issues :
    (after (.grantP 2) ready2).ports[2] = .issued (twoWords 65600) 0 ∧
      (after (.grantP 2) ready2).operations = [.read 65600 0 2 0 0] := by decide

theorem test_grantP_notChosen : after (.grantP 1) ready2 = ready2 := by decide

theorem test_completion_ofRead :
    (after (.completion 0 3 .good [5, 6]) (after (.grantP 2) ready2)).answers = #v[[], [], [.done [5, 6]], []] ∧
      (after (.completion 0 3 .good [5, 6]) (after (.grantP 2) ready2)).ports[2] = .idle := by decide

/-- Figure 49, before step 2: a fence, an ISSUED read, an UNPOSTED write. -/
def fig49 : State :=
  { State.reset with
    queue := [entry 0 0 1000 .posted .issued, entry 1 3 41472 .unposted .sealed, entry 2 1 65536 .posted .sealed,
              entry 3 1 65537 .posted .opened]
    nextId := 4
    ports := #v[.fencing [0], .idle, .issued (twoWords 65600) 1, .unposted (twoWords 41472) 1]
    mem := { state := .normal, epoch := 5,
             ops := [{ writeOp 0 0 1000 0 with epoch := 5 }, { readOp 1 65600 2 with epoch := 5 }], rotation := none }
    incidents := { State.reset.incidents with counter := 120 } }

theorem test_halt_answersAndIncidents :
    (after .halt fig49).answers = #v[[.error .memDown], [], [.error .timeout], [.error .memDown]] ∧
      (after .halt fig49).incidents.records =
        [record 120 (.memTimeout 1000 2), record 121 (.writeLost 0 1000), record 122 (.writeLost 3 41472)] := by decide

theorem test_halt_queueAndPort :
    queueOf (after .halt fig49) = [(1, 65536, .sealed), (1, 65537, .opened)] ∧
      (after .halt fig49).mem = { state := .halted, epoch := 6, ops := [], rotation := none } ∧
      (after .halt fig49).now = { us := 40, sub := 0 } ∧ (after .halt fig49).incidents.alert = true := by decide

theorem test_holdExpiry_breaks :
    (after (.holdExpiry 0) (holding (active 2 40960))).holds[0] = some (broken 2 40960) ∧
      (after (.holdExpiry 0) (holding (active 2 40960))).incidents.records = [record 0 (.holdExpired 2 40960 0)] := by
  decide

/-! ### Resets -/

theorem test_portResetAssert_drops :
    (after (.portResetAssert 2) (holding (active 2 40960))).holds = State.reset.holds ∧
      (after (.portResetAssert 2) (holding (active 2 40960))).incidents.records = [record 0 (.holdsDropped 2 1)] ∧
      (after (.portResetAssert 2) ready2).ports[2] = .idle := by decide

theorem test_portResetDeassert_takesAgain :
    after (.portResetDeassert 2) { State.reset with prst := #v[false, false, true, false] } = State.reset := by decide

theorem test_resetAssert_clears : after .resetAssert fig49 = inReset := by decide

theorem test_resetDeassert_releases : after .resetDeassert inReset = State.reset := by decide

/-! ### The control link -/

theorem test_frameFault_judged :
    (after (.frameFault (wholeFrame (bitsOfBytes [0x42, 5, 0, 0]))) State.reset).link.response =
        { status := .badCheck, tag := 5, data := [] } ∧
      (after (.frameFault (wholeFrame (bitsOfBytes (List.replicate 25 1)))) State.reset).link.response =
        { status := .framing, tag := 0, data := [] } := by decide

/-- Select asserted, and two bytes and three bits of IDENTIFY's frame clocked. -/
def frameBegun : State :=
  after (.frameFault { opens := true, bits := (encodeFrame .identify 7 []).take 19, closes := false }) State.reset

/-- The rest of that frame, and select released. -/
def frameEnd : Instr := .frameFault { opens := false, bits := (encodeFrame .identify 7 []).drop 19, closes := true }

/-- RESET asserted and deasserted within that frame, select staying asserted (R162). -/
def selectHeld : State := after .resetDeassert (after .resetAssert frameBegun)

theorem test_wf_pieceOfFrame :
    Instr.wf frameEnd = true ∧ Instr.wf (.frameFault { wholeFrame [] with closes := false }) = true := by decide

theorem test_frameFault_pieces :
    frameBegun.link.frame = [0x42, 7] ∧ frameBegun.link.bits = [false, false, false] ∧
      (after frameEnd (after (.portResetAssert 2) frameBegun)).link = (after (.identify 7 []) State.reset).link := by decide

/-- A frame cut by RESET is not judged: its bytes carry out 00h and the buffer keeps NO_RESPONSE (R162). -/
theorem test_resetAssert_cutsFrame :
    (after frameEnd (after .resetAssert frameBegun)).link =
      { State.reset.link with shifted := [0x09, 0x00, 0x00] } := by decide

/-- Select held over RESET's deassertion: bytes are ignored, and its release judges nothing (R162). -/
theorem test_resetDeassert_selectHeld :
    (after frameEnd selectHeld).link.response = Response.none ∧ (after frameEnd selectHeld).link.phase = .waiting ∧
      (after (.identify 7 []) (after frameEnd selectHeld)).link.response =
        { status := .ok, tag := 7, data := [0x24, 0x01] } := by decide

theorem test_nop_ok :
    (after (.nop 5 [7]) State.reset).link.response = { status := .ok, tag := 5, data := [] } ∧
      (after (.nop 5 [7]) State.reset).link.shifted = [0x09, 0, 0, 0xF7, 0] := by decide

theorem test_getItem_holdLimit :
    (after (.getItem 5 [0x01]) State.reset).link.response = { status := .ok, tag := 5, data := [250, 0] } := by decide

theorem test_setItem_replaces :
    (after (.setItem 5 [0x01, 0xA0, 0x0F]) State.reset).settings.holdLimit = 4000 ∧
      (after (.setItem 5 [0x01, 0xA1, 0x0F]) State.reset).link.response =
        { status := .badValue, tag := 5, data := [] } := by decide

theorem test_loadWindow_replaces :
    (after (.loadWindow 5 [3, 1, 0x01, 0x04, 0, 0x01, 0x04, 0, 9, 9, 0, 0, 0, 1]) State.reset).windows.table[3] =
      window3 := by decide

theorem test_readWindow_background :
    (after (.readWindow 5 [8]) State.reset).link.response =
      { status := .ok, tag := 5, data := [15, 15, 1, 0, 1, 1] } := by decide

theorem test_disableWindow_keepsFields :
    (after (.disableWindow 5 [3]) windowed).windows.table[3] = { window3 with enabled := false } := by decide

theorem test_freeze_thenFrozen :
    (after (.freeze 5 []) State.reset).windows.frozen = true ∧
      (after (.freeze 6 []) (after (.freeze 5 []) State.reset)).link.response =
        { status := .frozen, tag := 6, data := [] } := by decide

theorem test_readHold_active :
    (after (.readHold 5 [0]) (holding (active 2 40960))).link.response =
      { status := .ok, tag := 5, data := [0x00, 0xA0, 0, 0, 2, 0, 250, 0] } := by decide

theorem test_breakHold_breaks :
    (after (.breakHold 5 [0]) (holding (active 2 40960))).holds[0] = some (broken 2 40960) ∧
      (after (.breakHold 5 [0]) (holding (active 2 40960))).incidents = State.reset.incidents := by decide

theorem test_clearHolds_twice :
    (after (.clearHolds 5 []) (holding (active 2 40960))).holds = (holding (broken 2 40960)).holds ∧
      (after (.clearHolds 5 []) (holding (broken 2 40960))).holds = State.reset.holds := by decide

/-- A list with one record, of number 7. -/
def listed : State :=
  { State.reset with
    incidents := { records := [record 7 (.overrun 1)], counter := 8, overflow := 2, alert := true } }

theorem test_peekIncident_oldest :
    (after (.peekIncident 5 []) listed).link.response = { status := .ok, tag := 5, data := [7, 0, 8, 1] } := by decide

theorem test_discardIncident_named :
    (after (.discardIncident 5 [7, 0]) listed).incidents =
      { records := [], counter := 8, overflow := 2, alert := true } := by decide

theorem test_clearOverflow_returnsCount :
    (after (.clearOverflow 5 []) listed).link.response = { status := .ok, tag := 5, data := [2] } ∧
      (after (.clearOverflow 5 []) listed).incidents.overflow = 0 := by decide

theorem test_readStatus_oneEntry :
    (after (.readStatus 5 []) (queued [entry 0 3 65536 .posted .sealed])).link.response =
      { status := .ok, tag := 5, data := [1, 0x00, 0x00, 0x01, 0x38, 0, 0, 0, 0, 0, 0] } := by decide

theorem test_resume_normal :
    (after (.resume 5 []) haltedState).mem.state = .normal ∧
      (after (.resume 5 []) State.reset).link.response = { status := .badState, tag := 5, data := [] } := by decide

theorem test_identify_partCode :
    (after (.identify 7 []) State.reset).link.response = { status := .ok, tag := 7, data := [0x24, 0x01] } := by decide

/-! ### Steps -/

theorem test_step_takesFront :
    step { State.reset with pending := [.freeze 5 [], .halt] } =
      .next { after (.freeze 5 []) State.reset with pending := [.halt] } := by rfl

/-! ### Hypotheses that can be met

One theorem for each statement with hypotheses: a state and operands that meet them, for each clause, at a boundary value
where the clause has a range. -/

theorem other_none (s : State) (h : s.holds = State.reset.holds) (m : Master) (l : Line) : ¬ s.heldByOther m l := by
  rintro ⟨i, x, hx, -⟩
  rw [h] at hx
  revert i
  simp [State.reset, Fin.forall_fin_succ]

theorem own_none (s : State) (h : s.holds = State.reset.holds) (m : Master) (l : Line) : s.ownNone m l := by
  rintro i x ⟨hx, -⟩
  rw [h] at hx
  revert i
  simp [State.reset, Fin.forall_fin_succ]

theorem passes_free (s : State) (h : s.holds = State.reset.holds) (m : Master) (l : Line) (k : Mark)
    (hr : s.readInFlight m l = false) : s.passesHolds m l k := by
  refine ⟨other_none s h m l, fun i x hx => absurd hx (own_none s h m l i x), fun _ hn => ⟨?_, ?_, ?_⟩⟩
  · rw [← readInFlight_iff, hr]; simp
  · unfold State.heldBy; rw [h]; clear hr hn; revert m; decide
  · unfold State.holdCount; rw [h]; decide

theorem sound_empty (s : State) (h : s.holds = State.reset.holds) : s.holdsSound := by
  refine ⟨fun m => ?_, fun i j x y _ hx => absurd ⟨hx, rfl, rfl⟩ (own_none s h x.owner x.line i x)⟩
  unfold State.heldBy; rw [h]; revert m; decide

theorem holding_only (h x : Hold) (i : HoldSlot) (hx : (holding h).holds[i] = some x) : i = 0 ∧ x = h := by
  revert i
  simp [holding, State.reset, Fin.forall_fin_succ, eq_comm]

theorem sound_holding (h : Hold) : (holding h).holdsSound := by
  refine ⟨fun m => ?_, fun i j x y hij hx hy => ?_⟩
  · refine Nat.le_trans (List.Sublist.length_le (List.monotone_filter_right holdSlots (q := fun i => i == 0) ?_))
      (by decide)
    intro i hi
    cases hx : (holding h).holds[i] with
    | none => rw [hx] at hi; simp at hi
    | some x => simpa using (holding_only h x i hx).1
  · exact absurd ((holding_only h x i hx).1.trans (holding_only h y j hy).1.symm) hij

theorem queue_sound (s : State)
    (h : (s.queue.length ≤ 16 ∧ s.queue.Pairwise (fun e e' => e.id < e'.id ∧ e'.state ≠ .issued ∧
        (e.state = .opened → e.master ≠ e'.master ∧ e.line ≠ e'.line)) ∧
      ∀ e ∈ s.queue, e.id < s.nextId ∧ (e.posting = .unposted → e.state ≠ .opened) ∧
        ∃ (i : Fin 8) (j : Fin 4), dataByte e.words i j ≠ none)) : s.queueSound := h

theorem witness_StepRunsFrontCommand :
    ({ State.reset with pending := [.grantQ, .halt] } : State).pending = .grantQ :: [.halt] := rfl

theorem witness_IdleStepTakesOwnEvent : ready2.pending = [] ∧ ready2.chooses (.p 2) :=
  ⟨rfl, (grantee_iff _ _).mp (by decide)⟩

/-- A timer whose window ends at the next step of the time base, however many steps make a microsecond. -/
def lateTimer : Timer := { limit := 40, started := { us := 0, sub := 1 } }

/-- An outstanding WRITE whose timer is about to leave its window. -/
def lateOp : State :=
  { State.reset with
    queue := [entry 0 0 1000 .posted .issued], nextId := 1, now := { us := 41, sub := 0 }
    mem := { State.reset.mem with ops := [{ writeOp 0 0 1000 0 with timer := lateTimer }] } }

/-- A hold whose timer is about to leave its window. -/
def lateHold : State :=
  { holding { active 2 40960 with state := .active lateTimer } with now := { us := 41, sub := 0 } }

theorem late_tick : lateTimer.overrun (Time.tick { us := 41, sub := 0 }) = true := by
  unfold Time.tick
  split <;> decide

theorem late_timeEvents (s : State) (hn : s.now = { us := 41, sub := 0 })
    (h : s.oldestTimer = some lateTimer ∨ s.holdTimer 0 = some lateTimer) : s.timeEvents = [] := by
  unfold State.timeEvents State.noneOverrun
  rw [if_neg]
  rw [hn]
  rcases h with h | h
  · simp [h, late_tick]
  · simp [holdSlots, h, late_tick]

/-- An older operation whose timer runs to 500 µs, and one behind it that is overdue. -/
def overdue : State :=
  { lateOp with
    now := { us := 42, sub := 0 }
    mem := { lateOp.mem with
      ops := [{ readOp 1 1001 2 with timer := { limit := 500, started := { us := 0, sub := 0 } } },
              { writeOp 0 0 1000 0 with timer := lateTimer }] }
    pending := [.completion 0 1 .good [5, 6]] }

/-- The overdue operation becomes the oldest, no time passing (R128); HALT then comes at once. -/
theorem witness_TimersExpireInTheirWindow_overdue :
    overdue.timely ∧ step overdue = .next (after (.completion 0 1 .good [5, 6]) { overdue with pending := [] }) ∧
      (after (.completion 0 1 .good [5, 6]) overdue).mem.ops = [{ writeOp 0 0 1000 0 with timer := lateTimer }] ∧
      lateTimer.latest.le (after (.completion 0 1 .good [5, 6]) overdue).now = true ∧
      (after .halt (after (.completion 0 1 .good [5, 6]) overdue)).mem.state = .halted :=
  ⟨(noneOverrun_iff _ _).mp (by decide), rfl, by decide, by decide, by decide⟩

/-- The hypotheses of the other clauses, the halt and the expiry among them. -/
theorem witness_TimersExpireInTheirWindow :
    (lateOp.pending = [] ∧ lateOp.timely ∧ step lateOp = .next lateOp.halt ∧ lateOp.mem.state = .normal ∧
      lateOp.halt.mem.state = .halted) ∧
    (lateHold.pending = [] ∧ lateHold.timely ∧ step lateHold = .next (lateHold.expireHold 0) ∧
      lateHold.holds[0] = some { active 2 40960 with state := .active lateTimer } ∧
      (lateHold.expireHold 0).holds[0] ≠ some { active 2 40960 with state := .active lateTimer }) := by
  refine ⟨⟨rfl, ⟨?_, ?_⟩, ?_, rfl, by decide⟩, rfl, ⟨?_, ?_⟩, ?_, by decide, by decide⟩
  · intro o rest h
    obtain ⟨rfl, -⟩ := List.cons.inj h
    decide
  · intro i x t hx
    exact absurd ⟨hx, rfl, rfl⟩ (own_none lateOp rfl x.owner x.line i x)
  · have h : lateOp.ownEvents = [.halt] := by
      unfold State.ownEvents
      rw [late_timeEvents lateOp rfl (.inl (by decide))]
      decide
    show Host.Outcome.next lateOp.idle = _
    unfold State.idle
    rw [h]
    rfl
  · intro o rest h
    simp [lateHold, holding, State.reset] at h
  · intro i x t hx ht
    obtain ⟨rfl, rfl⟩ := holding_only _ x i hx
    obtain rfl := HoldState.active.inj ht
    decide
  · have h : lateHold.ownEvents = [.expire 0] := by
      unfold State.ownEvents
      rw [late_timeEvents lateHold rfl (.inr (by decide))]
      decide
    show Host.Outcome.next lateHold.idle = _
    unfold State.idle
    rw [h]
    rfl

/-- PRST3 asserted. -/
def prst3 : State := { State.reset with prst := #v[false, false, false, true] }

theorem witness_RequestsDiscardedUnderReset :
    (requestOf (.fence 3 noFields) = some 3 ∧ inReset.resetLine = true) ∧
      (requestOf (.drop 3 noFields) = some 3 ∧ prst3.prst[(3 : Master)] = true) := by decide

theorem witness_OverrunAnswered :
    requestOf (.malformedRequest 2 noFields) = some 2 ∧ ready2.resetLine = false ∧ ready2.prst[(2 : Master)] = false ∧
      ready2.ports[(2 : Master)] ≠ .idle := by decide

theorem idle_takes : State.reset.takesRequests 0 := ⟨rfl, rfl, rfl⟩

/-- One step beyond each range: a line number of 2 to the 27th, a sum of 9, no byte present, a FENCE with a line. -/
theorem witness_MalformedAnswered :
    State.reset.takesRequests 0 ∧ (∀ a k, ¬ GoodRead (readOf 134217728 0 1 .noMark) a k) ∧
      (∀ a k, ¬ GoodRead (readOf 0 7 2 .noMark) a k) ∧
      (∀ a ws k, ¬ GoodWrite (writeOf 0 0 [{ b0 := none, b1 := none, b2 := none, b3 := none }] .noMark) a ws k) ∧
      dropFields 0 ≠ noFields ∧ (∀ l, readOf 0 0 1 .noMark ≠ dropFields l) := by
  refine ⟨idle_takes, fun a k h => ?_, fun a k h => ?_, fun a ws k h => ?_, by decide, fun l h => ?_⟩
  · exact absurd ((readForm_iff _ a k).mpr h) (by rw [show readForm _ = none by decide]; simp)
  · exact absurd ((readForm_iff _ a k).mpr h) (by rw [show readForm _ = none by decide]; simp)
  · exact absurd ((writeForm_iff _ a ws k).mpr h) (by rw [show writeForm _ = none by decide]; simp)
  · simp [readOf, dropFields] at h

/-- The last line of window 4's page, 324, and the first line beyond it. -/
theorem witness_GoverningRecordIsLowestWindow :
    (inWindow windowed.windows.table[(4 : Fin 8)] 41599 ∧
      ∀ j : Fin 8, j < 4 → ¬ inWindow windowed.windows.table[j] 41599) ∧
    ∀ i : Fin 8, ¬ inWindow windowed.windows.table[i] 41600 := by
  unfold inWindow
  decide

/-- A READ of the last word of a line. -/
theorem good_read (l : Line) (k : Mark) :
    GoodRead (readOf l.toNat 7 1 k) { line := l, first := 7, count := 1 } k := ⟨rfl, Nat.le_refl 1, Nat.le_refl 8⟩

/-- A WRITE of the last word of a line. -/
theorem good_write (l : Line) (k : Mark) :
    GoodWrite (writeOf l.toNat 7 [full 1] k) { line := l, first := 7, count := 1 } [full 1] k :=
  ⟨rfl, Nat.le_refl 1, Nat.le_refl 8, rfl, by simp [full]⟩

theorem witness_DeniedRaisesIncident :
    windowed.takesRequests 1 ∧
      windowed.accessRequest 1 (.write 1 (writeOf 41472 7 [full 1] .take)) { line := 41472, first := 7, count := 1 } .take
        9 ∧ MasterSet.has 9 1 = false :=
  ⟨⟨rfl, rfl, rfl⟩, .inr ⟨_, _, rfl, good_write 41472 .take, by decide⟩, by decide⟩

theorem witness_NoHoldAndHeldAnswered :
    (windowed.takesRequests 0 ∧
      windowed.accessRequest 0 (.read 0 (readOf 41472 7 1 .take)) { line := 41472, first := 7, count := 1 } .take 9 ∧
      MasterSet.has 9 0 = true ∧ (windowed.windows.governing 41472).hold = false) ∧
    ((holding (active 2 40960)).takesRequests 0 ∧
      (holding (active 2 40960)).accessRequest 0 (.read 0 (readOf 40960 7 1 .take))
        { line := 40960, first := 7, count := 1 } .take 15 ∧
      (holding (active 2 40960)).passesWindow 0 40960 .take 15 ∧ (holding (active 2 40960)).heldByOther 0 40960) :=
  ⟨⟨⟨rfl, rfl, rfl⟩, .inl ⟨_, rfl, good_read 41472 .take, by decide⟩, by decide, by decide⟩,
    ⟨rfl, rfl, rfl⟩, .inl ⟨_, rfl, good_read 40960 .take, by decide⟩, ⟨by decide, fun _ => by decide⟩,
    (otherActive_iff _ _ _).mp (by decide)⟩

theorem witness_LostRemovesBrokenEntry :
    (holding (broken 2 40960)).holdsSound ∧ (holding (broken 2 40960)).takesRequests 2 ∧
      (holding (broken 2 40960)).accessRequest 2 (.write 2 (writeOf 40960 7 [full 1] .free))
        { line := 40960, first := 7, count := 1 } .free 15 ∧
      (holding (broken 2 40960)).passesWindow 2 40960 .free 15 ∧ ¬ (holding (broken 2 40960)).heldByOther 2 40960 ∧
      (holding (broken 2 40960)).ownAt 2 40960 0 (broken 2 40960) :=
  ⟨sound_holding _, ⟨rfl, rfl, rfl⟩, .inr ⟨_, _, rfl, good_write 40960 .free, by decide⟩,
    ⟨by decide, fun h => absurd h (by decide)⟩, (otherActive_iff _ _ _).not.mp (by decide), ⟨by decide, rfl, rfl⟩⟩

/-- Master 2 reads line 5 and owns two entries on other lines. -/
def crowded : State :=
  { State.reset with
    ports := State.reset.ports.set 2 (.ready (twoWords 5))
    holds := (State.reset.holds.set 0 (some (active 2 40960))).set 1 (some (broken 2 40961)) }

/-- The same with every port IDLE. -/
def twoHeld : State := { crowded with ports := State.reset.ports }

/-- Every slot of the Hold Table taken, one entry of them master 1's. -/
def fullTable : State :=
  { State.reset with
    holds :=
      #v[some (active 0 10), some (active 0 11), some (active 2 12), some (active 2 13), some (active 3 14),
        some (active 3 15), some (active 1 16), some (broken 0 17)] }

theorem witness_AcquisitionChecksInOrder :
    (crowded.takesRequests 0 ∧
      crowded.accessRequest 0 (.read 0 (readOf 5 7 1 .take)) { line := 5, first := 7, count := 1 } .take 15 ∧
      crowded.passesWindow 0 5 .take 15 ∧ ¬ crowded.heldByOther 0 5 ∧ crowded.ownNone 0 5 ∧ crowded.otherReads 0 5) ∧
    (twoHeld.takesRequests 2 ∧
      twoHeld.accessRequest 2 (.read 2 (readOf 5 7 1 .take)) { line := 5, first := 7, count := 1 } .take 15 ∧
      twoHeld.passesWindow 2 5 .take 15 ∧ ¬ twoHeld.heldByOther 2 5 ∧ twoHeld.ownNone 2 5 ∧ ¬ twoHeld.otherReads 2 5 ∧
      twoHeld.heldBy 2 = 2) ∧
    (fullTable.takesRequests 1 ∧
      fullTable.accessRequest 1 (.write 1 (writeOf 5 7 [full 1] .take)) { line := 5, first := 7, count := 1 } .take 15 ∧
      fullTable.passesWindow 1 5 .take 15 ∧ ¬ fullTable.heldByOther 1 5 ∧ fullTable.ownNone 1 5 ∧
      ¬ fullTable.otherReads 1 5 ∧ fullTable.heldBy 1 = 1 ∧ fullTable.holdCount = 8) :=
  ⟨⟨⟨rfl, rfl, rfl⟩, .inl ⟨_, rfl, good_read 5 .take, by decide⟩, ⟨by decide, fun _ => by decide⟩,
      (otherActive_iff _ _ _).not.mp (by decide), (ownHold_none _ _ _).mp (by decide),
      (readInFlight_iff _ _ _).mp (by decide)⟩,
    ⟨⟨rfl, rfl, rfl⟩, .inl ⟨_, rfl, good_read 5 .take, by decide⟩, ⟨by decide, fun _ => by decide⟩,
      (otherActive_iff _ _ _).not.mp (by decide), (ownHold_none _ _ _).mp (by decide),
      (readInFlight_iff _ _ _).not.mp (by decide), by decide⟩,
    ⟨rfl, rfl, rfl⟩, .inr ⟨_, _, rfl, good_write 5 .take, by decide⟩, ⟨by decide, fun _ => by decide⟩,
      (otherActive_iff _ _ _).not.mp (by decide), (ownHold_none _ _ _).mp (by decide),
      (readInFlight_iff _ _ _).not.mp (by decide), by decide, by decide⟩

/-- HALTED with windows 3 and 4. -/
def haltedWindowed : State := { windowed with mem := haltedState.mem }

theorem witness_HaltedAnswersMemDown :
    haltedWindowed.takesRequests 0 ∧ haltedWindowed.mem.state = .halted ∧
      GoodRead (readOf 40960 7 1 .take) { line := 40960, first := 7, count := 1 } .take ∧
      haltedWindowed.passesWindow 0 40960 .take (haltedWindowed.windows.governing 40960).readSet ∧
      haltedWindowed.passesHolds 0 40960 .take ∧
      GoodWrite (writeOf 41472 7 [full 1] .free) { line := 41472, first := 7, count := 1 } [full 1] .free ∧
      haltedWindowed.passesWindow 0 41472 .free (haltedWindowed.windows.governing 41472).writeSet ∧
      haltedWindowed.passesHolds 0 41472 .free ∧ (haltedWindowed.windows.governing 41472).posting = .unposted :=
  ⟨⟨rfl, rfl, rfl⟩, rfl, good_read 40960 .take, ⟨by decide, fun _ => by decide⟩, passes_free _ rfl _ _ _ (by decide),
    good_write 41472 .free, ⟨by decide, fun h => absurd h (by decide)⟩, passes_free _ rfl _ _ _ (by decide), by decide⟩

theorem witness_ReadAccepted :
    fig47_4.takesRequests 0 ∧ GoodRead (readOf 131200 7 1 .noMark) { line := 131200, first := 7, count := 1 } .noMark ∧
      fig47_4.passesWindow 0 131200 .noMark (fig47_4.windows.governing 131200).readSet ∧
      fig47_4.passesHolds 0 131200 .noMark ∧ fig47_4.mem.state = .normal ∧ fig47_4.readWaits 0 131200 false = [1, 2, 3] :=
  ⟨⟨by decide, by decide, by decide⟩, good_read 131200 .noMark, ⟨by decide, fun h => absurd h (by decide)⟩,
    passes_free _ (by decide) _ _ _ (by decide), by decide, by decide⟩

theorem witness_WriteMerged :
    (queued [entry 0 3 5 .posted .opened]).queueSound ∧ (queued [entry 0 3 5 .posted .opened]).takesRequests 3 ∧
      GoodWrite (writeOf 5 7 [full 1] .free) { line := 5, first := 7, count := 1 } [full 1] .free ∧
      (queued [entry 0 3 5 .posted .opened]).passesWindow 3 5 .free 15 ∧
      (queued [entry 0 3 5 .posted .opened]).passesHolds 3 5 .free ∧
      ((queued [entry 0 3 5 .posted .opened]).windows.governing 5).posting = .posted ∧
      (queued [entry 0 3 5 .posted .opened]).mergesInto 3 5 (entry 0 3 5 .posted .opened) :=
  ⟨queue_sound _ (by decide), ⟨rfl, rfl, rfl⟩, good_write 5 .free, ⟨by decide, fun h => absurd h (by decide)⟩,
    passes_free _ rfl _ _ _ (by decide), by decide, by simp [queued], rfl, rfl, rfl, by simp [queued]⟩

/-- Fifteen entries of master 1, each SEALED on its own line. -/
def fifteen : State := queued ((List.range 15).map (fun n => entry n 1 (BitVec.ofNat 27 n) .posted .sealed))

/-- Sixteen entries of master 1. -/
def sixteen : State := queued ((List.range 16).map (fun n => entry n 1 (BitVec.ofNat 27 n) .posted .sealed))

theorem fifteen_noMerge (m : Master) (l : Line) (e : Entry) : ¬ fifteen.mergesInto m l e := by
  rintro ⟨h1, -, h2, -⟩
  obtain ⟨n, -, rfl⟩ := List.mem_map.mp h1
  simp [entry] at h2

theorem sixteen_noMerge (m : Master) (l : Line) (e : Entry) : ¬ sixteen.mergesInto m l e := by
  rintro ⟨h1, -, h2, -⟩
  obtain ⟨n, -, rfl⟩ := List.mem_map.mp h1
  simp [entry] at h2

/-- At the last free place, POSTED, and UNPOSTED under window 4. -/
theorem witness_WriteAppended :
    (fifteen.queueSound ∧ fifteen.takesRequests 0 ∧
      GoodWrite (writeOf 5 7 [full 1] .take) { line := 5, first := 7, count := 1 } [full 1] .take ∧
      fifteen.passesWindow 0 5 .take (fifteen.windows.governing 5).writeSet ∧ fifteen.passesHolds 0 5 .take ∧
      (fifteen.windows.governing 5).posting = .posted ∧ (∀ e, ¬ fifteen.mergesInto 0 5 e) ∧
      fifteen.queue.length = 15) ∧
    (windowed.queueSound ∧ windowed.takesRequests 3 ∧
      GoodWrite (writeOf 41472 7 [full 1] .noMark) { line := 41472, first := 7, count := 1 } [full 1] .noMark ∧
      windowed.passesWindow 3 41472 .noMark (windowed.windows.governing 41472).writeSet ∧
      windowed.passesHolds 3 41472 .noMark ∧ (windowed.windows.governing 41472).posting = .unposted ∧
      windowed.mem.state = .normal ∧ windowed.queue.length < 16) :=
  ⟨⟨queue_sound _ (by decide), ⟨rfl, rfl, rfl⟩, good_write 5 .take, ⟨by decide, fun _ => by decide⟩,
      passes_free _ rfl _ _ _ (by decide), by decide, fifteen_noMerge 0 5, by decide⟩,
    queue_sound _ (by decide), ⟨rfl, rfl, rfl⟩, good_write 41472 .noMark, ⟨by decide, fun h => absurd h (by decide)⟩,
      passes_free _ rfl _ _ _ (by decide), by decide, rfl, by decide⟩

theorem witness_FullQueueAnswersRetry :
    sixteen.queueSound ∧ sixteen.takesRequests 0 ∧
      GoodWrite (writeOf 5 7 [full 1] .take) { line := 5, first := 7, count := 1 } [full 1] .take ∧
      sixteen.passesWindow 0 5 .take (sixteen.windows.governing 5).writeSet ∧ sixteen.passesHolds 0 5 .take ∧
      (sixteen.windows.governing 5).posting = .posted ∧ (∀ e, ¬ sixteen.mergesInto 0 5 e) ∧
      sixteen.queue.length = 16 :=
  ⟨queue_sound _ (by decide), ⟨rfl, rfl, rfl⟩, good_write 5 .take, ⟨by decide, fun _ => by decide⟩,
    passes_free _ rfl _ _ _ (by decide), by decide, sixteen_noMerge 0 5, by decide⟩

theorem witness_FenceAnsweredOrWaits :
    (fifteen.takesRequests 0 ∧ fifteen.mem.state = .normal ∧ ∀ e ∈ fifteen.queue, e.master ≠ 0) ∧
      (fifteen.takesRequests 1 ∧ fifteen.mem.state = .normal ∧ ∃ e ∈ fifteen.queue, e.master = 1) :=
  ⟨⟨⟨rfl, rfl, rfl⟩, rfl, by decide⟩, ⟨rfl, rfl, rfl⟩, rfl, by decide⟩

theorem witness_DropActsOnOwnEntry :
    ((holding (active 2 40960)).holdsSound ∧ (holding (active 2 40960)).takesRequests 2 ∧
      (holding (active 2 40960)).ownAt 2 40960 0 (active 2 40960)) ∧
    ((holding (broken 2 40960)).holdsSound ∧ (holding (broken 2 40960)).takesRequests 2 ∧
      (holding (broken 2 40960)).ownAt 2 40960 0 (broken 2 40960)) ∧
    ((holding (active 2 40960)).takesRequests 1 ∧ (holding (active 2 40960)).ownNone 1 40960) :=
  ⟨⟨sound_holding _, ⟨rfl, rfl, rfl⟩, by decide, rfl, rfl⟩, ⟨sound_holding _, ⟨rfl, rfl, rfl⟩, by decide, rfl, rfl⟩,
    ⟨rfl, rfl, rfl⟩, (ownHold_none _ _ _).mp (by decide)⟩

/-- Q and two ports claim at once, the rotation position being Q. -/
def contended : State :=
  { queued [entry 0 1 5 .posted .sealed] with
    ports := #v[.ready (twoWords 6), .idle, .idle, .ready (twoWords 7)]
    mem := { State.reset.mem with rotation := some .q } }

theorem witness_ArbiterChoosesOne :
    contended.claiming .q ∧ contended.claiming (.p 3) ∧ ∀ c, ¬ State.reset.claiming c :=
  ⟨(claims_iff _ _).mp (by decide), (claims_iff _ _).mp (by decide), fun c => by
    rw [← claims_iff, show State.reset.claims c = false by
      cases c with
      | q => decide
      | p m => revert m; decide]
    decide⟩

/-- The queue urgent at its level of 12, so that Q is chosen against the rotation; and one entry short of it. -/
theorem witness_GrantQIssuesOldestEntry :
    ({ contended with queue := fifteen.queue.take 12 } : State).chooses .q ∧
      ¬ ({ contended with queue := fifteen.queue.take 11 } : State).chooses .q :=
  ⟨(grantee_iff _ _).mp (by decide), (grantee_iff _ _).not.mp (by decide)⟩

theorem witness_GrantPIssuesRead : contended.chooses (.p 0) ∧ ¬ contended.chooses (.p 3) :=
  ⟨(grantee_iff _ _).mp (by decide), (grantee_iff _ _).not.mp (by decide)⟩

/-- The claimant farthest from the head of the search, Q itself. -/
theorem witness_RotationServesEveryClaimant :
    contended.chooses (.p 0) ∧ ¬ contended.isUrgent ∧ contended.claiming .q ∧
      exec (.grantP 0) contended = .next (contended.grant (.p 0)) ∧
      searchDistance contended.mem.rotation .q = 4 :=
  ⟨(grantee_iff _ _).mp (by decide), (urgent_iff _).not.mp (by decide), (claims_iff _ _).mp (by decide), rfl, by decide⟩

theorem witness_LateCompletionDiscarded :
    inReset.resetLine = true ∧ (State.reset.resetLine = false ∧ State.reset.mem.ops = []) ∧
      (fig49.resetLine = false ∧ (4 : Epoch) ≠ fig49.mem.epoch) := by decide

/-- A read outstanding for a waiting port, and for one that no longer waits; the words of its count, and one too few. -/
theorem witness_ReadCompletionAnswers :
    ((after (.grantP 2) ready2).resetLine = false ∧ (after (.grantP 2) ready2).mem.ops = [readOp 0 65600 2] ∧
      (after (.grantP 2) ready2).ports[(2 : Master)] = .issued (twoWords 65600) 0 ∧
      ([5, 6] : List Word).length = 2 ∧ ([5] : List Word).length ≠ 2) ∧
    ((after (.portResetAssert 2) (after (.grantP 2) ready2)).mem.ops =
        [{ readOp 0 65600 2 with kind := .read 0 2 false }]) := by decide

/-- A WRITE outstanding, with a read and a fence that wait on its entry, the fence on a second one too. -/
def writing : State :=
  { queued [entry 0 1 5 .posted .issued, entry 1 1 6 .posted .sealed] with
    ports := #v[.blocked (twoWords 5) [0], .fencing [0, 1], .idle, .idle]
    mem := { State.reset.mem with ops := [writeOp 0 0 5 1] } }

theorem witness_WriteCompletionRemovesEntry :
    writing.queueSound ∧ writing.resetLine = false ∧ writing.mem.ops = writeOp 0 0 5 1 :: [] ∧
      writing.queue = entry 0 1 5 .posted .issued :: [entry 1 1 6 .posted .sealed] ∧
      (writeOp 0 0 5 1).kind = .write (entry 0 1 5 .posted .issued).id :=
  ⟨queue_sound _ (by decide), rfl, rfl, rfl, rfl⟩

/-- A hold whose window ends before the limit of the oldest operation's timer. -/
def shortHold : State :=
  { fig49 with
    holds := fig49.holds.set 7 (some { active 2 40960 with state := .active { limit := 39, started := timer40.started } }) }

/-- A timer that can be the next to expire; none running; and one whose limit lies at the end of another's window. -/
theorem witness_HaltAnswersEveryPort :
    (∃ o rest, fig49.mem.ops = o :: rest ∧ fig49.mayExpire o.timer) ∧ State.reset.mem.ops = [] ∧
      (∀ o rest, shortHold.mem.ops = o :: rest → ¬ shortHold.mayExpire o.timer) ∧
      after .halt shortHold = shortHold := by
  refine ⟨⟨_, _, rfl, (timeAllows_some _ _).mp (by decide)⟩, rfl, ?_, by decide⟩
  intro o rest h
  obtain ⟨rfl, -⟩ := List.cons.inj h
  exact (timeAllows_some _ _).not.mp (by decide)

theorem witness_ResumeEndsHalt :
    (haltedState.takesFrames ∧ haltedState.mem.state = .halted) ∧
      (State.reset.takesFrames ∧ State.reset.mem.state = .normal) := by
  unfold State.takesFrames
  decide

/-- A hold of 250 µs behind an operation of 40 µs: the operation's timer is the next to expire. -/
def holdBehind : State := { holding (active 2 40960) with mem := { State.reset.mem with ops := [writeOp 0 0 1000 0] } }

theorem witness_HoldExpiryBreaksEntry :
    ((holding (active 2 40960)).holds[(0 : HoldSlot)] = some (active 2 40960) ∧
      (holding (active 2 40960)).mayExpire { limit := 250, started := { us := 0, sub := 0 } }) ∧
    (holding (broken 2 40960)).holds[(0 : HoldSlot)] = some (broken 2 40960) ∧
    State.reset.holds[(7 : HoldSlot)] = none ∧
    ¬ holdBehind.mayExpire { limit := 250, started := { us := 0, sub := 0 } } ∧
    after (.holdExpiry 0) holdBehind = holdBehind :=
  ⟨⟨by decide, (timeAllows_some _ _).mp (by decide)⟩, by decide, by decide, (timeAllows_some _ _).not.mp (by decide),
    by decide⟩

theorem witness_PortResetAbandonsRequest :
    (∀ (i : HoldSlot) (h : Hold), (holding (broken 2 40960)).holds[i] = some h → h.owner = 2 → h.state = .broken) ∧
      ∃ (i : HoldSlot) (h : Hold), (holding (active 2 40960)).holds[i] = some h ∧ h.owner = 2 ∧ h.state ≠ .broken :=
  ⟨fun i h hh _ => (holding_only _ h i hh).2 ▸ rfl, 0, active 2 40960, by decide, rfl, by decide⟩

theorem witness_DeassertionChangesLevelOnly :
    (prst3.resetLine = false ∧ prst3.ports[(3 : Master)] = .idle) ∧
      (inReset.prst[(0 : Master)] = false ∧ inReset.ports[(0 : Master)] = .idle) := by decide

theorem witness_FramesIgnoredUnderReset :
    inReset.resetLine = true ∧ inReset.link.phase = .waiting ∧ (List.replicate 20 (0 : Byte)).length ≤ 20 ∧
      (List.replicate 7 true).length < 8 ∧
      ((after .resetAssert frameBegun).resetLine = true ∧ (after .resetAssert frameBegun).link.phase = .ignoring) ∧
      selectHeld.resetLine = false ∧ selectHeld.link.phase = .ignoring := by decide

/-- A frame in progress, and select released with none. -/
theorem witness_FrameFaultAnswered_pieces :
    frameBegun.link.phase ≠ .waiting ∧ State.reset.linkSound ∧ State.reset.link.phase = .waiting ∧
      State.reset.takesFrames :=
  ⟨by decide, released_sound State.reset.link, rfl, rfl, rfl⟩

/-- A frame one byte short; an argument length of 21; a wrong sum; a code that names no command. -/
theorem witness_FrameFaultAnswered :
    (∀ (code tag n : Byte) (rest : List Byte), ([0x42, 5, 0] : List Byte) = code :: tag :: n :: rest →
      ([0x42, 5, 0] : List Byte).length ≠ 4 + n.toNat) ∧
    ¬ ((21 : Byte).toNat ≤ 20) ∧
    (([0x42, 5, 0, 0] : List Byte).map BitVec.toNat).sum % 256 ≠ 0 ∧
    ((([0x43, 5, 0, 0xB8] : List Byte).map BitVec.toNat).sum % 256 = 0 ∧ LinkCommand.ofCode 0x43 = none) := by
  refine ⟨?_, by decide, by decide, by decide, by decide⟩
  intro code tag n rest h
  simp only [List.cons.injEq] at h
  obtain ⟨-, -, rfl, rfl⟩ := h
  decide

theorem witness_FrameDecodesToItsCommand :
    (List.replicate 20 (0xFF : Byte)).length ≤ 20 ∧
      decodeFrame (encodeFrame .nop 0xFF (List.replicate 20 0xFF)) = some (.nop 0xFF (List.replicate 20 0xFF)) := by
  decide

/-- Whole bytes, select released or not; and bits left over, select released. -/
theorem witness_BitsActAsTheirCommand :
    (decodeFrame (encodeFrame .freeze 5 []) = some (.freeze 5 []) ∧ (encodeFrame .freeze 5 []).length % 8 = 0) ∧
      decodeFrame (encodeFrame .freeze 5 [] ++ [true]) = some (.freeze 5 []) ∧ State.reset.link.phase = .waiting := by
  decide

/-- The longest response: 71 bytes of READ_STATUS with a full queue. -/
theorem witness_ResponseFrameLayout :
    (after (.readStatus 5 []) sixteen).link.response.data.length = 71 := by decide

theorem witness_WrongArgumentLengthAnswered :
    State.reset.takesFrames ∧ ([0] : List Byte).length ≤ 20 ∧ LinkCommand.argLength .identify = some 0 ∧
      ([0] : List Byte).length ≠ 0 := by
  unfold State.takesFrames
  decide

theorem witness_NopAnswersOk : State.reset.takesFrames ∧ (List.replicate 20 (7 : Byte)).length ≤ 20 := by
  unfold State.takesFrames
  decide

/-- The first item, the last item, and a code beside them. -/
theorem witness_GetReturnsItem :
    State.reset.takesFrames ∧ (0x01, 250) ∈ State.reset.itemReport ∧ (0x15, 0) ∈ State.reset.itemReport ∧
      ∀ value, (0x05, value) ∉ State.reset.itemReport := by
  refine ⟨⟨rfl, rfl⟩, by decide, by decide, fun value h => ?_⟩
  simp [State.itemReport] at h

theorem witness_SetReplacesItem :
    State.reset.takesFrames ∧ (255 : BitVec 16).toNat < 256 ∧ 256 ≤ (256 : BitVec 16).toNat ∧
      (0x10 : Byte) ∉ ([0x01, 0x02, 0x03, 0x04] : List Byte) := by
  unfold State.takesFrames
  decide

theorem witness_LoadWindowReplacesRecord :
    State.reset.takesFrames ∧ State.reset.windows.frozen = false ∧ window3.base ≤ window3.limit ∧
      (List.replicate 7 (0xFF : Byte)).length = 7 := by
  unfold State.takesFrames
  decide

/-- Window number 9, with fourteen argument bytes. -/
theorem witness_LoadWindowRefused :
    State.reset.takesFrames ∧ (9 :: List.replicate 13 (0 : Byte)).length = 14 ∧
      (¬ ∃ (i : Fin 8) (w : Window), w.base ≤ w.limit ∧
        9 :: List.replicate 13 (0 : Byte) = BitVec.ofNat 8 i.val :: windowArgs w) ∧
      (¬ ∃ (ignored : List Byte) (a : Attributes), ignored.length = 7 ∧
        9 :: List.replicate 13 (0 : Byte) = 8 :: (ignored ++ attributeArgs a)) ∧
      ({ State.reset with windows := { State.reset.windows with frozen := true } } : State).windows.frozen = true := by
  refine ⟨⟨rfl, rfl⟩, by decide, ?_, ?_, rfl⟩
  · rintro ⟨i, w, -, h⟩
    have h9 : ∀ i : Fin 8, (9 : Byte) ≠ BitVec.ofNat 8 i.val := by decide
    exact h9 i (List.cons.inj h).1
  · rintro ⟨x, a, -, h⟩
    exact absurd (List.cons.inj h).1 (by decide)

theorem witness_ReadWindowReturnsRecord : State.reset.takesFrames ∧ 8 < (9 : Byte).toNat := by
  unfold State.takesFrames
  decide

theorem witness_DisableAndFreeze :
    State.reset.takesFrames ∧ State.reset.windows.frozen = false ∧ 7 < (8 : Byte).toNat ∧
      ({ State.reset with windows := { State.reset.windows with frozen := true } } : State).windows.frozen = true := by
  unfold State.takesFrames
  decide

/-- An ACTIVE entry at the moment its timer may expire and one step before; a BROKEN one; an empty slot; slot 8. -/
theorem witness_ReadHoldReturnsEntry :
    ((holding (active 2 40960)).takesFrames ∧
      (holding (active 2 40960)).holds[(0 : HoldSlot)] = some (active 2 40960)) ∧
    Timer.due { limit := 250, started := { us := 0, sub := 0 } } { us := 250, sub := 0 } = true ∧
    Timer.due { limit := 250, started := { us := 0, sub := 0 } } { us := 249, sub := 9 } = false ∧
    (holding (broken 2 40960)).holds[(0 : HoldSlot)] = some (broken 2 40960) ∧
    (holding (active 2 40960)).holds[(7 : HoldSlot)] = none ∧ 7 < (8 : Byte).toNat := by
  unfold State.takesFrames
  decide

theorem witness_BreakAndClearHolds :
    (holding (active 2 40960)).takesFrames ∧
      (holding (active 2 40960)).holds[(0 : HoldSlot)] = some (active 2 40960) ∧
      (holding (active 2 40960)).holds[(1 : HoldSlot)] = none ∧ 7 < (8 : Byte).toNat := by
  unfold State.takesFrames
  decide

theorem witness_PeekReturnsOldestRecord :
    (listed.takesFrames ∧ listed.incidents.records = record 7 (.overrun 1) :: []) ∧
      State.reset.incidents.records = [] := by
  unfold State.takesFrames
  decide

theorem witness_DiscardRemovesNamedRecord :
    (listed.takesFrames ∧ listed.incidents.records = record 7 (.overrun 1) :: [] ∧
      (record 7 (.overrun 1)).seq = 7) ∧
    (record 7 (.overrun 1)).seq ≠ 8 ∧ State.reset.incidents.records = [] := by
  unfold State.takesFrames
  decide

theorem witness_ClearOverflowReturnsCount : listed.takesFrames ∧ listed.incidents.overflow = 2 := by
  unfold State.takesFrames
  decide

theorem witness_ReadStatusReports : sixteen.takesFrames ∧ sixteen.queue.length = 16 := by
  unfold State.takesFrames
  decide

theorem witness_IdentifyReturnsPartCode : State.reset.takesFrames := by
  unfold State.takesFrames
  decide

/-- The table frozen, with a command that would change it waiting. -/
def frozenState : State :=
  { State.reset with
    windows := { State.reset.windows with frozen := true }
    pending := [.disableWindow 5 [3]] }

theorem witness_FrozenTableKept :
    frozenState.windows.frozen = true ∧ frozenState.pending.head? ≠ some .resetAssert ∧
      ∃ t, step frozenState = .next t := ⟨rfl, by decide, _, rfl⟩

/-- A state with a queue, operations, ports and a hold in use that meets every invariant, and its step. -/
def busy : State :=
  { holding (active 2 40960) with
    queue := [entry 0 0 1000 .posted .issued, entry 1 3 41472 .unposted .sealed, entry 2 1 65537 .posted .opened]
    nextId := 3
    ports := #v[.fencing [0], .idle, .issued (twoWords 65600) 1, .unposted (twoWords 41472) 1]
    mem := { State.reset.mem with ops := [writeOp 0 0 1000 0, readOp 1 65600 2] }
    pending := [.completion 0 0 .good []] }

theorem busy_ports : ∀ m : Master, busy.portSound m := by
  intro m
  fin_cases m
  · exact ⟨by decide, fun id h => ⟨_, List.mem_cons_self, by simpa [entry, eq_comm] using h⟩⟩
  · trivial
  · exact ⟨readOp 1 65600 2, by simp [busy], rfl, rfl, rfl, rfl⟩
  · exact ⟨entry 1 3 41472 .unposted .sealed, by simp [busy], rfl, rfl, rfl⟩

theorem witness_StepKeepsHoldsSound : busy.holdsSound ∧ ∃ t, step busy = .next t :=
  ⟨sound_holding (active 2 40960), _, rfl⟩

theorem witness_StepKeepsQueueSound : busy.queueSound ∧ ∃ t, step busy = .next t :=
  ⟨queue_sound _ (by decide), _, rfl⟩

theorem witness_StepKeepsMemorySound :
    busy.queueSound ∧ busy.memSound ∧ busy.issueSound ∧ ∃ t, step busy = .next t := by
  refine ⟨queue_sound _ (by decide), ⟨by decide, by decide, by decide, by decide, by decide⟩,
    ⟨?_, ?_⟩, _, rfl⟩
  · intro o ho id hk
    refine ⟨_, _, rfl, ?_⟩
    simp only [busy, List.mem_cons, List.not_mem_nil, or_false] at ho
    rcases ho with rfl | rfl
    · exact ⟨OpKind.write.inj hk, rfl, rfl, rfl⟩
    · simp [readOp] at hk
  · intro e he hi
    refine ⟨writeOp 0 0 1000 0, by simp [busy], ?_⟩
    simp only [busy, List.mem_cons, List.not_mem_nil, or_false] at he
    rcases he with rfl | rfl | rfl
    · rfl
    · simp [entry] at hi
    · simp [entry] at hi

theorem witness_StepKeepsPortsSound : busy.portsSound ∧ ∃ t, step busy = .next t := by
  refine ⟨⟨by decide, by decide, by decide, busy_ports, ?_, by decide, by decide⟩, _, rfl⟩
  intro o ho i n hk
  simp only [busy, List.mem_cons, List.not_mem_nil, or_false] at ho
  rcases ho with rfl | rfl
  · simp [writeOp] at hk
  · exact ⟨twoWords 65600, rfl⟩

theorem witness_StepKeepsValuesAndAlert :
    State.reset.valuesSound ∧ listed.incidentsSound ∧ State.reset.linkSound ∧ State.reset.queueSound ∧
      State.reset.responseSound ∧ ∃ t, step { listed with pending := [.clearOverflow 5 []] } = .next t := by
  refine ⟨?_, ⟨by decide, by decide⟩, released_sound State.reset.link, queue_sound _ (by decide),
    ⟨by decide, fun _ => rfl⟩, _, rfl⟩
  unfold State.valuesSound
  decide

theorem witness_StepKeepsReset :
    inReset.heldInReset ∧ ∃ t, step { inReset with pending := [.identify 5 []] } = .next t :=
  ⟨fun _ => ⟨rfl, rfl, rfl, rfl, rfl, rfl, rfl, by decide, rfl⟩, _, rfl⟩

end Sys2Proof.Tests
end

section
/-! SUPPORT. The five requests arrive in one way: each runs `State.request` on its master's port, with its own acceptance
behind it. What arrival alone decides (R18, R21, R22) is then said for all of them at once. -/

namespace Sys2Proof.Machine

/-- A request command is the arrival on its master's port of one acceptance, the same in every state (R1). -/
theorem exec_request (i : Instr) (m : Master) (h : requestOf i = some m) :
    ∃ accept : State → State, ∀ s, exec i s = .next (s.request m accept) := by
  cases i with
  | read n f =>
    obtain rfl : n = m := Option.some.inj h
    exact ⟨fun t => t.acceptRead n f, fun _ => rfl⟩
  | write n f =>
    obtain rfl : n = m := Option.some.inj h
    exact ⟨fun t => t.acceptWrite n f, fun _ => rfl⟩
  | fence n f =>
    obtain rfl : n = m := Option.some.inj h
    exact ⟨fun t => t.acceptFence n f, fun _ => rfl⟩
  | drop n f =>
    obtain rfl : n = m := Option.some.inj h
    exact ⟨fun t => t.acceptDrop n f, fun _ => rfl⟩
  | malformedRequest n f =>
    obtain rfl : n = m := Option.some.inj h
    exact ⟨fun t => t.answer n (.refused .malformed), fun _ => rfl⟩
  | _ => exact absurd h (by simp [requestOf])

/-- Settles O6: a port that is not IDLE answers at the arrival, before any acceptance is looked at (R18), so the five
requests need no case of their own beyond `exec_request`. -/
theorem overrunAnswered : Obligations.OverrunAnswered := by
  intro s i m hi hreset hprst hbusy
  obtain ⟨accept, hexec⟩ := exec_request i m hi
  have harrival : s.request m accept = (s.told m (.refused .overrun)).raise (.overrun m) := by
    rw [request_overrun s m accept hreset hprst hbusy, answer_eq_told]
  exact ⟨_, (hexec s).trans (congrArg _ harrival), Raised.one _ (.overrun m)⟩

end Sys2Proof.Machine
end

section
/-! SUPPORT. A DROP that is taken consults one thing alone, the entry its master owns on the line: two rules say what
each finding leads to (R95, R103), with no hypothesis on the windows, the Memory Port or the queue. -/

namespace Sys2Proof.Machine

theorem dropForm_dropFields (l : Line) : dropForm (dropFields l) = some l := (dropForm_iff _ l).mpr rfl

/-- A DROP of good form on a port that takes requests passes arrival and stage 1. -/
theorem exec_drop_taken (s : State) (m : Master) (l : Line) (ht : s.takesRequests m) :
    exec (.drop m (dropFields l)) s = .next (s.acceptDrop m (dropFields l)) :=
  congrArg _ (request_accepted s m (fun t => t.acceptDrop m (dropFields l)) ht)

theorem acceptDrop_ownNone (s : State) (m : Master) (l : Line) (hn : s.ownNone m l) :
    s.acceptDrop m (dropFields l) = s.told m (.refused .notHeld) := by
  have hown : s.ownHold m l = none := (ownHold_none s m l).mpr hn
  rw [← answer_eq_told]
  simp only [State.acceptDrop, dropForm_dropFields, hown]

/-- In a sound table the entry found is the one named (R90), and it leaves its slot whatever its state. -/
theorem acceptDrop_ownAt (s : State) (m : Master) (l : Line) (i : HoldSlot) (h : Hold)
    (hs : s.holdsSound) (ho : s.ownAt m l i h) :
    s.acceptDrop m (dropFields l) =
      { s.told m (if h.isActive then .done [] else .lost) with holds := s.holds.set i none } := by
  have hown : s.ownHold m l = some (i, h) := ownHold_of_ownAt s m l i h hs ho
  simp only [State.acceptDrop, dropForm_dropFields, hown]
  rfl

/-- Settles O19, by what the DROP finds: its master's entry ACTIVE, its entry BROKEN, or no entry. -/
theorem dropActsOnOwnEntry : Obligations.DropActsOnOwnEntry := by
  intro s m l hs ht
  rw [exec_drop_taken s m l ht]
  refine ⟨fun i h r ho hactive => ?active, fun i h ho hbroken => ?broken, fun hn => ?none⟩
  case active =>
    have hisActive : h.isActive = true := (isActive_iff h).mpr (by simp [hactive])
    rw [acceptDrop_ownAt s m l i h hs ho, if_pos hisActive]
  case broken =>
    have hnotActive : ¬ h.isActive = true := fun ha => (isActive_iff h).mp ha hbroken
    rw [acceptDrop_ownAt s m l i h hs ho, if_neg hnotActive]
  case none => rw [acceptDrop_ownNone s m l hn]

end Sys2Proof.Machine
end

section
/-! SUPPORT. A command of the control link is carried out without a look at the Link Unit, so one rule leads from what
the command does and answers to the state after its whole frame (R155, R157, R159). -/

namespace Sys2Proof.Machine

/-- The sixteen commands of the control link run alike: each is the frame of its own code received (R155). -/
theorem exec_instr (c : LinkCommand) (tag : Byte) (args : List Byte) (s : State) :
    exec (c.instr tag args) s = .next (s.receiveCommand c tag args) := by
  cases c <;> rfl

theorem argLength_le {c : LinkCommand} {n : Nat} (h : c.argLength = some n) : n ≤ 20 := by
  cases c <;> simp [LinkCommand.argLength] at h <;> omega

theorem takes_of_argLength {c : LinkCommand} {n : Nat} (h : c.argLength = some n) : c.takes n = true := by
  simp [LinkCommand.takes, h]

/-- A frame taken, of the argument length Figure 46 gives for its command, ends in what the command does and in its
reply. -/
theorem exec_instr_replied {s effect : State} {c : LinkCommand} {args data : List Byte} {status : Status} (tag : Byte)
    (ht : s.takesFrames) (hlength : c.argLength = some args.length)
    (hrun : ∀ l : Link,
      { s with link := l }.runCommand c args = ({ effect with link := l }, { status := status, data := data })) :
    exec (c.instr tag args) s = .next (s.replied (4 + args.length) tag status data effect) := by
  rw [exec_instr, receiveCommand_eq s c tag args ht (argLength_le hlength), if_pos (takes_of_argLength hlength), hrun]
  rfl

end Sys2Proof.Machine
end

section
/-! SUPPORT. What DISCARD_INCIDENT does to the list in each of its three cases (R148). -/

namespace Sys2Proof.Machine

theorem discardIncident_named {s : State} {args : List Byte} {r : Record} {rest : List Record}
    (hlist : s.incidents.records = r :: rest) (hseq : r.seq.toNat = leValue args) :
    discardIncident s args =
      ({ s with incidents := { s.incidents with records := rest } }.judgeAlert, { status := .ok, data := [] }) := by
  simp only [discardIncident, hlist, if_pos hseq]

theorem discardIncident_otherNumber {s : State} {args : List Byte} {r : Record} {rest : List Record}
    (hlist : s.incidents.records = r :: rest) (hseq : r.seq.toNat ≠ leValue args) :
    discardIncident s args = (s, { status := .badValue, data := [] }) := by
  simp only [discardIncident, hlist, if_neg hseq]

theorem discardIncident_empty {s : State} (args : List Byte) (hlist : s.incidents.records = []) :
    discardIncident s args = (s, { status := .empty, data := [] }) := by
  simp only [discardIncident, hlist]

/-- Two argument bytes name a record exactly when they spell its number. -/
theorem seq_eq_leValue_iff (r : Record) (seq : BitVec 16) : r.seq.toNat = leValue (bytes16 seq) ↔ r.seq = seq := by
  rw [leValue_bytes16, BitVec.toNat_inj]

/-- Settles O50, by what the list holds at its old end: the record named, another one, or none. -/
theorem discardRemovesNamedRecord : Obligations.DiscardRemovesNamedRecord := by
  intro s tag seq ht
  refine ⟨fun r rest hlist hseq => ?named, fun r rest hlist hseq => ?other, fun hlist => ?empty⟩
  case named =>
    have hnumber := (seq_eq_leValue_iff r seq).mpr hseq
    exact ⟨alertCondition rest s.incidents.overflow s.settings.alertMask,
      exec_instr_replied (c := .discardIncident) tag ht rfl
        fun l => discardIncident_named (s := { s with link := l }) hlist hnumber,
      alertCondition_iff _ _ _⟩
  case other =>
    have hnumber := mt (seq_eq_leValue_iff r seq).mp hseq
    exact exec_instr_replied (c := .discardIncident) tag ht rfl
      fun l => discardIncident_otherNumber (s := { s with link := l }) hlist hnumber
  case empty =>
    exact exec_instr_replied (c := .discardIncident) tag ht rfl
      fun l => discardIncident_empty (s := { s with link := l }) (bytes16 seq) hlist

end Sys2Proof.Machine
end

section
/-! SUPPORT. The overflow count as the control link shows it: GET and READ_STATUS report it, SET refuses it, and
CLEAR_OVERFLOW alone takes it away (R149, R164 to R166). -/

namespace Sys2Proof.Machine

theorem getItem_overflow (s : State) :
    getItem s [0x15] = (s, { status := .ok, data := [s.incidents.overflow, 0] }) := by
  have hbytes : leBytes 2 s.incidents.overflow.toNat = [s.incidents.overflow, 0] := by
    simp [leBytes, Nat.div_eq_of_lt s.incidents.overflow.isLt]
  exact congrArg (fun data => (s, ({ status := .ok, data := data } : Reply))) hbytes

/-- OVERFLOW is no settings item, so its value is not looked at (R165). -/
theorem setItem_overflow (s : State) (v : BitVec 16) :
    setItem s (0x15 :: bytes16 v) = (s, { status := .badItem, data := [] }) := rfl

/-- The report of READ_STATUS ends in the overflow count (Figure 46, part E). -/
theorem statusBytes_getLast (s : State) : s.statusBytes.getLast? = some s.incidents.overflow := by
  simp [State.statusBytes, List.getLast?_cons]

/-- With no overflow, ALERT shows the stored records alone (R151). -/
theorem alertCondition_noOverflow_iff (rs : List Record) (mask : BitVec 8) :
    alertCondition rs 0 mask = true ↔ ∃ r ∈ rs, mask.getLsbD r.incident.maskBit = true := by
  rw [alertCondition_iff, or_iff_left (not_not_intro rfl)]

/-- Settles O51, command by command: CLEAR_OVERFLOW, GET, READ_STATUS and SET. -/
theorem clearOverflowReturnsCount : Obligations.ClearOverflowReturnsCount := by
  intro s tag ht
  refine ⟨?clear, ?get, ?status, fun v => ?set⟩
  case clear =>
    exact ⟨alertCondition s.incidents.records 0 s.settings.alertMask,
      exec_instr_replied (c := .clearOverflow) tag ht rfl fun _ => rfl,
      alertCondition_noOverflow_iff _ _⟩
  case get =>
    exact exec_instr_replied (c := .getItem) tag ht rfl
      fun l => getItem_overflow { s with link := l }
  case status =>
    refine ⟨s.statusBytes.dropLast, ?_⟩
    rw [List.dropLast_append_getLast? _ (statusBytes_getLast s)]
    exact exec_instr_replied (c := .readStatus) tag ht rfl fun _ => rfl
  case set =>
    exact exec_instr_replied (c := .setItem) tag ht rfl
      fun l => setItem_overflow { s with link := l } v

end Sys2Proof.Machine
end

section
/-! SUPPORT. The ten items of GET as Figure 46, part D lists them: the report is the list of the items, each with its
code and its value in 16 bits, and a code names an item exactly when it stands in that list (R164). -/

namespace Sys2Proof.Machine

/-- The ten items in the order of Figure 46, part D. -/
def allItems : List Item :=
  [.holdLimit, .memTimeout, .urgentLevel, .alertMask, .queueCount, .holdCount, .memState, .epoch, .frozen, .overflow]

/-- The code of an item (Figure 46, part D). -/
def Item.code : Item → Byte
  | .holdLimit => 0x01
  | .memTimeout => 0x02
  | .urgentLevel => 0x03
  | .alertMask => 0x04
  | .queueCount => 0x10
  | .holdCount => 0x11
  | .memState => 0x12
  | .epoch => 0x13
  | .frozen => 0x14
  | .overflow => 0x15

theorem mem_allItems (i : Item) : i ∈ allItems := by cases i <;> decide

theorem itemOfCode_code (i : Item) : itemOfCode i.code = some i := by cases i <;> rfl

theorem code_of_itemOfCode {code : Byte} {i : Item} (h : itemOfCode code = some i) : i.code = code := by
  revert h i
  revert code
  decide

theorem memStateByte_setWidth (x : MemState) : x.byte.setWidth 16 = if x = .halted then 1 else 0 := by
  cases x <;> rfl

theorem flagByte_setWidth (b : Bool) : (flagByte b).setWidth 16 = if b = true then 1 else 0 := by
  cases b <;> rfl

/-- The report is the items' own table: what `itemOfCode` and `itemValue` say of each item, in order. -/
theorem itemReport_eq_map (s : State) :
    s.itemReport = allItems.map (fun i => (i.code, BitVec.ofNat 16 (s.itemValue i))) := by
  simp only [State.itemReport, allItems, List.map_cons, List.map_nil, Item.code, State.itemValue,
    BitVec.ofNat_toNat, BitVec.setWidth_eq, memStateByte_setWidth, flagByte_setWidth]

theorem mem_itemReport_iff (s : State) (code : Byte) (value : BitVec 16) :
    (code, value) ∈ s.itemReport ↔ ∃ i, itemOfCode code = some i ∧ value = BitVec.ofNat 16 (s.itemValue i) := by
  rw [itemReport_eq_map, List.mem_map]
  constructor
  · rintro ⟨i, -, hpair⟩
    obtain ⟨rfl, rfl⟩ := Prod.mk.inj hpair
    exact ⟨i, itemOfCode_code i, rfl⟩
  · rintro ⟨i, hcode, rfl⟩
    exact ⟨i, mem_allItems i, by rw [code_of_itemOfCode hcode]⟩

theorem getItem_known (s : State) {code : Byte} {i : Item} (h : itemOfCode code = some i) :
    getItem s [code] = (s, { status := .ok, data := bytes16 (BitVec.ofNat 16 (s.itemValue i)) }) := by
  simp only [getItem, h, leBytes2]

theorem getItem_unknown (s : State) {code : Byte} (h : itemOfCode code = none) :
    getItem s [code] = (s, { status := .badItem, data := [] }) := by
  simp only [getItem, h]

/-- No item is a value of the Link Unit. -/
@[simp] theorem itemValue_link (s : State) (l : Link) (i : Item) :
    State.itemValue { s with link := l } i = s.itemValue i := by
  cases i <;> rfl

/-- Settles O41, by whether the code names an item: a code of the report does, with that value, and any other code
names none. -/
theorem getReturnsItem : Obligations.GetReturnsItem := by
  intro s tag ht
  refine ⟨fun code value hmem => ?known, fun code hmem => ?unknown⟩
  case known =>
    obtain ⟨i, hcode, rfl⟩ := (mem_itemReport_iff s code value).mp hmem
    refine exec_instr_replied (c := .getItem) tag ht rfl fun l => ?_
    exact (getItem_known { s with link := l } hcode).trans (by rw [itemValue_link])
  case unknown =>
    have hcode : itemOfCode code = none :=
      Option.eq_none_iff_forall_ne_some.mpr fun i hi =>
        hmem _ ((mem_itemReport_iff s code _).mpr ⟨i, hi, rfl⟩)
    exact exec_instr_replied (c := .getItem) tag ht rfl
      fun l => getItem_unknown { s with link := l } hcode

end Sys2Proof.Machine
end

section
/-! SUPPORT. The three commands that report without a choice: READ_STATUS, NOP and IDENTIFY do one thing in every state
whose Link Unit takes the frame (R163, R166, R167). -/

namespace Sys2Proof.Machine

theorem readStatus_eq (s : State) : readStatus s = (s, { status := .ok, data := s.statusReport }) := by
  rw [readStatus, statusBytes_eq]

/-- Settles O52: the bytes written are the report of Figure 46, part E (`statusBytes_eq`), in which each queue entry
takes four. -/
theorem readStatusReports : Obligations.ReadStatusReports := by
  intro s tag ht
  refine ⟨?reply, statusReport_length s⟩
  case reply =>
    exact exec_instr_replied (c := .readStatus) tag ht rfl fun l => readStatus_eq { s with link := l }

/-- NOP alone has no argument length of its own, so no length is wrong for it (R159, Figure 46, part B). -/
theorem nop_takes (n : Nat) : LinkCommand.nop.takes n = true := rfl

/-- Settles O40: every frame of a NOP is taken, of whatever length the frame form allows, and NOP looks at no
argument. -/
theorem nopAnswersOk : Obligations.NopAnswersOk := by
  intro s tag args ht hlength
  have hreceived : s.receiveCommand .nop tag args = s.replied (4 + args.length) tag .ok [] s := by
    rw [receiveCommand_eq s .nop tag args ht hlength, if_pos (nop_takes args.length)]
    rfl
  exact (exec_instr .nop tag args s).trans (congrArg _ hreceived)

/-- Settles O53: IDENTIFY answers two constants of the part and looks at no state (R167). -/
theorem identifyReturnsPartCode : Obligations.IdentifyReturnsPartCode := by
  intro s tag ht
  have hrun (l : Link) : { s with link := l }.runCommand .identify [] =
      ({ s with link := l }, { status := .ok, data := [0x24, 0x01] }) := rfl
  exact exec_instr_replied (c := .identify) tag ht rfl hrun

end Sys2Proof.Machine
end

section
/-! SUPPORT. What an operation of the unit does to one block, block by block: the conjuncts of the `_parts` facts under
names of their own, for rewriting. -/

namespace Sys2Proof.Machine

/-! ### The effect on a hold -/

@[simp] theorem applyHold_mem (s : State) (m : Master) (l : Line) (e : HoldEffect) :
    (s.applyHold m l e).mem = s.mem := by
  simp only [applyHold_parts]

@[simp] theorem applyHold_ports (s : State) (m : Master) (l : Line) (e : HoldEffect) :
    (s.applyHold m l e).ports = s.ports := by
  simp only [applyHold_parts]

/-! ### A matched completion -/

@[simp] theorem complete_windows (s : State) (o : Op) (status : MemStatus) (words : List Word) :
    (s.complete o status words).windows = s.windows := by
  simp only [complete_parts]

@[simp] theorem complete_settings (s : State) (o : Op) (status : MemStatus) (words : List Word) :
    (s.complete o status words).settings = s.settings := by
  simp only [complete_parts]

@[simp] theorem complete_resetLine (s : State) (o : Op) (status : MemStatus) (words : List Word) :
    (s.complete o status words).resetLine = s.resetLine := by
  simp only [complete_parts]

@[simp] theorem complete_holds (s : State) (o : Op) (status : MemStatus) (words : List Word) :
    (s.complete o status words).holds = s.holds := by
  simp only [complete_parts]

@[simp] theorem complete_mem (s : State) (o : Op) (status : MemStatus) (words : List Word) :
    (s.complete o status words).mem = s.mem := by
  simp only [complete_parts]

@[simp] theorem complete_nextId (s : State) (o : Op) (status : MemStatus) (words : List Word) :
    (s.complete o status words).nextId = s.nextId := by
  simp only [complete_parts]

@[simp] theorem complete_prst (s : State) (o : Op) (status : MemStatus) (words : List Word) :
    (s.complete o status words).prst = s.prst := by
  simp only [complete_parts]

@[simp] theorem complete_link (s : State) (o : Op) (status : MemStatus) (words : List Word) :
    (s.complete o status words).link = s.link := by
  simp only [complete_parts]

/-! ### A halt -/

@[simp] theorem halt_windows (s : State) : s.halt.windows = s.windows := by simp only [halt_parts]

@[simp] theorem halt_settings (s : State) : s.halt.settings = s.settings := by simp only [halt_parts]

@[simp] theorem halt_resetLine (s : State) : s.halt.resetLine = s.resetLine := by simp only [halt_parts]

@[simp] theorem halt_holds (s : State) : s.halt.holds = s.holds := by simp only [halt_parts]

@[simp] theorem halt_nextId (s : State) : s.halt.nextId = s.nextId := by simp only [halt_parts]

@[simp] theorem halt_prst (s : State) : s.halt.prst = s.prst := by simp only [halt_parts]

@[simp] theorem halt_link (s : State) : s.halt.link = s.link := by simp only [halt_parts]

/-! ### A grant -/

@[simp] theorem grant_windows (s : State) (c : Claimant) : (s.grant c).windows = s.windows := by simp only [grant_parts]

@[simp] theorem grant_settings (s : State) (c : Claimant) : (s.grant c).settings = s.settings := by
  simp only [grant_parts]

@[simp] theorem grant_resetLine (s : State) (c : Claimant) : (s.grant c).resetLine = s.resetLine := by
  simp only [grant_parts]

@[simp] theorem grant_holds (s : State) (c : Claimant) : (s.grant c).holds = s.holds := by simp only [grant_parts]

@[simp] theorem grant_nextId (s : State) (c : Claimant) : (s.grant c).nextId = s.nextId := by simp only [grant_parts]

@[simp] theorem grant_prst (s : State) (c : Claimant) : (s.grant c).prst = s.prst := by simp only [grant_parts]

@[simp] theorem grant_link (s : State) (c : Claimant) : (s.grant c).link = s.link := by simp only [grant_parts]

@[simp] theorem grant_incidents (s : State) (c : Claimant) : (s.grant c).incidents = s.incidents := by
  simp only [grant_parts]

/-! ### A hold expiry -/

@[simp] theorem expireHold_windows (s : State) (i : HoldSlot) : (s.expireHold i).windows = s.windows := by
  simp only [expireHold_parts]

@[simp] theorem expireHold_settings (s : State) (i : HoldSlot) : (s.expireHold i).settings = s.settings := by
  simp only [expireHold_parts]

@[simp] theorem expireHold_resetLine (s : State) (i : HoldSlot) : (s.expireHold i).resetLine = s.resetLine := by
  simp only [expireHold_parts]

@[simp] theorem expireHold_prst (s : State) (i : HoldSlot) : (s.expireHold i).prst = s.prst := by
  simp only [expireHold_parts]

@[simp] theorem expireHold_link (s : State) (i : HoldSlot) : (s.expireHold i).link = s.link := by
  simp only [expireHold_parts]

@[simp] theorem expireHold_mem (s : State) (i : HoldSlot) : (s.expireHold i).mem = s.mem := by
  simp only [expireHold_parts]

@[simp] theorem expireHold_ports (s : State) (i : HoldSlot) : (s.expireHold i).ports = s.ports := by
  simp only [expireHold_parts]

/-! ### A port reset -/

@[simp] theorem portReset_windows (s : State) (m : Master) : (s.portReset m).windows = s.windows := by
  simp only [portReset_parts]

@[simp] theorem portReset_settings (s : State) (m : Master) : (s.portReset m).settings = s.settings := by
  simp only [portReset_parts]

@[simp] theorem portReset_resetLine (s : State) (m : Master) : (s.portReset m).resetLine = s.resetLine := by
  simp only [portReset_parts]

@[simp] theorem portReset_prst (s : State) (m : Master) : (s.portReset m).prst = s.prst.set m true := by
  simp only [portReset_parts]

@[simp] theorem portReset_link (s : State) (m : Master) : (s.portReset m).link = s.link := by
  simp only [portReset_parts]

@[simp] theorem portReset_ports (s : State) (m : Master) : (s.portReset m).ports = s.ports.set m .idle := by
  simp only [portReset_parts]

@[simp] theorem portReset_mem (s : State) (m : Master) :
    (s.portReset m).mem = { s.mem with ops := s.mem.ops.map (Op.orphan m) } := by
  simp only [portReset_parts]

@[simp] theorem portReset_holds (s : State) (m : Master) :
    (s.portReset m).holds = Vector.ofFn (fun i : HoldSlot => dropOwned m s.holds[i]) := by
  simp only [portReset_parts]

/-! ### An operation whose master is reset -/

@[simp] theorem orphan_slot (m : Master) (o : Op) : (Op.orphan m o).slot = o.slot := by simp only [orphan_parts]

@[simp] theorem orphan_epoch (m : Master) (o : Op) : (Op.orphan m o).epoch = o.epoch := by simp only [orphan_parts]

@[simp] theorem orphan_line (m : Master) (o : Op) : (Op.orphan m o).line = o.line := by simp only [orphan_parts]

@[simp] theorem orphan_master (m : Master) (o : Op) : (Op.orphan m o).master = o.master := by simp only [orphan_parts]

theorem orphan_kind (m : Master) (o : Op) : ∀ id, (Op.orphan m o).kind = .write id ↔ o.kind = .write id := by
  simp only [orphan_parts, implies_true]

end Sys2Proof.Machine

end

section
/-! SUPPORT. The Window Table and the settings items change by a command of the control link alone; what such a command
does to them keeps a frozen table as it is and every value in its range (R23, R40, R169). -/

namespace Sys2Proof.Machine

/-- The answer to a WRITE taken into the queue touches the ports and the answers alone. -/
theorem answerWrite_other (s : State) (m : Master) (a : Access) (posting : Posting) (id : Nat) :
    s.answerWrite m a posting id =
      { s with
        ports := (s.answerWrite m a posting id).ports
        answers := (s.answerWrite m a posting id).answers } := by
  cases posting <;> rfl

/-- An event is a command of the control link, or it leaves the windows and the settings alone. -/
theorem Event.windows_settings {s t : State} (h : Event s t) :
    (t.windows = s.windows ∧ t.settings = s.settings) ∨
      ∃ (l : Link) (u : State) (r : Response), Commanded { s with link := l } u ∧ t = u.respond r := by
  cases h with
  | commanded l u r _ _ hu _ => exact .inr ⟨l, u, r, hu, rfl⟩
  | readStarted =>
    rw [applyHold_other]
    exact .inl ⟨rfl, rfl⟩
  | writeMerged =>
    rw [applyHold_other]
    exact .inl ⟨rfl, rfl⟩
  | writeAppended =>
    rw [answerWrite_other, applyHold_other]
    exact .inl ⟨rfl, rfl⟩
  | granted c => exact .inl ⟨grant_windows s c, grant_settings s c⟩
  | completed o rest status words =>
    exact .inl ⟨complete_windows _ o status words, complete_settings _ o status words⟩
  | halted => exact .inl ⟨halt_windows s, halt_settings s⟩
  | expired i => exact .inl ⟨expireHold_windows s i, expireHold_settings s i⟩
  | portReset m => exact .inl ⟨portReset_windows s m, portReset_settings s m⟩
  | _ => exact .inl ⟨rfl, rfl⟩

/-- With the frozen flag set no command changes the Window Unit (R40). -/
theorem Commanded.windows_of_frozen {s u : State} (h : Commanded s u) (hf : s.windows.frozen = true) :
    u.windows = s.windows := by
  cases h with
  | window i w hn => simp [hf] at hn
  | background a hn => simp [hf] at hn
  | frozen hn => simp [hf] at hn
  | _ => rfl

/-- Settles O54: of all events only a command of the control link touches the windows, and none does while they are
frozen. -/
theorem frozenTableKept : Obligations.FrozenTableKept := by
  intro s t hf hnoReset hstep
  rcases step_event s t hstep with ⟨rest, hp, -⟩ | ⟨rest, n, hevent⟩
  · exact absurd (by rw [hp]; rfl) hnoReset
  · rcases hevent.windows_settings with ⟨hw, -⟩ | ⟨l, u, r, hu, rfl⟩
    · exact hw
    · exact hu.windows_of_frozen hf

/-- Values in range depend on the windows and the settings alone. -/
theorem valuesSound_congr {s t : State} (hw : t.windows = s.windows) (hs : t.settings = s.settings)
    (h : s.valuesSound) : t.valuesSound := by
  unfold State.valuesSound at *
  rwa [hw, hs]

/-- A record with its limit not below its base keeps the table in range (R23). -/
theorem window_set_ordered (table : Vector Window 8) (i : Fin 8) (w : Window) (hw : w.base ≤ w.limit)
    (h : ∀ j : Fin 8, table[j].base ≤ table[j].limit) (j : Fin 8) :
    (table.set i w)[j].base ≤ (table.set i w)[j].limit := by
  have hget : (table.set i w)[j] = if i = j then w else table[j] := by
    simp only [Fin.getElem_fin, Vector.getElem_set, Fin.ext_iff]
  rw [hget]
  split
  · exact hw
  · exact h j

/-- A command of the control link keeps every value in its range (R34, R165). -/
theorem Commanded.valuesSound {s u : State} (h : Commanded s u) (hs : s.valuesSound) : u.valuesSound := by
  have ⟨hhold, hmem, hurgent, hwindows⟩ := hs
  cases h with
  | holdLimit v hv => exact ⟨hv, hmem, hurgent, hwindows⟩
  | memTimeout v hv => exact ⟨hhold, hv, hurgent, hwindows⟩
  | urgentLevel v hv => exact ⟨hhold, hmem, hv, hwindows⟩
  | window i w hn hw =>
    have hordered : w.base ≤ w.limit := by
      rcases hw with hw | ⟨hbase, hlimit⟩
      · exact hw
      · rw [hbase, hlimit]
        exact hwindows i
    exact ⟨hhold, hmem, hurgent, window_set_ordered _ i w hordered hwindows⟩
  | _ => exact hs

theorem Event.valuesSound {s t : State} (h : Event s t) (hs : s.valuesSound) : t.valuesSound := by
  rcases h.windows_settings with ⟨hw, hset⟩ | ⟨l, u, r, hu, rfl⟩
  · exact valuesSound_congr hw hset hs
  · exact valuesSound_congr rfl rfl (hu.valuesSound hs)

end Sys2Proof.Machine
end

section
/-! SUPPORT. The Incident Unit over every event: but for the commands of the control link an event raises incidents and
does nothing else to it, and every way to touch it leaves ALERT at its condition (R144, R151). -/

namespace Sys2Proof.Machine

/-- What raising does to the Incident Unit depends on the unit and the settings alone. -/
theorem raiseAll_incidents_congr {s u : State} (xs : List Incident) (hi : u.incidents = s.incidents)
    (hs : u.settings = s.settings) : (u.raiseAll xs).incidents = (s.raiseAll xs).incidents := by
  induction xs generalizing s u with
  | nil => exact hi
  | cons x xs ih =>
    rw [raiseAll_cons, raiseAll_cons]
    exact ih (by rw [State.raise_incidents, State.raise_incidents, hi, hs]) hs

theorem finishIf_incidents (s : State) (c : Bool) (m : Master) (a : Answer) :
    (if c then s.finish m a else s).incidents = s.incidents ∧
      (if c then s.finish m a else s).settings = s.settings := by
  split <;> exact ⟨rfl, rfl⟩

/-- A matched completion raises DATA_ERROR or nothing (R126). -/
theorem complete_incidents (s : State) (o : Op) (status : MemStatus) (words : List Word) :
    ∃ xs, (s.complete o status words).incidents = (s.raiseAll xs).incidents := by
  unfold State.complete
  split
  · refine ⟨[], ?_⟩
    unfold State.removeEntry
    split <;> rfl
  · rename_i waiting _
    split
    · exact ⟨[], (finishIf_incidents s _ _ _).1⟩
    · have hkept := finishIf_incidents s (waiting && s.ports[o.master].waitsFor o.slot) o.master (.error .data)
      exact ⟨[_], raiseAll_incidents_congr [_] hkept.1 hkept.2⟩

theorem halt_incidents (s : State) : ∃ xs, s.halt.incidents = (s.raiseAll xs).incidents := by
  unfold State.halt
  split
  · exact ⟨[], rfl⟩
  · exact ⟨_, raiseAll_incidents_congr _ rfl rfl⟩

theorem expireHold_incidents (s : State) (i : HoldSlot) :
    ∃ xs, (s.expireHold i).incidents = (s.raiseAll xs).incidents := by
  unfold State.expireHold
  repeat' split
  · exact ⟨[_], rfl⟩
  · exact ⟨[], rfl⟩
  · exact ⟨[], rfl⟩

theorem portReset_incidents (s : State) (m : Master) :
    ∃ xs, (s.portReset m).incidents = (s.raiseAll xs).incidents := by
  unfold State.portReset
  dsimp only
  split
  · exact ⟨[], rfl⟩
  · exact ⟨[_], rfl⟩

/-- An event is a command of the control link, or all it does to the Incident Unit is to raise incidents. -/
theorem Event.incidents {s t : State} (h : Event s t) :
    (∃ xs, t.incidents = (s.raiseAll xs).incidents) ∨
      ∃ (l : Link) (u : State) (r : Response), Commanded { s with link := l } u ∧ t = u.respond r := by
  cases h with
  | commanded l u r _ _ hu _ => exact .inr ⟨l, u, r, hu, rfl⟩
  | toldRaised m a x => exact .inl ⟨[x], rfl⟩
  | raised x => exact .inl ⟨[x], rfl⟩
  | readStarted =>
    rw [applyHold_other]
    exact .inl ⟨[], rfl⟩
  | writeMerged =>
    rw [applyHold_other]
    exact .inl ⟨[], rfl⟩
  | writeAppended =>
    rw [answerWrite_other, applyHold_other]
    exact .inl ⟨[], rfl⟩
  | granted c => exact .inl ⟨[], grant_incidents s c⟩
  | completed o rest status words =>
    obtain ⟨xs, hxs⟩ := complete_incidents { s with mem := { s.mem with ops := rest } } o status words
    exact .inl ⟨xs, hxs.trans (raiseAll_incidents_congr xs rfl rfl)⟩
  | halted => exact .inl (halt_incidents s)
  | expired i => exact .inl (expireHold_incidents s i)
  | portReset m => exact .inl (portReset_incidents s m)
  | _ => exact .inl ⟨[], rfl⟩

theorem incidentsSound_congr {s t : State} (hi : t.incidents = s.incidents)
    (hs : t.settings.alertMask = s.settings.alertMask) (h : s.incidentsSound) : t.incidentsSound := by
  unfold State.incidentsSound at *
  rwa [hi, hs]

/-- ALERT judged anew stands at its condition (R151). -/
theorem judgeAlert_incidentsSound {s : State} (h : s.incidents.records.length ≤ 8) : s.judgeAlert.incidentsSound :=
  ⟨h, alertCondition_iff _ _ _⟩

/-- The list never grows beyond its 8 records (R144). -/
theorem take_records_length {u : IncidentUnit} (x : Incident) (h : u.records.length ≤ 8) :
    (u.take x).records.length ≤ 8 := by
  rw [take_records, List.length_append]
  split
  · simpa using Nat.succ_le_of_lt (by assumption)
  · simpa using h

theorem raiseAll_incidentsSound {s : State} (xs : List Incident) (h : s.incidentsSound) :
    (s.raiseAll xs).incidentsSound := by
  induction xs generalizing s with
  | nil => exact h
  | cons x xs ih =>
    rw [raiseAll_cons]
    exact ih (judgeAlert_incidentsSound (take_records_length x h.1))

theorem Commanded.incidentsSound {s u : State} (h : Commanded s u) (hs : s.incidentsSound) : u.incidentsSound := by
  cases h with
  | alertMask => exact judgeAlert_incidentsSound hs.1
  | overflow => exact judgeAlert_incidentsSound hs.1
  | discarded r rest hlist =>
    have hlength := hs.1
    rw [hlist, List.length_cons] at hlength
    exact judgeAlert_incidentsSound (Nat.le_of_succ_le hlength)
  | _ => exact hs

theorem Event.incidentsSound {s t : State} (h : Event s t) (hs : s.incidentsSound) : t.incidentsSound := by
  rcases h.incidents with ⟨xs, hxs⟩ | ⟨l, u, r, hu, rfl⟩
  · rcases h.windows_settings with ⟨-, hset⟩ | ⟨l, u, r, hu, rfl⟩
    · refine incidentsSound_congr hxs ?_ (raiseAll_incidentsSound xs hs)
      rw [hset, State.raiseAll_settings]
    · exact incidentsSound_congr (s := u) rfl rfl (hu.incidentsSound (incidentsSound_congr (s := s) rfl rfl hs))
  · exact incidentsSound_congr (s := u) rfl rfl (hu.incidentsSound (incidentsSound_congr (s := s) rfl rfl hs))

end Sys2Proof.Machine
end

section
/-! SUPPORT. The Link Unit over every event, and the power-on reset: with the two before, every value stays in form
(R154, R156, R162) and a block held in reset stays at its reset values (R22). -/

namespace Sys2Proof.Machine

theorem Commanded.link {s u : State} (h : Commanded s u) : u.link = s.link := by
  cases h <;> rfl

/-- An event leaves the link alone, moves the link alone, or executes a command of the control link. -/
theorem Event.link {s t : State} (h : Event s t) :
    t.link = s.link ∨
    (∃ l, LinkKept s l ∧ (l.response = s.link.response ∨ l.response.data = []) ∧ t.link = l) ∨
    ∃ (l : Link) (r : Response), LinkKept s l ∧
      (s.queue.length ≤ 16 → r.data.length ≤ 71 ∧ (r.status ≠ .ok → r.data = [])) ∧
      t.link = { l with response := r } := by
  cases h with
  | linkOnly l hl hr => exact .inr (.inl ⟨l, hl, hr.imp_right And.right, rfl⟩)
  | commanded l u r _ hl hu hd => exact .inr (.inr ⟨l, r, hl, hd, by rw [State.respond_link, hu.link]⟩)
  | readStarted =>
    rw [applyHold_other]
    exact .inl rfl
  | writeMerged =>
    rw [applyHold_other]
    exact .inl rfl
  | writeAppended =>
    rw [answerWrite_other, applyHold_other]
    exact .inl rfl
  | granted c => exact .inl (grant_link s c)
  | completed o rest status words =>
    exact .inl (complete_link { s with mem := { s.mem with ops := rest } } o status words)
  | halted => exact .inl (halt_link s)
  | expired i => exact .inl (expireHold_link s i)
  | portReset m => exact .inl (portReset_link s m)
  | _ => exact .inl rfl

theorem Event.linkSound {s t : State} (h : Event s t) (hs : s.linkSound) : t.linkSound := by
  unfold State.linkSound
  rcases h.link with hl | ⟨l, hl, -, ht⟩ | ⟨l, r, hl, -, ht⟩
  · rwa [hl]
  · rw [ht]
    exact hl.sound hs
  · rw [ht]
    exact hl.sound hs

theorem Event.responseSound {s t : State} (h : Event s t) (hq : s.queue.length ≤ 16) (hs : s.responseSound) :
    t.responseSound := by
  unfold State.responseSound at *
  rcases h.link with hl | ⟨l, -, hr | hr, ht⟩ | ⟨l, r, -, hd, ht⟩
  · rwa [hl]
  · rwa [ht, hr]
  · rw [ht, hr]
    exact ⟨by decide, fun _ => rfl⟩
  · rw [ht]
    exact hd hq

/-! ### The values of power-on reset -/

theorem reset_valuesSound : State.reset.valuesSound := by unfold State.valuesSound; decide

theorem reset_incidentsSound : State.reset.incidentsSound := by simp [State.incidentsSound, State.reset]

/-- At the assertion of RESET the Link Unit keeps nothing of a frame (R162). -/
theorem resetAssert_sound (l : Link) : l.resetAssert.sound :=
  ⟨rfl, by simp [Link.resetAssert], by simp [Link.resetAssert], fun _ => rfl, fun _ => rfl⟩

theorem resetAssert_not_receiving (l : Link) : l.resetAssert.phase ≠ .receiving := by
  unfold Link.resetAssert
  dsimp only
  split <;> decide

/-- After the assertion of RESET every block stands at its reset values (R22). -/
theorem powerOnReset_heldInReset (s : State) : s.powerOnReset.heldInReset :=
  fun _ => ⟨rfl, rfl, rfl, rfl, rfl, rfl, rfl, resetAssert_not_receiving _, rfl⟩

/-- Settles O59: the windows and settings, the incidents and the link, each over every event; the assertion of RESET
gives them the values of reset. -/
theorem stepKeepsValuesAndAlert : Obligations.StepKeepsValuesAndAlert := by
  intro s t hstep
  rcases step_event s t hstep with ⟨rest, -, rfl⟩ | ⟨rest, n, hevent⟩
  · exact ⟨fun _ => valuesSound_congr rfl rfl reset_valuesSound,
      fun _ => incidentsSound_congr rfl rfl reset_incidentsSound,
      fun _ => resetAssert_sound _, fun _ _ => ⟨Nat.zero_le _, fun _ => rfl⟩⟩
  · exact ⟨hevent.valuesSound, hevent.incidentsSound, hevent.linkSound, fun hq => hevent.responseSound hq.1⟩

/-- A block at its reset values has nothing outstanding, no hold, no entry (R67, R89, R118). -/
theorem portReset_heldInReset {s : State} (m : Master) (h : s.heldInReset) : (s.portReset m).heldInReset := by
  intro hr
  obtain ⟨hports, hwindows, hqueue, hholds, hmem, hincidents, hsettings, hphase, hresponse⟩ :=
    h ((portReset_resetLine s m) ▸ hr)
  have hactive : s.activeOf m = 0 := by
    simp only [State.activeOf, hholds]
    rfl
  unfold State.portReset
  dsimp only
  rw [if_pos hactive]
  refine ⟨?_, hwindows, ?_, ?_, ?_, hincidents, hsettings, hphase, hresponse⟩
  · show s.ports.set m .idle = State.reset.ports
    rw [hports]
    fin_cases m <;> rfl
  · show sealWhere _ s.queue = []
    rw [hqueue]
    rfl
  · show Vector.ofFn (fun i : HoldSlot => dropOwned m s.holds[i]) = State.reset.holds
    rw [hholds]
    rfl
  · show { s.mem with ops := s.mem.ops.map (Op.orphan m) } = State.reset.mem
    rw [hmem]
    rfl

theorem Commanded.resetLine {s u : State} (h : Commanded s u) : u.resetLine = s.resetLine := by
  cases h <;> rfl

/-- No event but the assertion of RESET asserts it. -/
theorem Event.resetLine {s t : State} (h : Event s t) : t.resetLine = true → s.resetLine = true := by
  cases h with
  | released => exact fun hf => by simp at hf
  | commanded l u r _ _ hu => exact fun ht => hu.resetLine ▸ ht
  | readStarted =>
    rw [applyHold_other]
    exact id
  | writeMerged =>
    rw [applyHold_other]
    exact id
  | writeAppended =>
    rw [answerWrite_other, applyHold_other]
    exact id
  | granted c => rw [grant_resetLine s c]; exact id
  | completed o rest status words =>
    rw [complete_resetLine { s with mem := { s.mem with ops := rest } } o status words]
    exact id
  | halted => rw [halt_resetLine s]; exact id
  | expired i => rw [expireHold_resetLine s i]; exact id
  | portReset m => rw [portReset_resetLine s m]; exact id
  | _ => exact id

/-- Under RESET hardly an event comes about, and none moves a block from its reset values. -/
theorem Event.heldInReset {s t : State} (h : Event s t) (hs : s.heldInReset) : t.heldInReset := by
  intro ht
  have hr := h.resetLine ht
  have ⟨hports, hwindows, hqueue, hholds, hmem, hincidents, hsettings, hphase, hresponse⟩ := hs hr
  have noEvent (h : s.resetLine = false) {P : Prop} : P := absurd hr (by simp [h])
  cases h with
  | same => exact hs hr
  | told m a h => exact noEvent h
  | toldRaised m a x h => exact noEvent h
  | raised x h => exact noEvent h
  | holdRemoved i m a h => exact noEvent h
  | readStarted m a k bypass e htakes => exact noEvent htakes.1
  | writeMerged m a ws k e eff htakes => exact noEvent htakes.1
  | writeAppended m a ws k posting combining e htakes => exact noEvent htakes.1
  | fenceStarted m htakes => exact noEvent htakes.1
  | granted c hc =>
    have hissue : s.canIssue := by cases c <;> exact hc.1
    exact noEvent hissue.1
  | completed o rest status words h => exact noEvent h
  | halted r hoperation =>
    obtain ⟨o, rest, hops, -⟩ := (oldestTimer_eq s r).mp hoperation
    simp [hmem, State.reset] at hops
  | expired i r htimer =>
    obtain ⟨hold, hslot, -⟩ := (holdTimer_eq s i r).mp htimer
    have hempty : State.reset.holds[i] = none := by fin_cases i <;> rfl
    simp [hholds, hempty] at hslot
  | portReset m => exact portReset_heldInReset m hs ht
  | portReleased m => exact hs hr
  | released => simp at ht
  | linkOnly l hl hresp =>
    refine ⟨hports, hwindows, hqueue, hholds, hmem, hincidents, hsettings, fun hp => hphase (hl.phase hr hp), ?_⟩
    rcases hresp with hresp | ⟨h, -⟩
    · exact hresp.trans hresponse
    · exact noEvent h
  | commanded l u r h => exact noEvent h
  | ticked => exact hs hr

/-- Settles O60: the assertion of RESET sets up the reset values, and no other event moves a block from them while
RESET stays asserted. -/
theorem stepKeepsReset : Obligations.StepKeepsReset := by
  intro s t hs hstep
  rcases step_event s t hstep with ⟨rest, -, rfl⟩ | ⟨rest, n, hevent⟩
  · exact powerOnReset_heldInReset _
  · exact hevent.heldInReset hs

end Sys2Proof.Machine
end

section
/-! SUPPORT. The Hold Table over every event: entries are removed or become BROKEN, or one acquisition that passed its
checks fills an empty slot (R89 to R91, R98). -/

namespace Sys2Proof.Machine

/-! ### Counting slots -/

/-- Slots counted along `holdSlots` are slots counted. -/
theorem holdSlots_filter_length (p : HoldSlot → Bool) :
    (holdSlots.filter p).length = (Finset.univ.filter (fun i : HoldSlot => p i = true)).card := by
  have hnodup : holdSlots.Nodup := by decide
  rw [← List.toFinset_card_of_nodup (hnodup.filter p), List.toFinset_filter]
  congr

theorem holdCount_eq_card (s : State) :
    s.holdCount = (Finset.univ.filter (fun i : HoldSlot => s.holds[i] ≠ none)).card := by
  rw [State.holdCount, holdSlots_filter_length]
  simp only [Option.isSome_iff_ne_none]

theorem heldBy_eq_card (s : State) (m : Master) :
    s.heldBy m = (Finset.univ.filter (fun i : HoldSlot => s.holds[i].map Hold.owner = some m)).card := by
  rw [State.heldBy, holdSlots_filter_length]
  congr
  funext i
  cases s.holds[i] <;> simp

/-! ### What an event leaves of an entry -/

/-- An entry stays as it is, becomes BROKEN, or is removed. -/
def slotReduced (before after : Option Hold) : Prop :=
  ∀ h', after = some h' → ∃ h, before = some h ∧ h.owner = h'.owner ∧ h.line = h'.line ∧
    (h'.state = h.state ∨ h'.state = .broken)

/-- Every slot's entry stays as it is, becomes BROKEN, or is removed. -/
def holdsReduced (before after : Vector (Option Hold) 8) : Prop := ∀ i : HoldSlot, slotReduced before[i] after[i]

theorem slotReduced_refl (x : Option Hold) : slotReduced x x := fun h hx => ⟨h, hx, rfl, rfl, .inl rfl⟩

theorem holdsReduced_refl (v : Vector (Option Hold) 8) : holdsReduced v v := fun i => slotReduced_refl v[i]

theorem holdsReduced_of_eq {v w : Vector (Option Hold) 8} (h : w = v) : holdsReduced v w := h ▸ holdsReduced_refl v

theorem slotReduced_none (x : Option Hold) : slotReduced x none := fun _ hx => by simp at hx

theorem slotReduced_broken (h : Hold) : slotReduced (some h) (some { h with state := .broken }) := by
  intro h' heq
  obtain rfl := Option.some.inj heq
  exact ⟨h, rfl, rfl, rfl, .inr rfl⟩

/-- What BREAK_HOLD and CLEAR_HOLDS make of an entry (R109, R111). -/
theorem slotReduced_brokenHold (h : Hold) : slotReduced (some h) h.broken := by
  unfold Hold.broken
  split
  · exact slotReduced_broken h
  · exact slotReduced_none _

theorem slotReduced_bind_broken (x : Option Hold) : slotReduced x (x.bind Hold.broken) := by
  cases x with
  | none => exact slotReduced_none _
  | some h => exact slotReduced_brokenHold h

theorem slotReduced_dropOwned (m : Master) (x : Option Hold) : slotReduced x (dropOwned m x) := by
  unfold dropOwned
  split
  · split
    · exact slotReduced_none _
    · exact slotReduced_refl _
  · exact slotReduced_none _

theorem holdsReduced_set {v : Vector (Option Hold) 8} (i : HoldSlot) {x : Option Hold} (h : slotReduced v[i] x) :
    holdsReduced v (v.set i x) := by
  intro j
  rw [holds_set_get]
  split
  · subst_vars
    exact h
  · exact slotReduced_refl _

theorem holdsReduced_ofFn {v : Vector (Option Hold) 8} {f : HoldSlot → Option Hold}
    (h : ∀ i, slotReduced v[i] (f i)) : holdsReduced v (Vector.ofFn f) := by
  intro i
  simpa using h i

theorem heldBy_le_of_reduced {s t : State} (h : holdsReduced s.holds t.holds) (m : Master) :
    t.heldBy m ≤ s.heldBy m := by
  rw [heldBy_eq_card, heldBy_eq_card]
  refine Finset.card_le_card fun i hi => ?_
  simp only [Finset.mem_filter, Finset.mem_univ, true_and, Option.map_eq_some_iff] at hi ⊢
  obtain ⟨h', hslot, howner⟩ := hi
  obtain ⟨h₀, hslot₀, howner₀, -⟩ := h i h' hslot
  exact ⟨h₀, hslot₀, howner₀.trans howner⟩

/-- Taking entries away and breaking them keeps a table sound. -/
theorem holdsSound_of_reduced {s t : State} (h : holdsReduced s.holds t.holds) (hs : s.holdsSound) : t.holdsSound := by
  refine ⟨fun m => (heldBy_le_of_reduced h m).trans (hs.1 m), fun i j x y hij hx hy => ?_⟩
  obtain ⟨x₀, hx₀, hxowner, hxline, hxstate⟩ := h i x hx
  obtain ⟨y₀, hy₀, hyowner, hyline, hystate⟩ := h j y hy
  obtain ⟨hown, hactive⟩ := hs.2 i j x₀ y₀ hij hx₀ hy₀
  refine ⟨fun ⟨ho, hl⟩ => hown ⟨?_, ?_⟩, fun ⟨hl, hxb, hyb⟩ => hactive ⟨?_, ?_, ?_⟩⟩
  · rw [hxowner, hyowner, ho]
  · rw [hxline, hyline, hl]
  · rw [hxline, hyline, hl]
  · exact hxstate.resolve_right hxb ▸ hxb
  · exact hystate.resolve_right hyb ▸ hyb

/-! ### An acquisition -/

/-- What stage 3 has found when a TAKE is to acquire (R94, R98). -/
theorem holdCheck_pass_acquire {s : State} {m : Master} {l : Line} {k : Mark}
    (h : s.holdCheck m l k = .pass .acquire) : ¬ s.heldByOther m l ∧ s.ownNone m l ∧ s.heldBy m < 2 := by
  unfold State.holdCheck at h
  split at h
  · simp at h
  · rename_i hother
    refine ⟨fun hheld => hother ((otherActive_iff s m l).mpr hheld), ?_⟩
    split at h
    · split at h <;> simp at h
    · rename_i hown
      refine ⟨(ownHold_none s m l).mp hown, ?_⟩
      cases k with
      | noMark => simp at h
      | free => simp at h
      | take =>
        simp only [State.acquireCheck] at h
        split at h
        · simp at h
        · split at h
          · simp at h
          · rename_i hcount
            exact Nat.lt_of_not_le hcount

/-- A passed request keeps the table, releases a slot, or acquires an empty one (R97, R100, R102). -/
theorem applyHold_cases (s : State) (m : Master) (l : Line) (e : HoldEffect) :
    holdsReduced s.holds (s.applyHold m l e).holds ∨
      (e = .acquire ∧ ∃ i : HoldSlot, s.holds[i] = none ∧
        (s.applyHold m l e).holds = s.holds.set i (some (s.newHold m l))) := by
  cases e with
  | keep => exact .inl (holdsReduced_refl _)
  | release i => exact .inl (holdsReduced_set i (slotReduced_none _))
  | acquire =>
    cases hfree : s.freeHoldSlot with
    | none =>
      refine .inl (holdsReduced_of_eq ?_)
      simp only [State.applyHold, hfree]
    | some i =>
      refine .inr ⟨rfl, i, (freeHoldSlot_some s i hfree).1, ?_⟩
      simp only [State.applyHold, hfree]
      rfl

/-- An acquisition whose checks have passed: the empty slot it fills, and for whom. -/
structure Acquired (s : State) (after : Vector (Option Hold) 8) (m : Master) (l : Line) (i : HoldSlot) : Prop where
  takes : s.takesRequests m
  notHeld : ¬ s.heldByOther m l
  noEntry : s.ownNone m l
  room : s.heldBy m < 2
  empty : s.holds[i] = none
  holds : after = s.holds.set i (some (s.newHold m l))

/-- The hold effect of a request carried out on a state that has the judged one's holds, settings and time. -/
theorem applyHold_reduced_or_acquired {s u : State} {m : Master} {l : Line} {k : Mark} {e : HoldEffect}
    (ht : s.takesRequests m) (hc : s.holdCheck m l k = .pass e) (hh : u.holds = s.holds)
    (hs : u.settings = s.settings) (hn : u.now = s.now) :
    holdsReduced s.holds (u.applyHold m l e).holds ∨ ∃ i, Acquired s (u.applyHold m l e).holds m l i := by
  rw [← hh]
  rcases applyHold_cases u m l e with hreduced | ⟨rfl, i, hempty, hset⟩
  · exact .inl hreduced
  · obtain ⟨hother, hown, hroom⟩ := holdCheck_pass_acquire hc
    have hnew : u.newHold m l = s.newHold m l := by simp only [State.newHold, hs, hn]
    exact .inr ⟨i, ht, hother, hown, hroom, hh ▸ hempty, by rw [hset, hh, hnew]⟩

theorem Acquired.heldBy_le {s t : State} {m : Master} {l : Line} {i : HoldSlot} (h : Acquired s t.holds m l i)
    (n : Master) : t.heldBy n ≤ s.heldBy n + if n = m then 1 else 0 := by
  have hget (j : HoldSlot) : t.holds[j] = if i = j then some (s.newHold m l) else s.holds[j] := by
    rw [h.holds, holds_set_get]
  rw [heldBy_eq_card, heldBy_eq_card]
  by_cases hn : n = m
  · rw [if_pos hn]
    refine (Finset.card_le_card fun j hj => ?_).trans (Finset.card_insert_le i _)
    by_cases hij : i = j
    · exact Finset.mem_insert.mpr (.inl hij.symm)
    · simp only [Finset.mem_filter, Finset.mem_univ, true_and, hget, if_neg hij] at hj
      exact Finset.mem_insert_of_mem (Finset.mem_filter.mpr ⟨Finset.mem_univ j, hj⟩)
  · rw [if_neg hn, Nat.add_zero]
    refine Finset.card_le_card fun j hj => ?_
    simp only [Finset.mem_filter, Finset.mem_univ, true_and, hget] at hj ⊢
    split at hj
    · exact absurd (Option.some.inj hj).symm hn
    · exact hj

/-- An entry that an acquisition leaves beside its own agrees with that one neither in owner and line nor, if ACTIVE, in
line (R94, R98). -/
theorem Acquired.apart {s : State} {after : Vector (Option Hold) 8} {m : Master} {l : Line} {i j : HoldSlot} {x : Hold}
    (h : Acquired s after m l i)
    (hx : s.holds[j] = some x) :
    ¬ (x.owner = m ∧ x.line = l) ∧ ¬ (x.line = l ∧ x.state ≠ .broken) := by
  have hown : ¬ (x.owner = m ∧ x.line = l) := fun hc => h.noEntry j x ⟨hx, hc.1, hc.2⟩
  exact ⟨hown, fun hc => h.notHeld ⟨j, x, hx, fun ho => hown ⟨ho, hc.1⟩, hc.1, hc.2⟩⟩

theorem Acquired.holdsSound {s t : State} {m : Master} {l : Line} {i : HoldSlot} (h : Acquired s t.holds m l i)
    (hs : s.holdsSound) : t.holdsSound := by
  have hget (j : HoldSlot) : t.holds[j] = if i = j then some (s.newHold m l) else s.holds[j] := by
    rw [h.holds, holds_set_get]
  constructor
  · intro n
    have hle := h.heldBy_le n
    split at hle
    · subst_vars
      have := h.room
      omega
    · exact hle.trans (hs.1 n)
  · intro a b x y hab hx hy
    rw [hget] at hx hy
    split at hx <;> split at hy
    · subst_vars
      exact absurd rfl hab
    · obtain rfl := Option.some.inj hx
      obtain ⟨hown, hactive⟩ := h.apart hy
      exact ⟨fun ⟨hm, hl⟩ => hown ⟨hm.symm, hl.symm⟩, fun ⟨hl, _, hx⟩ => hactive ⟨hl.symm, hx⟩⟩
    · obtain rfl := Option.some.inj hy
      obtain ⟨hown, hactive⟩ := h.apart hx
      exact ⟨hown, fun ⟨hl, hx, _⟩ => hactive ⟨hl, hx⟩⟩
    · exact hs.2 a b x y hab hx hy

/-! ### Every event -/

theorem expireHold_reduced (s : State) (i : HoldSlot) : holdsReduced s.holds (s.expireHold i).holds := by
  unfold State.expireHold
  split
  · rename_i h hslot
    split
    · refine holdsReduced_set i ?_
      rw [hslot]
      exact slotReduced_broken h
    · exact holdsReduced_refl _
  · exact holdsReduced_refl _

theorem Commanded.holdsReduced {s u : State} (h : Commanded s u) : holdsReduced s.holds u.holds := by
  cases h with
  | hold i h hslot => exact holdsReduced_set i (hslot ▸ slotReduced_brokenHold h)
  | holds => exact holdsReduced_ofFn fun i => slotReduced_bind_broken s.holds[i]
  | _ => exact holdsReduced_refl _

/-- An event reduces the table or is an acquisition that has passed its checks. -/
theorem Event.holds {s t : State} (h : Event s t) :
    holdsReduced s.holds t.holds ∨ ∃ m l i, Acquired s t.holds m l i := by
  cases h with
  | holdRemoved i => exact .inl (holdsReduced_set i (slotReduced_none _))
  | readStarted m a k bypass e ht _ hc =>
    exact (applyHold_reduced_or_acquired (u := s.startRead m a bypass) ht hc rfl rfl rfl).imp_right
      fun ⟨i, h⟩ => ⟨m, a.line, i, h⟩
  | writeMerged m a ws k target e ht hc =>
    exact (applyHold_reduced_or_acquired (u := s.mergeInto target (placeWords a.first ws) k) ht hc rfl rfl
      rfl).imp_right fun ⟨i, h⟩ => ⟨m, a.line, i, h⟩
  | writeAppended m a ws k posting combining e ht hc =>
    rw [answerWrite_other]
    exact (applyHold_reduced_or_acquired (u := s.appendEntry m a.line (placeWords a.first ws) posting
      (newEntryState posting combining k)) ht hc rfl rfl rfl).imp_right fun ⟨i, h⟩ => ⟨m, a.line, i, h⟩
  | granted c => exact .inl (holdsReduced_of_eq (grant_holds s c))
  | completed o rest status words =>
    exact .inl (holdsReduced_of_eq
      (complete_holds { s with mem := { s.mem with ops := rest } } o status words))
  | halted => exact .inl (holdsReduced_of_eq (halt_holds s))
  | expired i => exact .inl (expireHold_reduced s i)
  | portReset m =>
    rw [portReset_holds s m]
    exact .inl (holdsReduced_ofFn fun i => slotReduced_dropOwned m s.holds[i])
  | commanded l u r _ _ hu => exact .inl hu.holdsReduced
  | _ => exact .inl (holdsReduced_refl _)

theorem reset_holds (i : HoldSlot) : State.reset.holds[i] = none := by fin_cases i <;> rfl

/-- An empty table is sound. -/
theorem holdsSound_of_empty {s : State} (h : ∀ i : HoldSlot, s.holds[i] = none) : s.holdsSound := by
  refine ⟨fun m => ?_, fun i j x y _ hx => by simp [h i] at hx⟩
  have : s.heldBy m = 0 := (heldBy_zero s m).mpr fun i x hx => by simp [h i] at hx
  omega

/-- Settles O55: the counts are those of slots, and every event reduces the table or is an acquisition that has passed
its checks. -/
theorem stepKeepsHoldsSound : Obligations.StepKeepsHoldsSound := by
  refine ⟨fun s => ⟨holdCount_eq_card s, heldBy_eq_card s⟩, fun s t hs hstep => ?_⟩
  rcases step_event s t hstep with ⟨rest, -, rfl⟩ | ⟨rest, n, hevent⟩
  · exact holdsSound_of_empty reset_holds
  · rcases hevent.holds with hreduced | ⟨m, l, i, hacquired⟩
    · exact holdsSound_of_reduced hreduced hs
    · exact hacquired.holdsSound hs

end Sys2Proof.Machine
end

section
/-! SUPPORT. The Posting Queue over every event: its entries are updated in place, one is appended, the oldest is
issued, or some are removed; each keeps the queue sound (R42 to R46, R51, R61, R62). -/

namespace Sys2Proof.Machine

theorem newEntryState_not_issued (posting : Posting) (combining : Bool) (k : Mark) :
    newEntryState posting combining k ≠ .issued := by
  unfold newEntryState
  split <;> decide

theorem newEntryState_unposted (combining : Bool) (k : Mark) : newEntryState .unposted combining k ≠ .opened := by
  unfold newEntryState
  rw [if_neg (fun h => by simp at h)]
  decide

/-- A WRITE of good form marks a byte of its first word present (R3, R45). -/
theorem placeWords_present {f : Fields} {a : Access} {ws : List WordData} {k : Mark} (h : GoodWrite f a ws k) :
    ∃ (i : Fin 8) (j : Fin 4), dataByte (placeWords a.first ws) i j ≠ none := by
  obtain ⟨-, hcount, -, hlength, hpresent⟩ := h
  cases ws with
  | nil => simp at hlength; omega
  | cons w ws =>
    obtain ⟨j, hj⟩ : ∃ j : Fin 4, wordByte w j ≠ none := by
      rcases hpresent w (by simp) with h | h | h | h
      · exact ⟨0, h⟩
      · exact ⟨1, h⟩
      · exact ⟨2, h⟩
      · exact ⟨3, h⟩
    refine ⟨a.first, j, ?_⟩
    rw [placeWords_byte]
    simpa [writtenByte] using hj

/-- The queue updated where it stands, or with a new youngest entry. -/
inductive QueueGrown (s t : State) : Prop where
  /-- Entries updated where they stand: sealed, or merged into (R50, R57). -/
  | updated (f : Entry → Entry) (hf : Keeps f) (hq : t.queue = s.queue.map f) (hn : t.nextId = s.nextId)
  /-- A new youngest entry, with the seals of R51. -/
  | appended (e : Entry) (hroom : s.queue.length < 16) (hid : e.id = s.nextId) (hissued : e.state ≠ .issued)
      (hposting : e.posting = .unposted → e.state ≠ .opened)
      (hpresent : ∃ (i : Fin 8) (j : Fin 4), dataByte e.words i j ≠ none)
      (hq : t.queue = sealWhere (fun x => x.master == e.master || x.line == e.line) s.queue ++ [e])
      (hn : t.nextId = s.nextId + 1)

theorem keeps_id : Keeps (fun e => e) :=
  ⟨fun _ => rfl, fun _ => rfl, fun _ => rfl, fun _ => rfl, fun _ => Iff.rfl, fun _ h => h, fun _ h => h⟩

theorem QueueGrown.same {s t : State} (hq : t.queue = s.queue) (hn : t.nextId = s.nextId) : QueueGrown s t :=
  .updated _ keeps_id (hq.trans (List.map_id' s.queue).symm) hn

theorem QueueGrown.of_seal {s t : State} (p : Entry → Bool) (hq : t.queue = sealWhere p s.queue)
    (hn : t.nextId = s.nextId) : QueueGrown s t :=
  .updated _ (.seal p) hq hn

/-- What an event does to the Memory Port and the queue. -/
inductive MemoryChange (s t : State) : Prop where
  /-- The Memory Port stays as it is. -/
  | kept (hm : t.mem = s.mem) (hq : QueueGrown s t)
  /-- A grant (R61, R73). -/
  | granted (c : Claimant) (hc : s.claiming c) (ht : t = s.grant c)
  /-- A completion matched to the oldest operation (R126). -/
  | completed (o : Op) (rest : List Op) (status : MemStatus) (words : List Word) (ho : s.mem.ops = o :: rest)
      (ht : t = { s with mem := { s.mem with ops := rest } }.complete o status words)
  /-- A halt (R130). -/
  | halted (o : Op) (rest : List Op) (ho : s.mem.ops = o :: rest) (ht : t = s.halt)
  /-- PRSTn asserted (R20, R139). -/
  | portReset (m : Master) (ht : t = s.portReset m)
  /-- RESUME (R137). -/
  | resumed (hm : t.mem = { s.mem with state := .normal }) (hq : t.queue = s.queue) (hn : t.nextId = s.nextId)

/-- The hold effect of a WRITE and its answer touch neither the queue nor the counter of identities nor the Memory
Port. -/
theorem answerWrite_applyHold_parts (s : State) (m : Master) (a : Access) (e : HoldEffect) (posting : Posting)
    (id : Nat) :
    ((s.applyHold m a.line e).answerWrite m a posting id).queue = s.queue ∧
      ((s.applyHold m a.line e).answerWrite m a posting id).nextId = s.nextId ∧
      ((s.applyHold m a.line e).answerWrite m a posting id).mem = s.mem := by
  obtain ⟨-, -, -, hnext, -, -, hmem, -, hqueue, -⟩ := applyHold_parts s m a.line e
  cases posting <;> exact ⟨hqueue, hnext, hmem⟩

theorem answerWrite_applyHold_mem (s : State) (m : Master) (a : Access) (e : HoldEffect) (posting : Posting)
    (id : Nat) : ((s.applyHold m a.line e).answerWrite m a posting id).mem = s.mem := by
  simp only [answerWrite_applyHold_parts]

theorem Commanded.memory {s u : State} (h : Commanded s u) :
    u.queue = s.queue ∧ u.nextId = s.nextId ∧ (u.mem = s.mem ∨ u.mem = { s.mem with state := .normal }) := by
  cases h with
  | resumed => exact ⟨rfl, rfl, .inr rfl⟩
  | _ => exact ⟨rfl, rfl, .inl rfl⟩

/-- What an event does to the Memory Port and to a queue whose entries are told apart by their identities. -/
theorem Event.memory {s t : State} (h : Event s t) (hids : s.queue.Pairwise (fun e e' => e.id ≠ e'.id)) :
    MemoryChange s t := by
  cases h with
  | readStarted m a k bypass e =>
    rw [applyHold_other]
    exact .kept rfl (.of_seal _ rfl rfl)
  | writeMerged m a ws k target e _ _ htarget =>
    rw [applyHold_other]
    obtain ⟨hmem, hopened⟩ := mergeTarget_mem s m a.line target htarget
    obtain ⟨f, hf, hmap⟩ := Keeps.merge s target (placeWords a.first ws) k hopened hids hmem
    exact .kept rfl (.updated f hf hmap rfl)
  | writeAppended m a ws k posting combining e _ _ hroom _ hgood =>
    obtain ⟨f, hgood⟩ := hgood
    obtain ⟨hq, hn, hm⟩ := answerWrite_applyHold_parts (s.appendEntry m a.line (placeWords a.first ws) posting
      (newEntryState posting combining k)) m a e posting s.nextId
    refine .kept hm <| .appended
      { id := s.nextId, master := m, line := a.line, words := placeWords a.first ws, posting := posting
        state := newEntryState posting combining k }
      hroom rfl (newEntryState_not_issued posting combining k) ?_ (placeWords_present hgood) hq hn
    rintro rfl
    exact newEntryState_unposted combining k
  | fenceStarted m => exact .kept rfl (.of_seal _ rfl rfl)
  | granted c hc => exact .granted c hc rfl
  | completed o rest status words _ ho => exact .completed o rest status words ho rfl
  | halted r hr =>
    obtain ⟨o, rest, ho, -⟩ := (oldestTimer_eq s r).mp hr
    exact .halted o rest ho rfl
  | expired i =>
    obtain ⟨-, -, -, hnext, -, -, hmem, -, hqueue⟩ := expireHold_parts s i
    exact .kept hmem (.same hqueue hnext)
  | portReset m => exact .portReset m rfl
  | commanded l u r _ _ hu =>
    obtain ⟨hqueue, hnext, hmem | hmem⟩ := hu.memory
    · exact .kept hmem (.same hqueue hnext)
    · exact .resumed hmem hqueue hnext
  | _ => exact .kept rfl (.same rfl rfl)

/-! ### What the moves of the Memory Port do to the queue -/

/-- A matched WRITE is the removal of its entry (R62, R126). -/
theorem complete_write_eq (s : State) {o : Op} {id : Nat} (status : MemStatus) (words : List Word)
    (hk : o.kind = .write id) : s.complete o status words = s.removeEntry id := by
  simp only [State.complete, hk]

theorem complete_write_queue (s : State) {o : Op} {id : Nat} (status : MemStatus) (words : List Word)
    (hk : o.kind = .write id) : (s.complete o status words).queue = s.queue.filter (fun x => x.id != id) := by
  rw [complete_write_eq s status words hk, removeEntry_queue]

/-- A matched READ leaves the queue alone (R126). -/
theorem complete_read_queue (s : State) {o : Op} {first : Fin 8} {count : Nat} {waiting : Bool} (status : MemStatus)
    (words : List Word) (hk : o.kind = .read first count waiting) :
    (s.complete o status words).queue = s.queue := by
  simp only [State.complete, hk]
  repeat' split
  all_goals rfl

theorem grant_p_queue (s : State) (m : Master) : (s.grant (.p m)).queue = s.queue := by
  simp only [State.grant, State.issueRead]
  split <;> rfl

theorem grant_q_queue {s : State} {e : Entry} {rest : List Entry} (h : s.queue = e :: rest) :
    (s.grant .q).queue = { e with state := .issued } :: rest := by
  simp only [State.grant, State.issueWrite, h]

theorem halt_queue {s : State} {o : Op} {rest : List Op} (h : s.mem.ops = o :: rest) :
    s.halt.queue = s.queue.filter (fun e => !e.lostAtHalt) := by
  simp [State.halt, h]

/-- What an event does to the queue and to the counter of identities. -/
inductive QueueChange (s t : State) : Prop where
  /-- Entries updated where they stand, or one appended. -/
  | grown (h : QueueGrown s t)
  /-- The oldest entry issued (R61). -/
  | issued (e : Entry) (rest : List Entry) (hold : s.queue = e :: rest)
      (hq : t.queue = { e with state := .issued } :: rest) (hn : t.nextId = s.nextId)
  /-- Entries removed (R62, R132). -/
  | removed (p : Entry → Bool) (hq : t.queue = s.queue.filter p) (hn : t.nextId = s.nextId)

theorem MemoryChange.queue {s t : State} (h : MemoryChange s t) : QueueChange s t := by
  cases h with
  | kept _ hq => exact .grown hq
  | granted c hc ht =>
    subst ht
    have hnext := grant_nextId s c
    cases c with
    | p m => exact .grown (.same (grant_p_queue s m) hnext)
    | q =>
      obtain ⟨-, -, e, rest, hqueue, -⟩ := hc
      exact .issued e rest hqueue (grant_q_queue hqueue) hnext
  | completed o rest status words _ ht =>
    subst ht
    have hnext := complete_nextId { s with mem := { s.mem with ops := rest } } o status words
    cases hk : o.kind with
    | write id => exact .removed _ (complete_write_queue _ status words hk) hnext
    | read first count waiting => exact .grown (.same (complete_read_queue _ status words hk) hnext)
  | halted o rest ho ht =>
    subst ht
    exact .removed _ (halt_queue ho) (halt_nextId s)
  | portReset m ht =>
    subst ht
    obtain ⟨-, -, -, hnext, -, -, -, hqueue, -, -⟩ := portReset_parts s m
    exact .grown (.of_seal _ hqueue hnext)
  | resumed _ hq hn => exact .grown (.same hq hn)

/-! ### Soundness -/

theorem Keeps.entriesOrdered {f : Entry → Entry} (hf : Keeps f) {e e' : Entry} (h : entriesOrdered e e') :
    entriesOrdered (f e) (f e') := by
  obtain ⟨hid, hissued, hopened⟩ := h
  refine ⟨by rwa [hf.id, hf.id], mt (hf.issued e').mp hissued, fun ho => ?_⟩
  rw [hf.master, hf.master, hf.line, hf.line]
  exact hopened (hf.opened e ho)

/-- An entry that sealing has left OPEN is one the seal did not name (R57). -/
theorem opened_of_mem_sealWhere {p : Entry → Bool} {q : List Entry} {x : Entry} (hx : x ∈ sealWhere p q)
    (ho : x.state = .opened) : x ∈ q ∧ p x = false := by
  obtain ⟨y, hy, rfl⟩ := List.mem_map.mp hx
  by_cases hp : p y = true
  · rw [if_pos hp, close_eq_sealed] at ho
    exact absurd ho (sealedEntry_not_opened y)
  · rw [if_neg hp]
    exact ⟨hy, by simpa using hp⟩

theorem QueueGrown.queueSound {s t : State} (h : QueueGrown s t) (hs : s.queueSound) : t.queueSound := by
  obtain ⟨hlength, hordered, hentries⟩ := hs
  cases h with
  | updated f hf hq hn =>
    unfold State.queueSound
    rw [hq, hn]
    refine ⟨by simpa using hlength, hordered.map f fun _ _ => hf.entriesOrdered, fun x hx => ?_⟩
    obtain ⟨e, he, rfl⟩ := List.mem_map.mp hx
    obtain ⟨hid, hposting, hpresent⟩ := hentries e he
    exact ⟨by rwa [hf.id], fun hp ho => hposting (hf.posting e ▸ hp) (hf.opened e ho), hf.words e hpresent⟩
  | appended e hroom hid hissued hposting hpresent hq hn =>
    have hseal := Keeps.seal (fun x => x.master == e.master || x.line == e.line)
    unfold State.queueSound
    rw [hq, hn]
    refine ⟨by simpa [sealWhere] using hroom, ?_, ?_⟩
    · refine List.pairwise_append.mpr ⟨hordered.map _ fun _ _ => hseal.entriesOrdered, List.pairwise_singleton _ e, ?_⟩
      intro x hx e' he'
      obtain rfl := List.mem_singleton.mp he'
      refine ⟨?_, hissued, fun ho => by simpa using (opened_of_mem_sealWhere hx ho).2⟩
      obtain ⟨y, hy, rfl⟩ := List.mem_map.mp hx
      rw [hseal.id y, hid]
      exact (hentries y hy).1
    · intro x hx
      rcases List.mem_append.mp hx with hx | hx
      · obtain ⟨y, hy, rfl⟩ := List.mem_map.mp hx
        obtain ⟨hid', hposting', hpresent'⟩ := hentries y hy
        exact ⟨by rw [hseal.id y]; omega, fun hp ho => hposting' (hseal.posting y ▸ hp) (hseal.opened y ho),
          hseal.words y hpresent'⟩
      · obtain rfl := List.mem_singleton.mp hx
        exact ⟨by omega, hposting, hpresent⟩

theorem QueueChange.queueSound {s t : State} (h : QueueChange s t) (hs : s.queueSound) : t.queueSound := by
  have ⟨hlength, hordered, hentries⟩ := hs
  cases h with
  | grown h => exact h.queueSound hs
  | issued e rest hold hq hn =>
    rw [hold] at hlength hordered hentries
    obtain ⟨hhead, htail⟩ := List.pairwise_cons.mp hordered
    unfold State.queueSound
    rw [hq, hn]
    refine ⟨hlength, List.pairwise_cons.mpr ⟨fun e' he' => ?_, htail⟩, fun x hx => ?_⟩
    · obtain ⟨hid, hyounger, -⟩ := hhead e' he'
      exact ⟨hid, hyounger, fun ho => by simp at ho⟩
    · rcases List.mem_cons.mp hx with rfl | hx
      · obtain ⟨hid, -, hpresent⟩ := hentries e (by simp)
        exact ⟨hid, fun _ => by simp, hpresent⟩
      · exact hentries x (List.mem_cons_of_mem e hx)
  | removed p hq hn =>
    unfold State.queueSound
    rw [hq, hn]
    exact ⟨(List.length_filter_le p s.queue).trans hlength, hordered.sublist List.filter_sublist,
      fun x hx => hentries x (List.mem_of_mem_filter hx)⟩

/-- An empty queue is sound. -/
theorem queueSound_of_empty {s : State} (h : s.queue = []) : s.queueSound := by
  simp [State.queueSound, h]

/-- Settles O56, by the ways an event can change the queue; the assertion of RESET empties it. -/
theorem stepKeepsQueueSound : Obligations.StepKeepsQueueSound := by
  intro s t hs hstep
  rcases step_event s t hstep with ⟨rest, -, rfl⟩ | ⟨rest, n, hevent⟩
  · exact queueSound_of_empty rfl
  · exact (hevent.memory (ids_ne_of_sound s hs)).queue.queueSound hs

end Sys2Proof.Machine
end

section
/-! SUPPORT. The Memory Port over every event: the outstanding operations stay distinct and of the current epoch, and
the outstanding WRITE stays one with the ISSUED entry (R61, R119, R120, R122, R125, R130). -/

namespace Sys2Proof.Machine

/-! ### What a grant does to the Memory Port -/

/-- The operation a grant puts on the list is stamped with the epoch, a free op slot and a timer (R120). -/
def State.stamped (s : State) (kind : OpKind) (l : Line) (m : Master) : Op :=
  { kind := kind, slot := s.freeOpSlot, epoch := s.mem.epoch, line := l, master := m
    timer := Timer.start s.settings.memTimeout.toNat s.now }

theorem grant_q_mem {s : State} {e : Entry} {rest : List Entry} (h : s.queue = e :: rest) :
    (s.grant .q).mem =
      { s.mem with ops := s.mem.ops ++ [s.stamped (.write e.id) e.line e.master], rotation := some .q } := by
  simp only [State.grant, State.issueWrite, h]
  rfl

theorem grant_p_mem {s : State} {m : Master} {a : Access} (h : s.ports[m] = .ready a) :
    (s.grant (.p m)).mem =
      { s.mem with
        ops := s.mem.ops ++ [s.stamped (.read a.first a.count true) a.line m], rotation := some (.p m) } := by
  simp only [State.grant, State.issueRead, h]
  rfl

theorem halt_mem {s : State} {o : Op} {rest : List Op} (h : s.mem.ops = o :: rest) :
    s.halt.mem = { s.mem with state := .halted, epoch := s.mem.epoch + 1, ops := [] } := by
  simp [State.halt, h]

/-- A grant puts one operation on the list: the WRITE of the oldest entry, with no WRITE outstanding, or a READ. -/
theorem grant_mem {s : State} {c : Claimant} (hc : s.claiming c) :
    ∃ kind l m, (s.grant c).mem.state = s.mem.state ∧ (s.grant c).mem.epoch = s.mem.epoch ∧
      (s.grant c).mem.ops = s.mem.ops ++ [s.stamped kind l m] ∧
      ((∃ id, kind = .write id) → s.mem.ops.filter Op.isWrite = []) := by
  cases c with
  | q =>
    obtain ⟨-, hnone, e, rest, hqueue, -⟩ := hc
    refine ⟨.write e.id, e.line, e.master, ?_⟩
    rw [grant_q_mem hqueue]
    refine ⟨rfl, rfl, rfl, fun _ => List.filter_eq_nil_iff.mpr fun o ho hw => ?_⟩
    obtain ⟨id, hk⟩ := (isWrite_iff o).mp hw
    exact hnone o ho id hk
  | p m =>
    obtain ⟨-, a, hport⟩ := hc
    refine ⟨.read a.first a.count true, a.line, m, ?_⟩
    rw [grant_p_mem hport]
    exact ⟨rfl, rfl, rfl, fun ⟨id, h⟩ => by simp at h⟩

theorem claiming_canIssue {s : State} {c : Claimant} (h : s.claiming c) : s.canIssue := by
  cases c <;> exact h.1

theorem orphan_isWrite (m : Master) (o : Op) : (Op.orphan m o).isWrite = o.isWrite := by
  rw [Bool.eq_iff_iff, isWrite_iff, isWrite_iff]
  exact exists_congr (orphan_kind m o)

/-! ### The list of operations -/

/-- A grant takes an op slot no outstanding operation holds (R120). -/
theorem slots_granted {s : State} {c : Claimant} (hc : s.claiming c)
    (hs : s.mem.ops.Pairwise (fun o o' => o.slot ≠ o'.slot)) :
    (s.grant c).mem.ops.Pairwise (fun o o' => o.slot ≠ o'.slot) := by
  obtain ⟨-, -, hroom, -⟩ := claiming_canIssue hc
  obtain ⟨kind, l, m, -, -, hops, -⟩ := grant_mem hc
  rw [hops]
  refine List.pairwise_append.mpr ⟨hs, List.pairwise_singleton _ _, fun o ho o' ho' => ?_⟩
  obtain rfl := List.mem_singleton.mp ho'
  exact (freeOpSlot_lowest s hroom).1 o ho

theorem slots_orphaned {ops : List Op} (m : Master) (hs : ops.Pairwise (fun o o' => o.slot ≠ o'.slot)) :
    (ops.map (Op.orphan m)).Pairwise (fun o o' => o.slot ≠ o'.slot) := by
  refine hs.map _ fun o o' h => ?_
  rwa [(orphan_slot m o), (orphan_slot m o')]

/-- The op slots of the outstanding operations stay all different (R120). -/
theorem MemoryChange.slots {s t : State} (h : MemoryChange s t)
    (hs : s.mem.ops.Pairwise (fun o o' => o.slot ≠ o'.slot)) : t.mem.ops.Pairwise (fun o o' => o.slot ≠ o'.slot) := by
  cases h with
  | kept hm => rwa [hm]
  | granted c hc ht => exact ht ▸ slots_granted hc hs
  | completed o rest status words ho ht =>
    rw [ho] at hs
    rw [ht, (complete_mem _ o status words)]
    exact (List.pairwise_cons.mp hs).2
  | halted o rest ho ht =>
    rw [ht, halt_mem ho]
    exact List.Pairwise.nil
  | portReset m ht =>
    rw [ht, (portReset_mem s m)]
    exact slots_orphaned m hs
  | resumed hm => rwa [hm]

/-- A grant is made with room on the list, and of a WRITE with none outstanding (R122). -/
theorem memSound_granted {s : State} {c : Claimant} (hc : s.claiming c) (hs : s.memSound) : (s.grant c).memSound := by
  obtain ⟨-, hwrites, hslots, hepochs, -⟩ := hs
  obtain ⟨-, hnormal, hroom, -⟩ := claiming_canIssue hc
  obtain ⟨kind, l, m, hstate, hepoch, hops, hkind⟩ := grant_mem hc
  have hslots' := slots_granted hc hslots
  unfold State.memSound
  rw [hops] at hslots'
  rw [hstate, hepoch, hops]
  refine ⟨by simpa using hroom, ?_, hslots', fun o ho => ?_, fun hh => by simp [hnormal] at hh⟩
  · rw [List.filter_append, List.length_append]
    by_cases hw : (s.stamped kind l m).isWrite = true
    · rw [hkind ((isWrite_iff _).mp hw)]
      simp [hw]
    · simpa [hw] using hwrites
  · rcases List.mem_append.mp ho with ho | ho
    · exact hepochs o ho
    · obtain rfl := List.mem_singleton.mp ho
      rfl

theorem memSound_of_tail {s t : State} {o : Op} {rest : List Op} (ho : s.mem.ops = o :: rest)
    (ht : t.mem = { s.mem with ops := rest }) (hs : s.memSound) : t.memSound := by
  obtain ⟨hlength, hwrites, hslots, hepochs, hhalted⟩ := hs
  have hsub : rest.Sublist s.mem.ops := ho ▸ List.sublist_cons_self o rest
  unfold State.memSound
  rw [ht]
  refine ⟨hsub.length_le.trans hlength, (hsub.filter _).length_le.trans hwrites, hslots.sublist hsub,
    fun o' ho' => hepochs o' (hsub.subset ho'), fun hh => ?_⟩
  simp [ho] at hhalted
  exact absurd hh hhalted

theorem memSound_orphaned {s t : State} (m : Master)
    (ht : t.mem = { s.mem with ops := s.mem.ops.map (Op.orphan m) }) (hs : s.memSound) : t.memSound := by
  obtain ⟨hlength, hwrites, hslots, hepochs, hhalted⟩ := hs
  have hfilter : (s.mem.ops.map (Op.orphan m)).filter Op.isWrite = (s.mem.ops.filter Op.isWrite).map (Op.orphan m) := by
    rw [List.filter_map]
    congr 2
    funext o
    exact orphan_isWrite m o
  unfold State.memSound
  rw [ht]
  refine ⟨by simpa using hlength, ?_, slots_orphaned m hslots, fun o ho => ?_, fun hh => by simpa using hhalted hh⟩
  · rw [hfilter, List.length_map]
    exact hwrites
  · obtain ⟨o, ho', rfl⟩ := List.mem_map.mp ho
    rw [orphan_epoch m o]
    exact hepochs o ho'

theorem MemoryChange.memSound {s t : State} (h : MemoryChange s t) (hs : s.memSound) : t.memSound := by
  cases h with
  | kept hm =>
    unfold State.memSound at *
    rwa [hm]
  | granted c hc ht => exact ht ▸ memSound_granted hc hs
  | completed o rest status words ho ht =>
    exact memSound_of_tail ho (ht ▸ (complete_mem _ o status words)) hs
  | halted o rest ho ht =>
    unfold State.memSound
    simp [ht, halt_mem ho]
  | portReset m ht =>
    exact memSound_orphaned m (ht ▸ (portReset_mem s m)) hs
  | resumed hm =>
    obtain ⟨hlength, hwrites, hslots, hepochs, -⟩ := hs
    unfold State.memSound
    rw [hm]
    exact ⟨hlength, hwrites, hslots, hepochs, fun hh => by simp at hh⟩

/-! ### The outstanding WRITE and the ISSUED entry -/

/-- Entries updated in place and operations that keep their WRITE, line and master keep the outstanding WRITE and the
ISSUED entry one. -/
theorem issueSound_updated {s t : State} {f : Entry → Entry} {g : Op → Op} (hf : Keeps f)
    (hg : ∀ o, (g o).line = o.line ∧ (g o).master = o.master ∧ ∀ id, (g o).kind = .write id ↔ o.kind = .write id)
    (hq : t.queue = s.queue.map f) (hops : t.mem.ops = s.mem.ops.map g) (hs : s.issueSound) : t.issueSound := by
  obtain ⟨hwrite, hissued⟩ := hs
  unfold State.issueSound
  rw [hq, hops]
  refine ⟨fun o' ho' id hk => ?_, fun e' he' hi => ?_⟩
  · obtain ⟨o, ho, rfl⟩ := List.mem_map.mp ho'
    obtain ⟨hline, hmaster, hkind⟩ := hg o
    obtain ⟨e, rest, hqueue, hid, hi, hl, hm⟩ := hwrite o ho id ((hkind id).mp hk)
    refine ⟨f e, rest.map f, by rw [hqueue, List.map_cons], ?_, (hf.issued e).mpr hi, ?_, ?_⟩
    · rw [hf.id, hid]
    · rw [hf.line, hl, hline]
    · rw [hf.master, hm, hmaster]
  · obtain ⟨e, he, rfl⟩ := List.mem_map.mp he'
    obtain ⟨o, ho, hk⟩ := hissued e he ((hf.issued e).mp hi)
    obtain ⟨-, -, hkind⟩ := hg o
    exact ⟨g o, List.mem_map_of_mem ho, by rw [hf.id]; exact (hkind e.id).mpr hk⟩

theorem QueueGrown.issueSound {s t : State} (h : QueueGrown s t) (hm : t.mem = s.mem) (hs : s.issueSound) :
    t.issueSound := by
  cases h with
  | updated f hf hq =>
    refine issueSound_updated (g := fun o => o) hf (fun o => ⟨rfl, rfl, fun _ => Iff.rfl⟩) hq ?_ hs
    rw [hm, List.map_id']
  | appended e _ _ hnew _ _ hq =>
    have hseal := Keeps.seal (fun x => x.master == e.master || x.line == e.line)
    obtain ⟨hwrite, hissued⟩ := hs
    unfold State.issueSound
    rw [hq, hm]
    refine ⟨fun o ho id hk => ?_, fun x hx hi => ?_⟩
    · obtain ⟨x, rest, hqueue, hid, hi, hl, hmaster⟩ := hwrite o ho id hk
      refine ⟨_, _, by rw [hqueue, sealWhere, List.map_cons, List.cons_append], ?_, ?_, ?_, ?_⟩
      · exact (hseal.id x).trans hid
      · exact (hseal.issued x).mpr hi
      · exact (hseal.line x).trans hl
      · exact (hseal.master x).trans hmaster
    · rcases List.mem_append.mp hx with hx | hx
      · obtain ⟨y, hy, rfl⟩ := List.mem_map.mp hx
        obtain ⟨o, ho, hk⟩ := hissued y hy ((hseal.issued y).mp hi)
        exact ⟨o, ho, hk.trans (congrArg _ (hseal.id y).symm)⟩
      · obtain rfl := List.mem_singleton.mp hx
        exact absurd hi hnew

/-- The grant of Q makes the oldest entry ISSUED and its WRITE the outstanding one (R61). -/
theorem issueSound_granted_q {s : State} (hc : s.claiming .q) (hq : s.queueSound) : (s.grant .q).issueSound := by
  obtain ⟨-, hnone, e, rest, hqueue, -⟩ := hc
  obtain ⟨-, hordered, -⟩ := hq
  rw [hqueue] at hordered
  have hyounger := (List.pairwise_cons.mp hordered).1
  unfold State.issueSound
  rw [grant_q_queue hqueue, grant_q_mem hqueue]
  refine ⟨fun o ho id hk => ?_, fun x hx hi => ?_⟩
  · rcases List.mem_append.mp ho with ho | ho
    · exact absurd hk (hnone o ho id)
    · obtain rfl := List.mem_singleton.mp ho
      exact ⟨_, rest, rfl, OpKind.write.inj hk, rfl, rfl, rfl⟩
  · rcases List.mem_cons.mp hx with rfl | hx
    · exact ⟨s.stamped (.write e.id) e.line e.master, by simp, rfl⟩
    · obtain ⟨-, hnot, -⟩ := hyounger x hx
      exact absurd hi hnot

/-- The grant of a port issues a READ, which no entry is one with (R73). -/
theorem issueSound_granted_p {s : State} {m : Master} (hc : s.claiming (.p m)) (hs : s.issueSound) :
    (s.grant (.p m)).issueSound := by
  obtain ⟨-, a, hport⟩ := hc
  obtain ⟨hwrite, hissued⟩ := hs
  unfold State.issueSound
  rw [grant_p_queue, grant_p_mem hport]
  refine ⟨fun o ho id hk => ?_, fun e he hi => ?_⟩
  · rcases List.mem_append.mp ho with ho | ho
    · exact hwrite o ho id hk
    · obtain rfl := List.mem_singleton.mp ho
      simp [State.stamped] at hk
  · obtain ⟨o, ho, hk⟩ := hissued e he hi
    exact ⟨o, List.mem_append_left _ ho, hk⟩

/-- A matched WRITE leaves the list with the entry it is one with (R62, R126). -/
theorem issueSound_completed {s : State} {o : Op} {rest : List Op} (status : MemStatus) (words : List Word)
    (ho : s.mem.ops = o :: rest) (hm : s.memSound) (hs : s.issueSound) :
    ({ s with mem := { s.mem with ops := rest } }.complete o status words).issueSound := by
  obtain ⟨hwrite, hissued⟩ := hs
  have hmem := complete_mem { s with mem := { s.mem with ops := rest } } o status words
  obtain ⟨-, hwrites, -⟩ := hm
  rw [ho] at hwrite hissued hwrites
  unfold State.issueSound
  rw [hmem]
  dsimp only
  cases hk : o.kind with
  | write id =>
    rw [complete_write_queue _ status words hk]
    dsimp only
    refine ⟨fun o' ho' id' hk' => ?_, fun e he hi => ?_⟩
    · have h : o.isWrite = true := (isWrite_iff o).mpr ⟨id, hk⟩
      have h' : o' ∈ rest.filter Op.isWrite := List.mem_filter.mpr ⟨ho', (isWrite_iff o').mpr ⟨id', hk'⟩⟩
      have := List.length_pos_of_mem h'
      rw [List.filter_cons_of_pos h, List.length_cons] at hwrites
      omega
    · obtain ⟨hmem, hne⟩ := List.mem_filter.mp he
      obtain ⟨o', ho', hk'⟩ := hissued e hmem hi
      rcases List.mem_cons.mp ho' with rfl | ho'
      · rw [hk] at hk'
        simp [OpKind.write.inj hk'] at hne
      · exact ⟨o', ho', hk'⟩
  | read first count waiting =>
    rw [complete_read_queue _ status words hk]
    refine ⟨fun o' ho' => hwrite o' (List.mem_cons_of_mem o ho'), fun e he hi => ?_⟩
    obtain ⟨o', ho', hk'⟩ := hissued e he hi
    rcases List.mem_cons.mp ho' with rfl | ho'
    · simp [hk] at hk'
    · exact ⟨o', ho', hk'⟩

/-- A halt empties the list and removes the ISSUED entry (R130, R132). -/
theorem issueSound_halted {s : State} {o : Op} {rest : List Op} (ho : s.mem.ops = o :: rest) : s.halt.issueSound := by
  unfold State.issueSound
  rw [halt_mem ho, halt_queue ho]
  refine ⟨fun o' ho' => by simp at ho', fun e he hi => ?_⟩
  have := (List.mem_filter.mp he).2
  simp [Entry.lostAtHalt, Entry.isIssued, hi] at this

theorem MemoryChange.issueSound {s t : State} (h : MemoryChange s t) (hq : s.queueSound) (hm : s.memSound)
    (hs : s.issueSound) : t.issueSound := by
  cases h with
  | kept hmem hgrown => exact hgrown.issueSound hmem hs
  | granted c hc ht =>
    subst ht
    cases c with
    | q => exact issueSound_granted_q hc hq
    | p m => exact issueSound_granted_p hc hs
  | completed o rest status words ho ht => exact ht ▸ issueSound_completed status words ho hm hs
  | halted o rest ho ht => exact ht ▸ issueSound_halted ho
  | portReset m ht =>
    subst ht
    obtain ⟨-, -, -, -, -, -, -, hqueue, hmem, -⟩ := portReset_parts s m
    exact issueSound_updated (g := Op.orphan m) (.seal _)
      (fun o => ⟨orphan_line m o, orphan_master m o, orphan_kind m o⟩) hqueue (by rw [hmem]) hs
  | resumed hmem hqueue =>
    unfold State.issueSound at *
    rwa [hmem, hqueue]

/-- A Memory Port at its reset values, with an empty queue, is sound. -/
theorem memSound_of_reset {s : State} (h : s.mem = State.reset.mem) : s.memSound := by
  unfold State.memSound
  rw [h]
  simp [State.reset]

theorem issueSound_of_reset {s : State} (hm : s.mem = State.reset.mem) (hq : s.queue = []) : s.issueSound := by
  unfold State.issueSound
  rw [hm, hq]
  simp [State.reset]

/-- Settles O57, by what an event can do to the Memory Port and the queue. -/
theorem stepKeepsMemorySound : Obligations.StepKeepsMemorySound := by
  intro s t hq hm hi hstep
  rcases step_event s t hstep with ⟨rest, -, rfl⟩ | ⟨rest, n, hevent⟩
  · exact ⟨memSound_of_reset rfl, issueSound_of_reset rfl rfl⟩
  · have hchange := hevent.memory (ids_ne_of_sound s hq)
    exact ⟨hchange.memSound hm, hchange.issueSound hq hm hi⟩

end Sys2Proof.Machine
end

section
/-! SUPPORT. The port records over every event: what a record names exists, an outstanding READ whose port waits belongs
to an ISSUED port, and no port waits while the Memory Port is HALTED (R7, R9 to R11, R70, R79, R119, R133). -/

namespace Sys2Proof.Machine

/-- What a port record names is in a queue and a list of operations: `State.portSound` of its parts
(`portSound_iff`). -/
def Port.soundIn (q : List Entry) (ops : List Op) (m : Master) : Port → Prop
  | .idle => True
  | .ready _ => True
  | .blocked _ ws => ws ≠ [] ∧ ∀ id ∈ ws, ∃ e ∈ q, e.id = id
  | .fencing ws => ws ≠ [] ∧ ∀ id ∈ ws, ∃ e ∈ q, e.id = id
  | .issued a k => ∃ o ∈ ops, isReadOf o m a k
  | .unposted _ id => ∃ e ∈ q, e.id = id ∧ e.master = m ∧ e.posting = .unposted

theorem portSound_iff (s : State) (m : Master) : s.portSound m ↔ s.ports[m].soundIn s.queue s.mem.ops m := by
  unfold State.portSound
  cases s.ports[m] <;> rfl

/-- Every entry of a queue is found in another, with its identity, master and posting. -/
def Carries (q q' : List Entry) : Prop :=
  ∀ e ∈ q, ∃ e' ∈ q', e'.id = e.id ∧ e'.master = e.master ∧ e'.posting = e.posting

theorem Carries.refl (q : List Entry) : Carries q q := fun e he => ⟨e, he, rfl, rfl, rfl⟩

theorem Carries.of_keeps {f : Entry → Entry} (hf : Keeps f) (q : List Entry) : Carries q (q.map f) :=
  fun e he => ⟨f e, List.mem_map_of_mem he, hf.id e, hf.master e, hf.posting e⟩

theorem Carries.id {q q' : List Entry} (h : Carries q q') {id : Nat} (he : ∃ e ∈ q, e.id = id) :
    ∃ e ∈ q', e.id = id := by
  obtain ⟨e, he, rfl⟩ := he
  obtain ⟨e', he', hid, -⟩ := h e he
  exact ⟨e', he', hid⟩

theorem QueueGrown.carries {s t : State} (h : QueueGrown s t) : Carries s.queue t.queue := by
  cases h with
  | updated f hf hq => exact hq ▸ .of_keeps hf s.queue
  | appended e _ _ _ _ _ hq =>
    intro x hx
    obtain ⟨x', hx', hkept⟩ := Carries.of_keeps (.seal fun y => y.master == e.master || y.line == e.line) s.queue x hx
    exact ⟨x', hq ▸ List.mem_append_left _ hx', hkept⟩

/-- A record stays sound while the entries and its operation are still there. -/
theorem soundIn_mono {q q' : List Entry} {ops ops' : List Op} {m : Master} {p : Port} (hq : Carries q q')
    (hops : ∀ o ∈ ops, ∀ a k, isReadOf o m a k → o ∈ ops') (h : p.soundIn q ops m) : p.soundIn q' ops' m := by
  cases p with
  | idle => trivial
  | ready a => trivial
  | blocked a ws => exact ⟨h.1, fun id hid => hq.id (h.2 id hid)⟩
  | fencing ws => exact ⟨h.1, fun id hid => hq.id (h.2 id hid)⟩
  | issued a k =>
    obtain ⟨o, ho, hread⟩ := h
    exact ⟨o, hops o ho a k hread, hread⟩
  | unposted a id =>
    obtain ⟨e, he, hid, hmaster, hposting⟩ := h
    obtain ⟨e', he', hid', hmaster', hposting'⟩ := hq e he
    exact ⟨e', he', hid'.trans hid, hmaster'.trans hmaster, hposting'.trans hposting⟩

/-- The part of `State.portsSound` about the records themselves. -/
structure RecordsSound (s : State) : Prop where
  named : ∀ m : Master, s.ports[m].soundIn s.queue s.mem.ops m
  waited : ∀ o ∈ s.mem.ops, ∀ i n, o.kind = .read i n true → ∃ a, s.ports[o.master] = .issued a o.slot
  halted : s.mem.state = .halted → ∀ m : Master, s.ports[m] = .idle

/-! ### Events that leave the list of operations alone -/

theorem RecordsSound.kept {s t : State} (h : RecordsSound s) (hp : t.ports = s.ports) (hq : Carries s.queue t.queue)
    (hops : t.mem.ops = s.mem.ops) (hstate : t.mem.state = .halted → s.mem.state = .halted) : RecordsSound t := by
  constructor
  · intro m
    rw [hp, hops]
    exact soundIn_mono hq (fun o ho _ _ _ => ho) (h.named m)
  · rw [hp, hops]
    exact h.waited
  · rw [hp]
    exact fun hh => h.halted (hstate hh)

/-- A request taken moves its master's port from IDLE to a record that names what exists. -/
theorem RecordsSound.setPort {s t : State} {m : Master} {p : Port} (h : RecordsSound s) (hidle : s.ports[m] = .idle)
    (hm : t.mem = s.mem) (hnormal : s.mem.state ≠ .halted) (hp : t.ports = s.ports.set m p)
    (hq : Carries s.queue t.queue) (hsound : p.soundIn t.queue t.mem.ops m) : RecordsSound t := by
  have hget (n : Master) : t.ports[n] = if m = n then p else s.ports[n] := by rw [hp, ports_set_get]
  constructor
  · intro n
    rw [hget]
    split
    · subst_vars
      exact hsound
    · rw [hm]
      exact soundIn_mono hq (fun o ho _ _ _ => ho) (h.named n)
  · intro o ho i n hk
    rw [hm] at ho
    obtain ⟨a, ha⟩ := h.waited o ho i n hk
    have hne : m ≠ o.master := by
      rintro rfl
      simp [hidle] at ha
    rw [hget, if_neg hne]
    exact ⟨a, ha⟩
  · rw [hm]
    exact fun hh => absurd hh hnormal

theorem readPort_soundIn {q q' : List Entry} {ops : List Op} {m : Master} (a : Access) (p : Entry → Bool)
    (hq : Carries q q') : (readPort a ((q.filter p).map Entry.id)).soundIn q' ops m := by
  unfold readPort
  split
  · trivial
  · refine ⟨by assumption, fun id hid => hq.id ?_⟩
    obtain ⟨e, he, rfl⟩ := List.mem_map.mp hid
    exact ⟨e, List.mem_of_mem_filter he, rfl⟩

theorem fencing_soundIn {q q' : List Entry} {ops : List Op} {m : Master} (p : Entry → Bool)
    (hne : (q.filter p).map Entry.id ≠ []) (hq : Carries q q') :
    (Port.fencing ((q.filter p).map Entry.id)).soundIn q' ops m := by
  refine ⟨hne, fun id hid => hq.id ?_⟩
  obtain ⟨e, he, rfl⟩ := List.mem_map.mp hid
  exact ⟨e, List.mem_of_mem_filter he, rfl⟩

/-! ### Grants -/

theorem grant_q_ports (s : State) : (s.grant .q).ports = s.ports := by
  simp only [State.grant, State.issueWrite]
  split <;> rfl

theorem grant_p_ports {s : State} {m : Master} {a : Access} (h : s.ports[m] = .ready a) :
    (s.grant (.p m)).ports = s.ports.set m (.issued a s.freeOpSlot) := by
  simp only [State.grant, State.issueRead, h]
  rfl

theorem RecordsSound.granted_q {s : State} (hc : s.claiming .q) (h : RecordsSound s) : RecordsSound (s.grant .q) := by
  obtain ⟨-, hnormal, -⟩ := claiming_canIssue hc
  obtain ⟨-, -, e, rest, hqueue, -⟩ := hc
  have hports := grant_q_ports s
  have hcarries : Carries s.queue (s.grant .q).queue := by
    rw [grant_q_queue hqueue, hqueue]
    intro x hx
    rcases List.mem_cons.mp hx with rfl | hx
    · exact ⟨_, List.mem_cons_self, rfl, rfl, rfl⟩
    · exact ⟨x, List.mem_cons_of_mem _ hx, rfl, rfl, rfl⟩
  have hmem := grant_q_mem hqueue
  constructor
  · intro m
    rw [hports, hmem]
    exact soundIn_mono hcarries (fun o ho _ _ _ => List.mem_append_left _ ho) (h.named m)
  · intro o ho i n hk
    rw [hmem] at ho
    rw [hports]
    rcases List.mem_append.mp ho with ho | ho
    · exact h.waited o ho i n hk
    · obtain rfl := List.mem_singleton.mp ho
      simp [State.stamped] at hk
  · rw [hmem]
    exact fun hh => absurd (hnormal.symm.trans hh) (by simp)

theorem RecordsSound.granted_p {s : State} {m : Master} (hc : s.claiming (.p m)) (h : RecordsSound s) :
    RecordsSound (s.grant (.p m)) := by
  obtain ⟨-, hnormal, -⟩ := claiming_canIssue hc
  obtain ⟨-, a, hready⟩ := hc
  have hget (n : Master) : (s.grant (.p m)).ports[n] = if m = n then .issued a s.freeOpSlot else s.ports[n] := by
    rw [grant_p_ports hready, ports_set_get]
  have hmem := grant_p_mem hready
  constructor
  · intro n
    rw [hget, hmem, grant_p_queue]
    split
    · subst_vars
      exact ⟨_, List.mem_append_right _ (List.mem_singleton_self _), rfl, rfl, rfl, rfl⟩
    · exact soundIn_mono (.refl _) (fun o ho _ _ _ => List.mem_append_left _ ho) (h.named n)
  · intro o ho i n hk
    rw [hmem] at ho
    rw [hget]
    rcases List.mem_append.mp ho with ho | ho
    · obtain ⟨b, hb⟩ := h.waited o ho i n hk
      have hne : m ≠ o.master := by
        rintro rfl
        simp [hready] at hb
      exact ⟨b, by rw [if_neg hne, hb]⟩
    · obtain rfl := List.mem_singleton.mp ho
      exact ⟨a, if_pos rfl⟩
  · rw [hmem]
    exact fun hh => absurd (hnormal.symm.trans hh) (by simp)

/-! ### Completions -/

theorem waitsFor_iff (p : Port) (k : OpSlot) : p.waitsFor k = true ↔ ∃ a, p = .issued a k := by
  unfold Port.waitsFor
  cases p <;> simp

/-- A matched READ answers the port that waits for it, and no other (R83, R126). -/
theorem complete_read_ports (s : State) {o : Op} {first : Fin 8} {count : Nat} {waiting : Bool} (status : MemStatus)
    (words : List Word) (hk : o.kind = .read first count waiting) :
    (s.complete o status words).ports =
      if (waiting && s.ports[o.master].waitsFor o.slot) = true then s.ports.set o.master .idle else s.ports := by
  simp only [State.complete, hk]
  repeat' split
  all_goals rfl

theorem complete_read_records {s : State} {o : Op} {rest : List Op} {first : Fin 8} {count : Nat} {waiting : Bool}
    (status : MemStatus) (words : List Word) (ho : s.mem.ops = o :: rest) (hk : o.kind = .read first count waiting)
    (hslots : s.mem.ops.Pairwise (fun o o' => o.slot ≠ o'.slot)) (h : RecordsSound s) :
    RecordsSound ({ s with mem := { s.mem with ops := rest } }.complete o status words) := by
  have hqueue := complete_read_queue { s with mem := { s.mem with ops := rest } } status words hk
  have hports := complete_read_ports { s with mem := { s.mem with ops := rest } } status words hk
  have hmem := complete_mem { s with mem := { s.mem with ops := rest } } o status words
  rw [ho] at hslots
  have hother := (List.pairwise_cons.mp hslots).1
  have hrest {o' : Op} (ho' : o' ∈ rest) : o' ∈ s.mem.ops := ho ▸ List.mem_cons_of_mem o ho'
  cases waiting with
  | false =>
    rw [Bool.false_and, if_neg (by simp)] at hports
    constructor
    · intro m
      rw [hports, hqueue, hmem]
      refine soundIn_mono (.refl _) (fun o' ho' a k hread => ?_) (h.named m)
      rcases List.mem_cons.mp (ho ▸ ho') with rfl | ho'
      · simp [isReadOf, hk] at hread
      · exact ho'
    · rw [hports, hmem]
      exact fun o' ho' => h.waited o' (hrest ho')
    · rw [hports, hmem]
      exact h.halted
  | true =>
    obtain ⟨a, hissued⟩ := h.waited o (ho ▸ List.mem_cons_self) first count hk
    have hget (n : Master) : ({ s with mem := { s.mem with ops := rest } }.complete o status words).ports[n] =
        if o.master = n then .idle else s.ports[n] := by
      rw [hports, Bool.true_and, if_pos ((waitsFor_iff _ _).mpr ⟨a, hissued⟩), ports_set_get]
    constructor
    · intro m
      rw [hget, hqueue, hmem]
      split
      · trivial
      · rename_i hne
        refine soundIn_mono (.refl _) (fun o' ho' b k ⟨_, _, _, hmaster⟩ => ?_) (h.named m)
        rcases List.mem_cons.mp (ho ▸ ho') with rfl | ho'
        · exact absurd hmaster hne
        · exact ho'
    · intro o' ho' i n hk'
      rw [hmem] at ho'
      obtain ⟨b, hb⟩ := h.waited o' (hrest ho') i n hk'
      have hne : o.master ≠ o'.master := by
        intro heq
        have hsame : Port.issued a o.slot = .issued b o'.slot := by rw [← hissued, ← hb]; simp only [heq]
        exact hother o' ho' (Port.issued.inj hsame).2
      exact ⟨b, by rw [hget, if_neg hne, hb]⟩
    · intro hh m
      rw [hget, h.halted (by rwa [hmem] at hh) m, ite_self]

/-- A port that learns of a removal names what is left (R62, R72, R80). -/
theorem onRemoval_soundIn {q : List Entry} {ops : List Op} {m : Master} {p : Port} {e : Entry}
    (hids : q.Pairwise (fun e e' => e.id ≠ e'.id)) (he : e ∈ q) (h : p.soundIn q ops m) :
    (p.onRemoval e m).1.soundIn (q.filter (fun x => x.id != e.id)) ops m := by
  have hleft {ws : List Nat} (hws : ∀ id ∈ ws, ∃ x ∈ q, x.id = id) :
      ∀ id ∈ ws.filter (fun x => x != e.id), ∃ x ∈ q.filter (fun x => x.id != e.id), x.id = id := by
    intro id hid
    obtain ⟨hid, hne⟩ := List.mem_filter.mp hid
    obtain ⟨x, hx, rfl⟩ := hws id hid
    exact ⟨x, List.mem_filter.mpr ⟨hx, hne⟩, rfl⟩
  cases p with
  | idle => trivial
  | ready a => trivial
  | issued a k => exact h
  | blocked a ws =>
    unfold Port.onRemoval
    dsimp only
    split
    · trivial
    · exact ⟨by assumption, hleft h.2⟩
  | fencing ws =>
    unfold Port.onRemoval
    dsimp only
    split
    · trivial
    · exact ⟨by assumption, hleft h.2⟩
  | unposted a id =>
    unfold Port.onRemoval
    dsimp only
    split
    · trivial
    · rename_i hnot
      obtain ⟨x, hx, hid, hmaster, hposting⟩ := h
      refine ⟨x, List.mem_filter.mpr ⟨hx, ?_⟩, hid, hmaster, hposting⟩
      rw [bne_iff_ne]
      intro heq
      obtain rfl := eq_of_id q hids x e hx he heq
      exact hnot ⟨hid.symm, hposting, hmaster⟩

theorem onRemoval_idle (e : Entry) (m : Master) : (Port.idle.onRemoval e m).1 = .idle := rfl

theorem onRemoval_issued (e : Entry) (m : Master) (a : Access) (k : OpSlot) :
    ((Port.issued a k).onRemoval e m).1 = .issued a k := rfl

/-- A removal tells every port of the entry removed, if there is one (R62). -/
theorem removeEntry_ports (s : State) (id : Nat) :
    (∃ e ∈ s.queue, e.id = id ∧ ∀ m : Master, (s.removeEntry id).ports[m] = (s.ports[m].onRemoval e m).1) ∨
      ((∀ e ∈ s.queue, e.id ≠ id) ∧ s.removeEntry id = s) := by
  cases hfind : s.queue.find? (fun e => e.id == id) with
  | none =>
    refine .inr ⟨fun e he => by simpa using List.find?_eq_none.mp hfind e he, ?_⟩
    simp only [State.removeEntry, hfind]
  | some e =>
    have hid := List.find?_some hfind
    refine .inl ⟨e, List.mem_of_find?_eq_some hfind, by simpa using hid, fun m => ?_⟩
    simp only [State.removeEntry, hfind, State.movePorts_ports]
    simp

theorem complete_write_records {s : State} {o : Op} {rest : List Op} {id : Nat} (status : MemStatus)
    (words : List Word) (ho : s.mem.ops = o :: rest) (hk : o.kind = .write id)
    (hids : s.queue.Pairwise (fun e e' => e.id ≠ e'.id)) (h : RecordsSound s) :
    RecordsSound ({ s with mem := { s.mem with ops := rest } }.complete o status words) := by
  have hmem := complete_mem { s with mem := { s.mem with ops := rest } } o status words
  have hrest {o' : Op} (ho' : o' ∈ rest) : o' ∈ s.mem.ops := ho ▸ List.mem_cons_of_mem o ho'
  have hnamed (m : Master) : s.ports[m].soundIn s.queue rest m := by
    refine soundIn_mono (.refl _) (fun o' ho' a k hread => ?_) (h.named m)
    rcases List.mem_cons.mp (ho ▸ ho') with rfl | ho'
    · simp [isReadOf, hk] at hread
    · exact ho'
  rw [complete_write_eq _ status words hk] at hmem ⊢
  rcases removeEntry_ports { s with mem := { s.mem with ops := rest } } id with ⟨e, he, rfl, hports⟩ | ⟨-, hsame⟩
  · constructor
    · intro m
      rw [hports, hmem, removeEntry_queue]
      exact onRemoval_soundIn hids he (hnamed m)
    · intro o' ho' i n hk'
      rw [hmem] at ho'
      obtain ⟨a, ha⟩ := h.waited o' (hrest ho') i n hk'
      exact ⟨a, by rw [hports, ha, onRemoval_issued]⟩
    · intro hh m
      rw [hports, h.halted (by rwa [hmem] at hh) m, onRemoval_idle]
  · rw [hsame]
    exact ⟨hnamed, fun o' ho' => h.waited o' (hrest ho'), h.halted⟩

/-! ### Halts and port resets -/

theorem onHalt_idle (q : List Entry) (p : Port) : (p.onHalt q).1 = .idle := by
  unfold Port.onHalt
  repeat' split
  all_goals rfl

theorem halt_ports {s : State} {o : Op} {rest : List Op} (h : s.mem.ops = o :: rest) (m : Master) :
    s.halt.ports[m] = .idle := by
  simp [State.halt, h, onHalt_idle]

theorem RecordsSound.of_idle {s : State} (hp : ∀ m : Master, s.ports[m] = .idle) (hops : s.mem.ops = []) :
    RecordsSound s := by
  constructor
  · intro m
    rw [hp]
    trivial
  · simp [hops]
  · exact fun _ => hp

/-- An operation a port reset leaves with its port waiting is one of another master (R139). -/
theorem orphan_waiting {m : Master} {o : Op} {i : Fin 8} {n : Nat} (h : (Op.orphan m o).kind = .read i n true) :
    o.master ≠ m ∧ Op.orphan m o = o := by
  unfold Op.orphan at h ⊢
  split
  · rename_i hk
    by_cases hm : o.master = m
    · simp [hk, hm] at h
    · exact ⟨hm, if_neg hm⟩
  · rename_i hk
    simp [hk] at h
  · rename_i hk
    simp [hk] at h

theorem orphan_other {m : Master} {o : Op} (h : o.master ≠ m) : Op.orphan m o = o := by
  unfold Op.orphan
  repeat' split
  · contradiction
  all_goals rfl

theorem RecordsSound.portReset {s : State} (m : Master) (h : RecordsSound s) : RecordsSound (s.portReset m) := by
  obtain ⟨-, -, -, -, -, -, hports, hqueue, hmem, -⟩ := portReset_parts s m
  have hget (n : Master) : (s.portReset m).ports[n] = if m = n then .idle else s.ports[n] := by
    rw [hports, ports_set_get]
  constructor
  · intro n
    rw [hget, hqueue, hmem]
    split
    · trivial
    · rename_i hne
      refine soundIn_mono (.of_keeps (.seal _) _) (fun o ho a k ⟨_, _, _, hmaster⟩ => ?_) (h.named n)
      have hother : o.master ≠ m := fun heq => hne (heq.symm.trans hmaster)
      exact List.mem_map.mpr ⟨o, ho, orphan_other hother⟩
  · intro o' ho' i n hk
    rw [hmem] at ho'
    obtain ⟨o, ho, rfl⟩ := List.mem_map.mp ho'
    obtain ⟨hother, heq⟩ := orphan_waiting hk
    rw [heq] at hk ⊢
    rw [hget, if_neg hother.symm]
    exact h.waited o ho i n hk
  · intro hh n
    rw [hmem] at hh
    rw [hget, h.halted hh n, ite_self]

/-! ### Every event -/

theorem Commanded.ports {s u : State} (h : Commanded s u) : u.ports = s.ports ∧ u.prst = s.prst := by
  cases h <;> exact ⟨rfl, rfl⟩

theorem Event.recordsSound {s t : State} (h : Event s t) (hids : s.queue.Pairwise (fun e e' => e.id ≠ e'.id))
    (hslots : s.mem.ops.Pairwise (fun o o' => o.slot ≠ o'.slot)) (hs : RecordsSound s) : RecordsSound t := by
  cases h with
  | readStarted m a k bypass e ht hm =>
    obtain ⟨-, -, hidle⟩ := ht
    rw [applyHold_other]
    have hcarries : Carries s.queue (sealWhere (fun e => e.line == a.line) s.queue) := .of_keeps (.seal _) _
    exact hs.setPort hidle rfl hm rfl hcarries (readPort_soundIn a _ hcarries)
  | writeMerged m a ws k target e _ _ htarget =>
    rw [applyHold_other]
    obtain ⟨hmem, hopened⟩ := mergeTarget_mem s m a.line target htarget
    obtain ⟨f, hf, hmap⟩ := Keeps.merge s target (placeWords a.first ws) k hopened hids hmem
    have hcarries : Carries s.queue (s.mergeInto target (placeWords a.first ws) k).queue := by
      rw [State.mergeInto, hmap]
      exact .of_keeps hf _
    exact hs.kept rfl hcarries rfl id
  | writeAppended m a ws k posting combining e ht _ _ hm =>
    obtain ⟨hq, -, hmem⟩ := answerWrite_applyHold_parts (s.appendEntry m a.line (placeWords a.first ws) posting
      (newEntryState posting combining k)) m a e posting s.nextId
    have hcarries : Carries s.queue (s.appendEntry m a.line (placeWords a.first ws) posting
        (newEntryState posting combining k)).queue := by
      intro x hx
      obtain ⟨x', hx', hkept⟩ := Carries.of_keeps (.seal fun y => y.master == m || y.line == a.line) s.queue x hx
      exact ⟨x', List.mem_append_left _ hx', hkept⟩
    rw [← hq] at hcarries
    have hports : ((s.appendEntry m a.line (placeWords a.first ws) posting
        (newEntryState posting combining k)).applyHold m a.line e).ports = s.ports :=
      applyHold_ports _ m a.line e
    cases posting with
    | posted => exact hs.kept hports hcarries (congrArg _ hmem) (hmem ▸ id)
    | unposted =>
      obtain ⟨-, -, hidle⟩ := ht
      refine hs.setPort hidle hmem (hm rfl) (by rw [← hports]; rfl) hcarries ?_
      rw [hq]
      exact ⟨_, List.mem_append_right _ (List.mem_singleton_self _), rfl, rfl, rfl⟩
  | fenceStarted m ht hm hne =>
    obtain ⟨-, -, hidle⟩ := ht
    have hcarries : Carries s.queue (sealWhere (fun e => e.master == m) s.queue) := .of_keeps (.seal _) _
    exact hs.setPort hidle rfl hm rfl hcarries (fencing_soundIn _ hne hcarries)
  | granted c hc =>
    cases c with
    | q => exact hs.granted_q hc
    | p m => exact hs.granted_p hc
  | completed o rest status words _ ho =>
    cases hk : o.kind with
    | write id => exact complete_write_records status words ho hk hids hs
    | read first count waiting => exact complete_read_records status words ho hk hslots hs
  | halted r hr =>
    obtain ⟨o, rest, ho, -⟩ := (oldestTimer_eq s r).mp hr
    exact .of_idle (halt_ports ho) (by rw [halt_mem ho])
  | expired i =>
    obtain ⟨-, -, -, -, -, -, hmem, hports, hqueue⟩ := expireHold_parts s i
    exact hs.kept hports (hqueue ▸ .refl _) (congrArg _ hmem) (hmem ▸ id)
  | portReset m => exact hs.portReset m
  | commanded l u r _ _ hu =>
    obtain ⟨hqueue, -, hmem⟩ := hu.memory
    refine hs.kept hu.ports.1 (show Carries s.queue u.queue from hqueue ▸ .refl _) ?_ ?_
    · show u.mem.ops = s.mem.ops
      rcases hmem with hmem | hmem <;> rw [hmem]
    · show u.mem.state = .halted → s.mem.state = .halted
      rcases hmem with hmem | hmem <;> simp [hmem]
  | _ => exact hs.kept rfl (.refl _) rfl id

end Sys2Proof.Machine
end

section
/-! SUPPORT. The inputs PRST0 to PRST3 over every event: a port whose PRSTn is asserted stays IDLE and its master
without a hold (R20, R21, R114); with that, the port records stay sound. -/

namespace Sys2Proof.Machine

/-- The input of a port is asserted by PORT_RESET_ASSERT of that port alone. -/
theorem Event.prst {s t : State} (h : Event s t) (n : Master) (hn : t.prst[n] = true) :
    s.prst[n] = true ∨ t = s.portReset n := by
  cases h with
  | portReset m =>
    rw [portReset_prst s m, prst_set_get] at hn
    split at hn
    · subst_vars
      exact .inr rfl
    · exact .inl hn
  | portReleased m =>
    rw [prst_set_get] at hn
    split at hn
    · simp at hn
    · exact .inl hn
  | readStarted =>
    rw [applyHold_other] at hn
    exact .inl hn
  | writeMerged =>
    rw [applyHold_other] at hn
    exact .inl hn
  | writeAppended =>
    rw [answerWrite_other, applyHold_other] at hn
    exact .inl hn
  | granted c =>
    rw [grant_prst s c] at hn
    exact .inl hn
  | completed o rest status words =>
    rw [complete_prst _ o status words] at hn
    exact .inl hn
  | halted =>
    rw [halt_prst s] at hn
    exact .inl hn
  | expired i =>
    rw [expireHold_prst s i] at hn
    exact .inl hn
  | commanded l u r _ _ hu =>
    rw [State.respond_prst, hu.ports.2] at hn
    exact .inl hn
  | _ => exact .inl hn

/-- A port that is not the one set stays IDLE. -/
theorem ports_set_idle {v : Vector Port 4} {m n : Master} {p : Port} (hidle : v[n] = .idle) (h : m = n → p = .idle) :
    (v.set m p)[n] = .idle := by
  rw [ports_set_get]
  split
  · exact h (by assumption)
  · exact hidle

/-- A port whose PRSTn is asserted takes no request, and so stays IDLE (R21). -/
theorem Event.idle_of_prst {s t : State} (h : Event s t) {n : Master} (hprst : s.prst[n] = true)
    (hidle : s.ports[n] = .idle) : t.ports[n] = .idle := by
  have other {m : Master} {p : Port} (ht : s.takesRequests m) (heq : m = n) : p = .idle := by
    subst heq
    obtain ⟨-, hreleased, -⟩ := ht
    simp [hreleased] at hprst
  cases h with
  | readStarted m a k bypass e ht =>
    rw [applyHold_other]
    exact ports_set_idle hidle (other ht)
  | writeMerged =>
    rw [applyHold_other]
    exact hidle
  | writeAppended m a ws k posting combining e ht =>
    have hports : ((s.appendEntry m a.line (placeWords a.first ws) posting
        (newEntryState posting combining k)).applyHold m a.line e).ports = s.ports :=
      applyHold_ports _ m a.line e
    cases posting with
    | posted => exact (congrArg (·[n]) hports).trans hidle
    | unposted => exact ports_set_idle ((congrArg (·[n]) hports).trans hidle) (other ht)
  | fenceStarted m ht => exact ports_set_idle hidle (other ht)
  | granted c hc =>
    cases c with
    | q => exact (congrArg (·[n]) (grant_q_ports s)).trans hidle
    | p m =>
      obtain ⟨-, a, hready⟩ := hc
      rw [grant_p_ports hready]
      refine ports_set_idle hidle ?_
      rintro rfl
      simp [hidle] at hready
  | completed o rest status words =>
    cases hk : o.kind with
    | write id =>
      rw [complete_write_eq _ status words hk]
      rcases removeEntry_ports { s with mem := { s.mem with ops := rest } } id with ⟨e, -, -, hports⟩ | ⟨-, hsame⟩
      · rw [hports, hidle, onRemoval_idle]
      · rw [hsame]
        exact hidle
    | read first count waiting =>
      rw [complete_read_ports _ status words hk]
      split
      · exact ports_set_idle hidle fun _ => rfl
      · exact hidle
  | halted r hr =>
    obtain ⟨o, rest, ho, -⟩ := (oldestTimer_eq s r).mp hr
    exact halt_ports ho n
  | expired i =>
    rw [expireHold_ports s i]
    exact hidle
  | portReset m =>
    rw [portReset_ports s m]
    exact ports_set_idle hidle fun _ => rfl
  | commanded l u r _ _ hu =>
    rw [State.respond_ports, hu.ports.1]
    exact hidle
  | _ => exact hidle

/-- A master whose PRSTn is asserted acquires no hold (R21). -/
theorem Event.heldBy_of_prst {s t : State} (h : Event s t) {n : Master} (hprst : s.prst[n] = true)
    (hnone : s.heldBy n = 0) : t.heldBy n = 0 := by
  rcases h.holds with hreduced | ⟨m, l, i, hacquired⟩
  · exact Nat.le_zero.mp (hnone ▸ heldBy_le_of_reduced hreduced n)
  · have hne : n ≠ m := by
      rintro rfl
      obtain ⟨-, hreleased, -⟩ := hacquired.takes
      simp [hreleased] at hprst
    have hle := hacquired.heldBy_le n
    rw [if_neg hne, hnone] at hle
    exact Nat.le_zero.mp hle

/-- A port reset leaves its master's port IDLE and its master without a hold (R20, R114). -/
theorem portReset_released (s : State) (m : Master) :
    (s.portReset m).ports[m] = .idle ∧ (s.portReset m).heldBy m = 0 := by
  obtain ⟨-, -, -, -, -, -, hports, -, -, hholds⟩ := portReset_parts s m
  constructor
  · rw [hports, ports_set_get, if_pos rfl]
  · refine (heldBy_zero _ m).mpr fun i h hslot howner => ?_
    rw [hholds] at hslot
    simp only [Fin.getElem_fin, Vector.getElem_ofFn] at hslot
    unfold dropOwned at hslot
    split at hslot
    · split at hslot
      · simp at hslot
      · rename_i hne
        obtain rfl := Option.some.inj hslot
        exact hne howner
    · simp at hslot

/-! ### Identities -/

/-- Entries stay told apart by their identities, all of them known to the counter (R43). -/
theorem QueueChange.ids {s t : State} (h : QueueChange s t) (hids : s.queue.Pairwise (fun e e' => e.id ≠ e'.id))
    (hknown : ∀ e ∈ s.queue, e.id < s.nextId) :
    t.queue.Pairwise (fun e e' => e.id ≠ e'.id) ∧ ∀ e ∈ t.queue, e.id < t.nextId := by
  have updated {f : Entry → Entry} (hf : Keeps f) :
      (s.queue.map f).Pairwise (fun e e' => e.id ≠ e'.id) ∧ ∀ e ∈ s.queue.map f, e.id < s.nextId := by
    refine ⟨hids.map f fun e e' h => by rwa [hf.id, hf.id], fun x hx => ?_⟩
    obtain ⟨e, he, rfl⟩ := List.mem_map.mp hx
    rw [hf.id]
    exact hknown e he
  cases h with
  | grown h =>
    cases h with
    | updated f hf hq hn =>
      rw [hq, hn]
      exact updated hf
    | appended e _ hid _ _ _ hq hn =>
      obtain ⟨hids', hknown'⟩ := updated (.seal fun x => x.master == e.master || x.line == e.line)
      rw [hq, hn]
      refine ⟨List.pairwise_append.mpr ⟨hids', List.pairwise_singleton _ e, fun x hx e' he' => ?_⟩, fun x hx => ?_⟩
      · obtain rfl := List.mem_singleton.mp he'
        have := hknown' x hx
        omega
      · rcases List.mem_append.mp hx with hx | hx
        · exact Nat.lt_succ_of_lt (hknown' x hx)
        · obtain rfl := List.mem_singleton.mp hx
          omega
  | issued e rest hold hq hn =>
    rw [hold] at hids hknown
    obtain ⟨hhead, htail⟩ := List.pairwise_cons.mp hids
    rw [hq, hn]
    refine ⟨List.pairwise_cons.mpr ⟨hhead, htail⟩, fun x hx => ?_⟩
    rcases List.mem_cons.mp hx with rfl | hx
    · exact hknown e List.mem_cons_self
    · exact hknown x (List.mem_cons_of_mem e hx)
  | removed p hq hn =>
    rw [hq, hn]
    exact ⟨hids.sublist List.filter_sublist, fun x hx => hknown x (List.mem_of_mem_filter hx)⟩

/-! ### The ports -/

theorem Event.portsSound {s t : State} (h : Event s t) (hs : s.portsSound) : t.portsSound := by
  obtain ⟨hids, hknown, hslots, hnamed, hwaited, hprst, hhalted⟩ := hs
  have hchange := h.memory hids
  have hrecords : RecordsSound t :=
    h.recordsSound hids hslots ⟨fun m => (portSound_iff s m).mp (hnamed m), hwaited, hhalted⟩
  obtain ⟨hids', hknown'⟩ := hchange.queue.ids hids hknown
  refine ⟨hids', hknown', hchange.slots hslots, fun m => (portSound_iff t m).mpr (hrecords.named m), hrecords.waited,
    fun m hm => ?_, hrecords.halted⟩
  rcases h.prst m hm with hm | rfl
  · obtain ⟨hidle, hnone⟩ := hprst m hm
    exact ⟨h.idle_of_prst hm hidle, h.heldBy_of_prst hm hnone⟩
  · exact portReset_released s m

/-- With every port IDLE, nothing outstanding, no entry and no hold, the ports are sound. -/
theorem portsSound_of_reset {s : State} (hp : s.ports = State.reset.ports) (hm : s.mem = State.reset.mem)
    (hq : s.queue = []) (hh : s.holds = State.reset.holds) : s.portsSound := by
  have hidle (m : Master) : s.ports[m] = .idle := by
    rw [hp]
    fin_cases m <;> rfl
  have hops : s.mem.ops = [] := by rw [hm]; rfl
  have hrecords : RecordsSound s := .of_idle hidle hops
  refine ⟨by simp [hq], by simp [hq], by simp [hops], fun m => (portSound_iff s m).mpr (hrecords.named m),
    hrecords.waited, fun m _ => ⟨hidle m, (heldBy_zero s m).mpr fun i h hi => ?_⟩, hrecords.halted⟩
  rw [hh, reset_holds] at hi
  simp at hi

/-- Settles O58: the records, the identities and op slots they name things by, and the reset inputs, each over every
event. -/
theorem stepKeepsPortsSound : Obligations.StepKeepsPortsSound := by
  intro s t hs hstep
  rcases step_event s t hstep with ⟨rest, -, rfl⟩ | ⟨rest, n, hevent⟩
  · exact portsSound_of_reset rfl rfl rfl rfl
  · exact hevent.portsSound hs

end Sys2Proof.Machine
end

section
/-! SUPPORT. A READ or WRITE of good form is judged in one way up to the end of stage 3, whatever follows for its kind
(R13, R28 to R31, R93 to R99). -/

namespace Sys2Proof.Machine

/-- Settles O5: under RESET or PRSTn the arrival discards a request before any acceptance is looked at. -/
theorem requestsDiscardedUnderReset : Obligations.RequestsDiscardedUnderReset := by
  intro s i m hi hreset
  obtain ⟨accept, hexec⟩ := exec_request i m hi
  rw [hexec, request_discarded s m accept hreset]

/-! ### Stage 1 -/

theorem exec_read_taken {s : State} {m : Master} (f : Fields) (ht : s.takesRequests m) :
    exec (.read m f) s = .next (s.acceptRead m f) :=
  congrArg _ (request_accepted s m (fun t => t.acceptRead m f) ht)

theorem exec_write_taken {s : State} {m : Master} (f : Fields) (ht : s.takesRequests m) :
    exec (.write m f) s = .next (s.acceptWrite m f) :=
  congrArg _ (request_accepted s m (fun t => t.acceptWrite m f) ht)

theorem exec_fence_taken {s : State} {m : Master} (f : Fields) (ht : s.takesRequests m) :
    exec (.fence m f) s = .next (s.acceptFence m f) :=
  congrArg _ (request_accepted s m (fun t => t.acceptFence m f) ht)

theorem exec_drop_accepted {s : State} {m : Master} (f : Fields) (ht : s.takesRequests m) :
    exec (.drop m f) s = .next (s.acceptDrop m f) :=
  congrArg _ (request_accepted s m (fun t => t.acceptDrop m f) ht)

theorem acceptRead_malformed {s : State} {m : Master} {f : Fields} (h : ∀ a k, ¬ GoodRead f a k) :
    s.acceptRead m f = s.told m (.refused .malformed) := by
  have hform : readForm f = none :=
    Option.eq_none_iff_forall_ne_some.mpr fun ⟨a, k⟩ hsome => h a k ((readForm_iff f a k).mp hsome)
  simp only [State.acceptRead, hform, answer_eq_told]

theorem acceptWrite_malformed {s : State} {m : Master} {f : Fields} (h : ∀ a ws k, ¬ GoodWrite f a ws k) :
    s.acceptWrite m f = s.told m (.refused .malformed) := by
  have hform : writeForm f = none :=
    Option.eq_none_iff_forall_ne_some.mpr fun ⟨a, ws, k⟩ hsome => h a ws k ((writeForm_iff f a ws k).mp hsome)
  simp only [State.acceptWrite, hform, answer_eq_told]

theorem acceptFence_malformed {s : State} {m : Master} {f : Fields} (h : f ≠ noFields) :
    s.acceptFence m f = s.told m (.refused .malformed) := by
  have hform : fenceForm f = false := by simpa using mt (fenceForm_iff f).mp h
  rw [State.acceptFence, if_pos hform, answer_eq_told]

theorem acceptDrop_malformed {s : State} {m : Master} {f : Fields} (h : ∀ l, f ≠ dropFields l) :
    s.acceptDrop m f = s.told m (.refused .malformed) := by
  have hform : dropForm f = none :=
    Option.eq_none_iff_forall_ne_some.mpr fun l hsome => h l ((dropForm_iff f l).mp hsome)
  simp only [State.acceptDrop, hform, answer_eq_told]

/-- Settles O7, kind by kind: the form of each is its fields in the manual's words (`readForm_iff` and the like). -/
theorem malformedAnswered : Obligations.MalformedAnswered := by
  intro s m f ht
  refine ⟨fun h => ?read, fun h => ?write, fun h => ?fence, fun h => ?drop, ?unknown⟩
  case read => rw [exec_read_taken f ht, acceptRead_malformed h]
  case write => rw [exec_write_taken f ht, acceptWrite_malformed h]
  case fence => rw [exec_fence_taken f ht, acceptFence_malformed h]
  case drop => rw [exec_drop_accepted f ht, acceptDrop_malformed h]
  case unknown => exact congrArg _ (request_accepted s m (fun t => t.answer m (.refused .malformed)) ht)

/-! ### Stages 2 and 3 -/

/-- The governing record's checks and the holds' come next for a READ as for a WRITE (R13). -/
theorem exec_access {s : State} {m : Master} {i : Instr} {a : Access} {k : Mark} {needed : MasterSet}
    (ht : s.takesRequests m) (h : s.accessRequest m i a k needed) :
    ∃ passed, exec i s = .next (s.judgeAccess m a.line k needed passed) := by
  rcases h with ⟨f, rfl, hgood, rfl⟩ | ⟨f, ws, rfl, hgood, rfl⟩
  · rw [exec_read_taken f ht, State.acceptRead, (readForm_iff f a k).mpr hgood]
    exact ⟨_, rfl⟩
  · rw [exec_write_taken f ht, State.acceptWrite, (writeForm_iff f a ws k).mpr hgood]
    exact ⟨_, rfl⟩

theorem judgeAccess_denied {s : State} {m : Master} {l : Line} {k : Mark} {needed : MasterSet}
    (g : HoldEffect → State) (h : needed.has m = false) :
    s.judgeAccess m l k needed g =
      (s.told m (.refused .denied)).raise (.denied m l (s.windows.governingNumber l)) := by
  rw [State.judgeAccess, if_pos h, answer_eq_told]

/-- Settles O9: the check of permission is the first after the form, and reads no mark. -/
theorem deniedRaisesIncident : Obligations.DeniedRaisesIncident := by
  intro s m i a k needed ht haccess hdenied
  obtain ⟨passed, hexec⟩ := exec_access ht haccess
  exact ⟨_, hexec.trans (congrArg _ (judgeAccess_denied passed hdenied)), Raised.one _ _⟩

theorem judgeAccess_noHold {s : State} {m : Master} {l : Line} {k : Mark} {needed : MasterSet}
    (g : HoldEffect → State) (h : needed.has m = true) (hk : k = .take) (hh : (s.windows.governing l).hold = false) :
    s.judgeAccess m l k needed g = s.told m (.refused .noHold) := by
  rw [State.judgeAccess, if_neg (by simp [h]), if_pos ⟨hk, hh⟩, answer_eq_told]

/-- A request that stage 3 stops is answered and does nothing else (R13). -/
theorem exec_access_fail {s : State} {m : Master} {i : Instr} {a : Access} {k : Mark} {needed : MasterSet}
    {answer : Answer} (ht : s.takesRequests m) (h : s.accessRequest m i a k needed)
    (hw : s.passesWindow m a.line k needed) (hc : s.holdCheck m a.line k = .fail answer) :
    exec i s = .next (s.told m answer) := by
  obtain ⟨passed, hexec⟩ := exec_access ht h
  rw [hexec, judgeAccess_window s m a.line k needed passed hw, hc]
  rfl

/-- Settles O10: stage 2 on the governing record's hold flag, then stage 3's first check. -/
theorem noHoldAndHeldAnswered : Obligations.NoHoldAndHeldAnswered := by
  intro s m i a k needed ht haccess
  refine ⟨fun hhas hk hh => ?noHold, fun hw hheld => ?held⟩
  case noHold =>
    obtain ⟨passed, hexec⟩ := exec_access ht haccess
    rw [hexec, judgeAccess_noHold passed hhas hk hh]
  case held => exact exec_access_fail ht haccess hw (holdCheck_held s m a.line k hheld)

/-- Settles O11: stage 3 finds the master's own entry BROKEN before anything of the later stages is looked at. -/
theorem lostRemovesBrokenEntry : Obligations.LostRemovesBrokenEntry := by
  intro s m i a k needed slot h hs ht haccess hw hother hown hbroken hk
  obtain ⟨passed, hexec⟩ := exec_access ht haccess
  rw [hexec, judgeAccess_window s m a.line k needed passed hw,
    holdCheck_lost s m a.line k slot h hs hother hown hbroken hk]
  rfl

theorem acquireCheck_lineBusy {s : State} {m : Master} {l : Line} (h : s.otherReads m l) :
    s.acquireCheck m l = .fail (.retry .lineBusy) := by
  rw [State.acquireCheck, if_pos ((readInFlight_iff s m l).mpr h)]

theorem acquireCheck_holdLimit {s : State} {m : Master} {l : Line} (h : ¬ s.otherReads m l) (hm : 2 ≤ s.heldBy m) :
    s.acquireCheck m l = .fail (.refused .holdLimit) := by
  rw [State.acquireCheck, if_neg (mt (readInFlight_iff s m l).mp h),
    if_pos (show Config.holdsPerMaster ≤ s.heldBy m from hm)]

theorem acquireCheck_holdsFull {s : State} {m : Master} {l : Line} (h : ¬ s.otherReads m l) (hm : s.heldBy m < 2)
    (hc : 8 ≤ s.holdCount) : s.acquireCheck m l = .fail (.retry .holdsFull) := by
  rw [State.acquireCheck, if_neg (mt (readInFlight_iff s m l).mp h),
    if_neg (show ¬ Config.holdsPerMaster ≤ s.heldBy m from Nat.not_le.mpr hm),
    if_pos (show Config.holdCapacity ≤ s.holdCount from hc)]

/-- Settles O12: a TAKE without an entry of its own comes to the three acquisition checks, in their order. -/
theorem acquisitionChecksInOrder : Obligations.AcquisitionChecksInOrder := by
  intro s m i a needed ht haccess hw hother hnone
  have hcheck := holdCheck_acquire s m a.line hother hnone
  refine ⟨fun hreads => ?busy, fun hreads hheld => ?limit, fun hreads hheld hcount => ?full⟩
  case busy => exact exec_access_fail ht haccess hw (hcheck.trans (acquireCheck_lineBusy hreads))
  case limit => exact exec_access_fail ht haccess hw (hcheck.trans (acquireCheck_holdLimit hreads hheld))
  case full => exact exec_access_fail ht haccess hw (hcheck.trans (acquireCheck_holdsFull hreads hheld hcount))

end Sys2Proof.Machine
end

section
/-! SUPPORT. Stages 4 and 5: what follows for a READ, a WRITE and a FENCE that stages 1 to 3 have passed (R13
to R17). -/

namespace Sys2Proof.Machine

/-- A READ past stage 3 meets the Memory Port's state, then starts (R16, R70). -/
theorem exec_read_passed {s : State} {m : Master} {f : Fields} {a : Access} {k : Mark} {e : HoldEffect}
    (ht : s.takesRequests m) (hgood : GoodRead f a k)
    (hw : s.passesWindow m a.line k (s.windows.governing a.line).readSet) (hc : s.holdCheck m a.line k = .pass e) :
    exec (.read m f) s = .next
      (if s.mem.state = .halted then s.told m (.error .memDown)
       else (s.startRead m a (s.windows.governing a.line).bypass).applyHold m a.line e) := by
  rw [exec_read_taken f ht, State.acceptRead, (readForm_iff f a k).mpr hgood]
  dsimp only
  rw [judgeAccess_window s m a.line k _ _ hw, hc]
  rfl

/-- A WRITE past stage 3 meets the Memory Port's state if it is UNPOSTED, then the queue (R16, R47). -/
theorem exec_write_passed {s : State} {m : Master} {f : Fields} {a : Access} {ws : List WordData} {k : Mark}
    {e : HoldEffect} (ht : s.takesRequests m) (hgood : GoodWrite f a ws k)
    (hw : s.passesWindow m a.line k (s.windows.governing a.line).writeSet) (hc : s.holdCheck m a.line k = .pass e) :
    exec (.write m f) s = .next
      (if s.mem.state = .halted ∧ (s.windows.governing a.line).posting = .unposted then
         s.told m (.error .memDown)
       else s.takeWrite m a ws k (s.windows.governing a.line) e) := by
  rw [exec_write_taken f ht, State.acceptWrite, (writeForm_iff f a ws k).mpr hgood]
  dsimp only
  rw [judgeAccess_window s m a.line k _ _ hw, hc]
  rfl

theorem exec_fence_formed {s : State} {m : Master} (ht : s.takesRequests m) :
    exec (.fence m noFields) s = .next
      (if s.mem.state = .halted then s.told m (.error .memDown)
       else if s.entriesOf m = [] then s.told m (.done [])
       else { s with queue := sealWhere (fun e => e.master == m) s.queue }.setPort m (.fencing (s.entriesOf m))) := by
  rw [exec_fence_taken noFields ht, State.acceptFence, if_neg (by simp [(fenceForm_iff noFields).mpr rfl])]
  rfl

/-- Settles O13: each of the three meets stage 4 before it has any effect. -/
theorem haltedAnswersMemDown : Obligations.HaltedAnswersMemDown := by
  intro s m ht hhalted
  refine ⟨fun f a k hgood hw hh => ?read, fun f a ws k hgood hw hh hposting => ?write, ?fence⟩
  case read =>
    obtain ⟨e, hc⟩ := holdCheck_pass s m a.line k hh
    rw [exec_read_passed ht hgood hw hc, if_pos hhalted]
  case write =>
    obtain ⟨e, hc⟩ := holdCheck_pass s m a.line k hh
    rw [exec_write_passed ht hgood hw hc, if_pos ⟨hhalted, hposting⟩]
  case fence => rw [exec_fence_formed ht, if_pos hhalted]

/-! ### A READ that starts -/

theorem waitedSet_eq_readWaits (s : State) (m : Master) (l : Line) (bypass : Bool) :
    s.waitedSet m l bypass = s.readWaits m l bypass := by
  unfold State.waitedSet State.readWaits
  congr 2
  funext e
  cases bypass <;> simp [Bool.decide_or, beq_eq_decide]

/-- Settles O14: the seal, the waited set and the hold are the manual's, each by its own law. -/
theorem readAccepted : Obligations.ReadAccepted := by
  intro s m f a k ht hgood hw hh hnormal
  obtain ⟨e, hc⟩ := holdCheck_pass s m a.line k hh
  refine ⟨_, exec_read_passed ht hgood hw hc, ?_⟩
  rw [if_neg (by simp [hnormal])]
  refine ⟨applyHold_holds s _ m a.line k e hc rfl rfl rfl, ?_⟩
  have hseal : sealWhere (fun e => e.line == a.line) s.queue =
      s.queue.map (fun e => if e.line = a.line then sealedEntry e else e) :=
    sealWhere_eq _ (fun e => e.line = a.line) s.queue fun e => beq_iff_eq
  rw [applyHold_other, ← hseal, ← waitedSet_eq_readWaits]
  rfl

/-! ### A FENCE -/

theorem entriesOf_eq_fenceWaits (s : State) (m : Master) : s.entriesOf m = s.fenceWaits m := by
  unfold State.entriesOf State.fenceWaits
  simp only [beq_eq_decide]

theorem entriesOf_eq_nil_iff (s : State) (m : Master) : s.entriesOf m = [] ↔ ∀ e ∈ s.queue, e.master ≠ m := by
  simp [State.entriesOf, List.filter_eq_nil_iff]

/-- Settles O18, by whether the master has an entry. -/
theorem fenceAnsweredOrWaits : Obligations.FenceAnsweredOrWaits := by
  intro s m ht hnormal
  rw [exec_fence_formed ht, if_neg (by simp [hnormal])]
  refine ⟨fun hnone => ?none, fun ⟨e, he, hm⟩ => ?some⟩
  case none => rw [if_pos ((entriesOf_eq_nil_iff s m).mpr hnone)]
  case some =>
    have hseal : sealWhere (fun e => e.master == m) s.queue =
        s.queue.map (fun e => if e.master = m then sealedEntry e else e) :=
      sealWhere_eq _ (fun e => e.master = m) s.queue fun e => beq_iff_eq
    rw [if_neg (fun hnil => (entriesOf_eq_nil_iff s m).mp hnil e he hm), hseal, entriesOf_eq_fenceWaits]
    rfl

/-! ### A WRITE and the queue -/

theorem not_halted_unposted {s : State} {g : Attributes} (h : g.posting = .unposted → s.mem.state = .normal) :
    ¬ (s.mem.state = .halted ∧ g.posting = .unposted) := by
  rintro ⟨hhalted, hposting⟩
  simp [h hposting] at hhalted

/-- A POSTED WRITE with an entry to merge into merges (R49, R50). -/
theorem takeWrite_merged {s : State} {m : Master} {a : Access} (ws : List WordData) (k : Mark) {g : Attributes}
    (e : HoldEffect) {target : Entry} (hposted : g.posting = .posted) (htarget : s.mergeTarget m a.line = some target) :
    s.takeWrite m a ws k g e =
      ((s.mergeInto target (placeWords a.first ws) k).applyHold m a.line e).answer m (.done []) := by
  simp only [State.takeWrite, if_pos hposted, htarget]

/-- A WRITE that cannot merge is appended while there is room, and otherwise turned away (R51, R54). -/
theorem takeWrite_unmerged {s : State} {m : Master} {a : Access} (ws : List WordData) (k : Mark) {g : Attributes}
    (e : HoldEffect) (hs : s.queueSound) (hnone : g.posting = .posted → ∀ e, ¬ s.mergesInto m a.line e) :
    s.takeWrite m a ws k g e =
      if s.queue.length < 16 then
        ((s.appendEntry m a.line (placeWords a.first ws) g.posting
          (newEntryState g.posting g.combining k)).applyHold m a.line e).answerWrite m a g.posting s.nextId
      else s.told m (.retry .queueFull) := by
  have htarget : (if g.posting = .posted then s.mergeTarget m a.line else none) = none := by
    split
    · exact (mergeTarget_none_iff s m a.line hs).mpr (hnone (by assumption))
    · rfl
  simp only [State.takeWrite, htarget]
  rfl

/-- Settles O17: with 16 entries the WRITE is turned away before its hold is made or released. -/
theorem fullQueueAnswersRetry : Obligations.FullQueueAnswersRetry := by
  intro s m f a ws k hs ht hgood hw hh hnormal hnone hfull
  obtain ⟨e, hc⟩ := holdCheck_pass s m a.line k hh
  rw [exec_write_passed ht hgood hw hc, if_neg (not_halted_unposted hnormal), takeWrite_unmerged ws k e hs hnone,
    if_neg (by omega)]

/-- A merge touches the one entry, OPEN, that it goes into (R50). -/
theorem mergeInto_queue {s : State} {e : Entry} (d : LineData) (k : Mark) (hs : s.queueSound) (he : e ∈ s.queue)
    (hopened : e.state = .opened) :
    (s.mergeInto e d k).queue =
      s.queue.map (fun x =>
        if x = e then { e with words := overlay d e.words, state := if k = .free then .sealed else .opened }
        else x) := by
  refine List.map_congr_left fun x hx => ?_
  by_cases hid : x.id = e.id
  · obtain rfl := eq_of_id s.queue (ids_ne_of_sound s hs) x e hx he hid
    simp [Entry.merge, hopened]
  · rw [if_neg hid, if_neg (fun h => hid (congrArg Entry.id h))]

/-- Settles O15: the entry found is the one the manual names, and the merge touches it alone. -/
theorem writeMerged : Obligations.WriteMerged := by
  intro s m f a ws k e hs ht hgood hw hh hposted hmerges
  obtain ⟨effect, hc⟩ := holdCheck_pass s m a.line k hh
  have hposting : ¬ (s.mem.state = .halted ∧ (s.windows.governing a.line).posting = .unposted) := by simp [hposted]
  have hexec := exec_write_passed ht hgood hw hc
  rw [if_neg hposting, takeWrite_merged ws k effect hposted (mergeTarget_of s m a.line e hs hmerges)] at hexec
  refine ⟨_, overlay (placeWords a.first ws) e.words, hexec, ?_, fun i j => ?_, ?_⟩
  · exact applyHold_holds s (s.mergeInto e (placeWords a.first ws) k) m a.line k effect hc rfl rfl rfl
  · rw [overlay_byte, placeWords_byte]
  · obtain ⟨hmem, -, hopened, -⟩ := hmerges
    rw [← mergeInto_queue _ k hs hmem hopened, applyHold_other]
    rfl

/-- Settles O16: the new entry, its seals and its answer, for a POSTED and for an UNPOSTED WRITE. -/
theorem writeAppended : Obligations.WriteAppended := by
  intro s m f a ws k hs ht hgood hw hh hnormal hnone hroom
  obtain ⟨effect, hc⟩ := holdCheck_pass s m a.line k hh
  have hexec := exec_write_passed ht hgood hw hc
  rw [if_neg (not_halted_unposted hnormal), takeWrite_unmerged ws k effect hs hnone, if_pos hroom] at hexec
  have hholds := applyHold_holds s (s.appendEntry m a.line (placeWords a.first ws)
    (s.windows.governing a.line).posting (newEntryState (s.windows.governing a.line).posting
      (s.windows.governing a.line).combining k)) m a.line k effect hc rfl rfl rfl
  have hseal : sealWhere (fun e => e.master == m || e.line == a.line) s.queue =
      s.queue.map (fun e => if e.master = m ∨ e.line = a.line then sealedEntry e else e) :=
    sealWhere_eq _ (fun e => e.master = m ∨ e.line = a.line) s.queue fun e => by simp
  refine ⟨_, placeWords a.first ws, hexec, ?_, placeWords_byte a ws, ?_⟩
  · rwa [answerWrite_other]
  · rw [← hseal, applyHold_other]
    cases (s.windows.governing a.line).posting <;> rfl

end Sys2Proof.Machine
end

section
/-! SUPPORT. The governing record: the search of the Window Table in the manual's words (R25, R26). -/

namespace Sys2Proof.Machine

theorem page_toNat (l : Line) : l.page.toNat = l.toNat / 128 := by
  have := l.isLt
  rw [Line.page, BitVec.toNat_ofNat]
  omega

theorem contains_iff (w : Window) (l : Line) : w.contains l = true ↔ inWindow w l := by
  unfold Window.contains inWindow
  rw [← page_toNat]
  simp [BitVec.le_def, and_assoc]

/-- The search of the table ends at the lowest number that fits. -/
theorem find?_windowNumbers {p : Fin 8 → Bool} {i : Fin 8} (h : windowNumbers.find? p = some i) :
    p i = true ∧ ∀ j < i, p j = false := by
  rw [show windowNumbers = List.finRange 8 by decide, List.find?_eq_some_iff_getElem] at h
  obtain ⟨hi, n, hn, rfl, hlower⟩ := h
  refine ⟨hi, fun j hj => ?_⟩
  have hjn : j.val < n := by simpa [Fin.lt_def] using hj
  simpa using hlower j.val hjn

theorem governingWindow_lowest {u : WindowUnit} {l : Line} {i : Fin 8} (hi : inWindow u.table[i] l)
    (hlower : ∀ j : Fin 8, j < i → ¬ inWindow u.table[j] l) : u.governingWindow l = some i := by
  cases hfind : u.governingWindow l with
  | none =>
    have hnone := List.find?_eq_none.mp hfind i (mem_windowNumbers i)
    exact absurd ((contains_iff _ l).mpr hi) hnone
  | some j =>
    obtain ⟨hj, hbefore⟩ := find?_windowNumbers hfind
    rcases lt_trichotomy i j with hlt | rfl | hgt
    · have hnot := hbefore i hlt
      rw [(contains_iff _ l).mpr hi] at hnot
      simp at hnot
    · rfl
    · exact absurd ((contains_iff _ l).mp hj) (hlower j hgt)

theorem governingWindow_none {u : WindowUnit} {l : Line} (h : ∀ i : Fin 8, ¬ inWindow u.table[i] l) :
    u.governingWindow l = none :=
  List.find?_eq_none.mpr fun i _ => mt (contains_iff _ l).mp (h i)

/-- Settles O8: the search finds the lowest window that contains the line, or none. -/
theorem governingRecordIsLowestWindow : Obligations.GoverningRecordIsLowestWindow := by
  intro u l
  refine ⟨fun i hi hlower => ?window, fun hnone => ?background⟩
  case window =>
    have hfind := governingWindow_lowest hi hlower
    simp only [WindowUnit.governing, WindowUnit.governingNumber, hfind, and_self]
  case background =>
    have hfind := governingWindow_none hnone
    simp only [WindowUnit.governing, WindowUnit.governingNumber, hfind, and_self]

end Sys2Proof.Machine
end

section
/-! SUPPORT. What every command keeps: the queue of commands, and the answers and operations already sent (R12); and
what the unit does on an empty queue (R122; 00_scope.md, Time). -/

namespace Sys2Proof.Machine

/-- Settles O1: a step takes the command at the front. -/
theorem stepRunsFrontCommand : Obligations.StepRunsFrontCommand := by
  intro s c rest hp
  simp only [step, hp]

/-- Commands wait as before, and outputs are only added to. -/
structure OutputsGrow (s t : State) : Prop where
  pending : t.pending = s.pending
  answers : ∀ m : Master, ∃ more, t.answers[m] = s.answers[m] ++ more
  operations : ∃ more, t.operations = s.operations ++ more

theorem OutputsGrow.of_eq {s t : State} (hp : t.pending = s.pending) (ha : t.answers = s.answers)
    (ho : t.operations = s.operations) : OutputsGrow s t :=
  ⟨hp, fun m => ⟨[], by rw [ha, List.append_nil]⟩, [], by rw [ho, List.append_nil]⟩

theorem OutputsGrow.of_answer {s t : State} {m : Master} {a : Answer} (hp : t.pending = s.pending)
    (ha : t.answers = s.answers.set m (s.answers[m] ++ [a])) (ho : t.operations = s.operations) : OutputsGrow s t := by
  refine ⟨hp, fun n => ?_, [], by rw [ho, List.append_nil]⟩
  rw [ha]
  simp only [Fin.getElem_fin, Vector.getElem_set]
  split
  · rename_i hmn
    simp only [← hmn]
    exact ⟨[a], rfl⟩
  · exact ⟨[], (List.append_nil _).symm⟩

theorem OutputsGrow.of_movePorts {s u : State} {f : Master → Port → Port × List Answer} (hu : u.pending = s.pending)
    (ha : u.answers = s.answers) (ho : u.operations = s.operations) : OutputsGrow s (u.movePorts f) := by
  refine ⟨hu, fun m => ⟨(f m u.ports[m]).2, ?_⟩, [], ho.trans (List.append_nil _).symm⟩
  simp [ha]

theorem OutputsGrow.of_applyHold {s u : State} (m : Master) (l : Line) (e : HoldEffect) (h : OutputsGrow s u) :
    OutputsGrow s (u.applyHold m l e) := by
  rw [applyHold_other]
  exact ⟨h.pending, h.answers, h.operations⟩

theorem OutputsGrow.raise {s u : State} (x : Incident) (h : OutputsGrow s u) : OutputsGrow s (u.raise x) :=
  ⟨h.pending, h.answers, h.operations⟩

theorem OutputsGrow.of_complete {s : State} (u : State) (o : Op) (status : MemStatus) (words : List Word)
    (hp : u.pending = s.pending) (ha : u.answers = s.answers) (ho : u.operations = s.operations) :
    OutputsGrow s (u.complete o status words) := by
  unfold State.complete
  split
  · unfold State.removeEntry
    split
    · exact .of_movePorts hp ha ho
    · exact .of_eq hp ha ho
  · split
    · split
      · exact .of_answer hp (by rw [State.finish_answers, ha]) ho
      · exact .of_eq hp ha ho
    · refine .raise _ ?_
      split
      · exact .of_answer hp (by rw [State.finish_answers, ha]) ho
      · exact .of_eq hp ha ho

theorem OutputsGrow.of_grant (s : State) (c : Claimant) : OutputsGrow s (s.grant c) := by
  cases c with
  | q =>
    simp only [State.grant, State.issueWrite]
    split
    · exact ⟨rfl, fun m => ⟨[], (List.append_nil _).symm⟩, _, rfl⟩
    · exact .of_eq rfl rfl rfl
  | p m =>
    simp only [State.grant, State.issueRead]
    split
    · exact ⟨rfl, fun m => ⟨[], (List.append_nil _).symm⟩, _, rfl⟩
    · exact .of_eq rfl rfl rfl

theorem OutputsGrow.of_halt (s : State) : OutputsGrow s s.halt := by
  unfold State.halt
  split
  · exact .of_eq rfl rfl rfl
  · rename_i o rest _
    have hmoved := OutputsGrow.of_movePorts (s := s)
      (u := { s with
        mem := { s.mem with state := .halted, epoch := s.mem.epoch + 1, ops := [] }
        queue := s.queue.filter (fun e => !e.lostAtHalt)
        now := o.timer.reach s.now }) (f := fun _ p => p.onHalt s.queue) rfl rfl rfl
    refine ⟨?_, ?_, ?_⟩
    · rw [State.raiseAll_pending]; exact hmoved.pending
    · rw [State.raiseAll_answers]; exact hmoved.answers
    · rw [State.raiseAll_operations]; exact hmoved.operations

theorem OutputsGrow.of_commanded {s u : State} (h : Commanded s u) : OutputsGrow s u := by
  cases h <;> exact .of_eq rfl rfl rfl

theorem Event.outputsGrow {s t : State} (h : Event s t) : OutputsGrow s t := by
  cases h with
  | told m a => exact .of_answer rfl rfl rfl
  | toldRaised m a x => exact .of_answer rfl rfl rfl
  | holdRemoved i m a => exact .of_answer rfl rfl rfl
  | readStarted => exact .of_applyHold _ _ _ (.of_eq rfl rfl rfl)
  | writeMerged m a ws k target e =>
    have hanswers : ((s.mergeInto target (placeWords a.first ws) k).applyHold m a.line e).answers = s.answers := by
      rw [applyHold_other]; rfl
    refine .of_answer ?_ (by rw [State.answer_answers, hanswers]) ?_ <;> rw [applyHold_other] <;> rfl
  | writeAppended m a ws k posting combining e =>
    rw [applyHold_other]
    cases posting with
    | posted => exact .of_answer rfl rfl rfl
    | unposted => exact .of_eq rfl rfl rfl
  | granted c => exact .of_grant s c
  | completed o rest status words => exact .of_complete _ o status words rfl rfl rfl
  | halted => exact .of_halt s
  | expired i =>
    unfold State.expireHold
    repeat' split
    all_goals exact .of_eq rfl rfl rfl
  | portReset m =>
    unfold State.portReset
    dsimp only
    split <;> exact .of_eq rfl rfl rfl
  | commanded l u r _ _ hu =>
    have hgrow := OutputsGrow.of_commanded hu
    exact ⟨hgrow.pending, hgrow.answers, hgrow.operations⟩
  | _ => exact .of_eq rfl rfl rfl

/-- Settles O2: a command is the assertion of RESET or one event, and neither takes back an output. -/
theorem everyCommandCompletes : Obligations.EveryCommandCompletes := by
  intro c s
  by_cases hc : c = .resetAssert
  · subst hc
    exact ⟨s.powerOnReset, rfl, rfl, fun m => ⟨[], (List.append_nil _).symm⟩, [], (List.append_nil _).symm⟩
  · obtain ⟨t, hexec, hevent⟩ := exec_event c s hc
    have hgrow := hevent.outputsGrow
    exact ⟨t, hexec, hgrow.pending, hgrow.answers, hgrow.operations⟩

/-! ### The empty queue -/

theorem time_mem_ownEvents (s : State) :
    OwnEvent.time ∈ s.ownEvents ↔ s.grantee = none ∧ s.timelyAt s.now.tick := by
  have hhalt : OwnEvent.time ∉ s.haltEvents := by
    unfold State.haltEvents
    repeat' split
    all_goals simp
  have hexpiry : OwnEvent.time ∉ s.expiryEvents := by simp [State.expiryEvents]
  have hgrant : OwnEvent.time ∉ s.grantEvents := by
    unfold State.grantEvents
    split <;> simp
  simp only [State.ownEvents, List.mem_append, hhalt, hexpiry, hgrant, false_or]
  rw [← noneOverrun_iff, State.timeEvents]
  split <;> simp_all

/-- Where time may not pass and no grant is made, a timer that would run past its window may expire now. -/
theorem ownEvents_ne_nil (s : State) : s.ownEvents ≠ [] := by
  intro hnil
  have hno (e : OwnEvent) : e ∉ s.ownEvents := by simp [hnil]
  simp only [State.ownEvents, List.append_eq_nil_iff] at hnil
  obtain ⟨⟨⟨hhalt, hexpiry⟩, hgrant⟩, -⟩ := hnil
  have hgrantee : s.grantee = none := by
    unfold State.grantEvents at hgrant
    split at hgrant
    · simp at hgrant
    · assumption
  refine hno .time ((time_mem_ownEvents s).mpr ⟨hgrantee, fun o rest hops hover => ?_, fun i h r hslot hr hover => ?_⟩)
  · have hdue : o.timer.due s.now = true := due_of_overrun_tick o.timer s.now hover
    have htimer : s.oldestTimer = some o.timer := (oldestTimer_eq s o.timer).mpr ⟨o, rest, hops, rfl⟩
    simp [State.haltEvents, htimer, hdue] at hhalt
  · have hdue : r.due s.now = true := due_of_overrun_tick r s.now hover
    have htimer : s.holdTimer i = some r := (holdTimer_eq s i r).mpr ⟨h, hslot, hr⟩
    rw [State.expiryEvents, List.map_eq_nil_iff, List.filter_eq_nil_iff] at hexpiry
    exact hexpiry i (mem_holdSlots i) (by rw [htimer]; exact hdue)

/-- Settles O3: there is always an event of the unit's own, and time is none of them while a grant can be made. -/
theorem idleStepTakesOwnEvent : Obligations.IdleStepTakesOwnEvent := by
  intro s hp
  have hstep : step s = .next s.idle := by simp only [step, hp]
  refine ⟨?event, fun ⟨c, hc⟩ htime => ?noTime⟩
  case event =>
    obtain ⟨e, he, n, hidle⟩ := idle_runs s (ownEvents_ne_nil s)
    exact ⟨e, he, n, hstep.trans (congrArg _ hidle)⟩
  case noTime =>
    have hgrantee := (grantee_iff s c).mpr hc
    rw [((time_mem_ownEvents s).mp htime).1] at hgrantee
    simp at hgrantee

end Sys2Proof.Machine
end

section
/-! SUPPORT. Time over every event: it moves on by a halt, by a hold expiry and by a step of the time base alone, and
never past the window of a running timer (R92, R104, R128; 00_scope.md, Time). -/

namespace Sys2Proof.Machine

theorem applyHold_now (s : State) (m : Master) (l : Line) (e : HoldEffect) : (s.applyHold m l e).now = s.now := by
  rw [applyHold_other]

theorem answerWrite_now (s : State) (m : Master) (a : Access) (posting : Posting) (id : Nat) :
    (s.answerWrite m a posting id).now = s.now := by
  cases posting <;> rfl

theorem grant_now (s : State) (c : Claimant) : (s.grant c).now = s.now := by
  cases c with
  | q =>
    simp only [State.grant, State.issueWrite]
    split <;> rfl
  | p m =>
    simp only [State.grant, State.issueRead]
    split <;> rfl

theorem complete_now (s : State) (o : Op) (status : MemStatus) (words : List Word) :
    (s.complete o status words).now = s.now := by
  unfold State.complete
  split
  · unfold State.removeEntry
    split <;> rfl
  · repeat' split
    all_goals rfl

theorem portReset_now (s : State) (m : Master) : (s.portReset m).now = s.now := by
  unfold State.portReset
  dsimp only
  split <;> rfl

theorem Commanded.now {s u : State} (h : Commanded s u) : u.now = s.now := by
  cases h <;> rfl

theorem halt_now {s : State} {o : Op} {rest : List Op} (h : s.mem.ops = o :: rest) :
    s.halt.now = o.timer.reach s.now := by
  simp [State.halt, h]

/-- The expiry of an ACTIVE entry (R104). -/
theorem expireHold_active {s : State} {i : HoldSlot} {h : Hold} {r : Timer} (hslot : s.holds[i] = some h)
    (hr : h.state = .active r) :
    s.expireHold i =
      ({ s with now := r.reach s.now }.setHold i (some { h with state := .broken })).raise
        (.holdExpired h.owner h.line i) := by
  simp only [State.expireHold, hslot, hr]

/-- Where time moves on, no hold is acquired, and no timer running before is left past its window. -/
theorem Event.now {s t : State} (h : Event s t) :
    t.now = s.now ∨ (holdsReduced s.holds t.holds ∧ (s.timely → s.timelyAt t.now)) := by
  cases h with
  | readStarted => exact .inl (applyHold_now _ _ _ _)
  | writeMerged => exact .inl (applyHold_now _ _ _ _)
  | writeAppended => exact .inl ((answerWrite_now _ _ _ _ _).trans (applyHold_now _ _ _ _))
  | granted c => exact .inl (grant_now s c)
  | completed o rest status words => exact .inl (complete_now _ o status words)
  | portReset m => exact .inl (portReset_now s m)
  | commanded l u r _ _ hu => exact .inl hu.now
  | halted r hr hm =>
    obtain ⟨o, rest, ho, rfl⟩ := (oldestTimer_eq s r).mp hr
    refine .inr ⟨holdsReduced_of_eq (halt_holds s), fun hs => ?_⟩
    rw [halt_now ho]
    exact timelyAt_reach s o.timer hs hm
  | expired i r hr hm =>
    obtain ⟨x, hslot, hx⟩ := (holdTimer_eq s i r).mp hr
    refine .inr ⟨expireHold_reduced s i, fun hs => ?_⟩
    rw [expireHold_active hslot hx]
    exact timelyAt_reach s r hs hm
  | ticked h => exact .inr ⟨holdsReduced_refl _, fun _ => h⟩
  | _ => exact .inl rfl

theorem Event.timelyAt_now {s t : State} (h : Event s t) (hs : s.timely) : s.timelyAt t.now := by
  rcases h.now with hnow | ⟨-, htimely⟩
  · rw [hnow]
    exact hs
  · exact htimely hs

/-! ### Hold timers -/

theorem holdsTimelyAt_of_reduced {s t : State} {n : Time} (h : holdsReduced s.holds t.holds) (hs : s.holdsTimelyAt n) :
    t.holdsTimelyAt n := by
  intro i x r hx hr
  obtain ⟨x₀, hx₀, -, -, hstate⟩ := h i x hx
  refine hs i x₀ r hx₀ ?_
  rcases hstate with hstate | hstate
  · exact hstate ▸ hr
  · simp [hstate] at hr

theorem Acquired.holdsTimelyAt {s t : State} {m : Master} {l : Line} {i : HoldSlot} (h : Acquired s t.holds m l i)
    (hs : s.holdsTimelyAt s.now) : t.holdsTimelyAt s.now := by
  intro j x r hx hr
  rw [h.holds, holds_set_get] at hx
  split at hx
  · obtain rfl := Option.some.inj hx
    obtain rfl := HoldState.active.inj hr
    have hstart := start_not_overrun s.settings.holdLimit.toNat s.now
    simpa [Timer.overrun] using hstart
  · exact hs j x r hx hr

theorem Event.holdsTimely {s t : State} (h : Event s t) (hs : s.timely) : t.holdsTimelyAt t.now := by
  have hat := (h.timelyAt_now hs).2
  rcases h.holds with hreduced | ⟨m, l, i, hacquired⟩
  · exact holdsTimelyAt_of_reduced hreduced hat
  · rcases h.now with hnow | ⟨hreduced, -⟩
    · rw [hnow]
      exact hacquired.holdsTimelyAt hs.2
    · exact holdsTimelyAt_of_reduced hreduced hat

/-! ### Operation timers -/

/-- What an event does to the timers of the list of operations. -/
inductive OpsChange (s t : State) : Prop where
  /-- Every timer stays where it is. -/
  | kept (g : Op → Op) (hg : ∀ o, (g o).timer = o.timer) (ht : t.mem.ops = s.mem.ops.map g)
  /-- An operation issued, its timer started (R120). -/
  | issued (x : Op) (n : Nat) (hx : x.timer = Timer.start n s.now) (hnow : t.now = s.now)
      (ht : t.mem.ops = s.mem.ops ++ [x])
  /-- The oldest operation completed (R126). -/
  | completed (o : Op) (hnow : t.now = s.now) (ho : s.mem.ops = o :: t.mem.ops)
  /-- The list emptied by a halt (R130). -/
  | emptied (ht : t.mem.ops = [])

theorem OpsChange.same {s t : State} (h : t.mem.ops = s.mem.ops) : OpsChange s t :=
  .kept (fun o => o) (fun _ => rfl) (h.trans (List.map_id' _).symm)

theorem orphan_timer (m : Master) (o : Op) : (Op.orphan m o).timer = o.timer := by
  unfold Op.orphan
  repeat' split
  all_goals rfl

theorem Commanded.ops {s u : State} (h : Commanded s u) : u.mem.ops = s.mem.ops := by
  obtain ⟨-, -, hmem | hmem⟩ := h.memory <;> rw [hmem]

theorem Event.ops {s t : State} (h : Event s t) : OpsChange s t := by
  cases h with
  | readStarted => exact .same (congrArg _ (applyHold_mem _ _ _ _))
  | writeMerged => exact .same (congrArg MemPort.ops (applyHold_mem _ _ _ _))
  | writeAppended => exact .same (congrArg _ (answerWrite_applyHold_mem _ _ _ _ _ _))
  | granted c hc =>
    obtain ⟨kind, l, m, -, -, hops, -⟩ := grant_mem hc
    exact .issued _ _ rfl (grant_now s c) hops
  | completed o rest status words _ ho =>
    refine .completed o (complete_now _ o status words) ?_
    rw [complete_mem _ o status words, ho]
  | halted r hr =>
    obtain ⟨o, rest, ho, -⟩ := (oldestTimer_eq s r).mp hr
    exact .emptied (by rw [halt_mem ho])
  | expired i => exact .same (congrArg _ (expireHold_mem s i))
  | portReset m =>
    exact .kept (Op.orphan m) (orphan_timer m) (congrArg MemPort.ops (portReset_mem s m))
  | commanded l u r _ _ hu => exact .same hu.ops
  | _ => exact .same rfl

/-- An operation past its window at the head of the list has just become the oldest (R128). -/
theorem OpsChange.overdue {s t : State} (h : OpsChange s t) (hs : s.timelyAt t.now) {o : Op} {rest : List Op}
    (ho : t.mem.ops = o :: rest) (hover : o.timer.latest.le t.now = true) :
    (∃ older, s.mem.ops = older :: o :: rest) ∧ t.now = s.now := by
  have within {x : Op} {xs : List Op} (hx : s.mem.ops = x :: xs) (heq : x.timer = o.timer) : False :=
    hs.1 x xs hx (heq ▸ hover)
  cases h with
  | kept g hg ht =>
    cases hops : s.mem.ops with
    | nil => simp [ht, hops] at ho
    | cons x xs =>
      rw [ht, hops, List.map_cons] at ho
      obtain ⟨rfl, -⟩ := List.cons.inj ho
      exact (within hops (hg x).symm).elim
  | issued x n hx hnow ht =>
    cases hops : s.mem.ops with
    | nil =>
      rw [ht, hops, List.nil_append] at ho
      obtain ⟨rfl, -⟩ := List.cons.inj ho
      have hstart := start_not_overrun n s.now
      rw [← hx, Timer.overrun, ← hnow, hover] at hstart
      simp at hstart
    | cons y ys =>
      rw [ht, hops, List.cons_append] at ho
      obtain ⟨rfl, -⟩ := List.cons.inj ho
      exact (within hops rfl).elim
  | completed older hnow hops => exact ⟨⟨older, by rw [hops, ho]⟩, hnow⟩
  | emptied ht => simp [ht] at ho

/-! ### The unit's own events, and HOLD_EXPIRY -/

/-- None of the unit's own events takes the oldest operation alone off the list. -/
theorem runOwn_ops (s : State) (e : OwnEvent) :
    (s.runOwn e).mem.ops = [] ∨ s.mem.ops.length ≤ (s.runOwn e).mem.ops.length := by
  cases e with
  | halt =>
    cases hops : s.mem.ops with
    | nil => exact .inr (by simp)
    | cons o rest => exact .inl (congrArg MemPort.ops (halt_mem hops))
  | expire i => exact .inr (Nat.le_of_eq (congrArg _ (congrArg MemPort.ops (expireHold_mem s i)).symm))
  | time => exact .inr (Nat.le_refl _)
  | grant c =>
    cases c with
    | q =>
      simp only [State.runOwn, State.grant, State.issueWrite]
      split <;> simp
    | p m =>
      simp only [State.runOwn, State.grant, State.issueRead]
      split <;> simp

/-- An expiry touches its own slot alone. -/
theorem expireHold_other (s : State) {i j : HoldSlot} (h : j ≠ i) : (s.expireHold j).holds[i] = s.holds[i] := by
  unfold State.expireHold
  repeat' split
  · rw [State.raise_holds, State.setHold_holds, holds_set_get, if_neg h]
  · rfl
  · rfl

/-- Of the unit's own events the expiry of a slot alone changes its entry. -/
theorem runOwn_hold {s : State} {e : OwnEvent} {i : HoldSlot} (h : (s.runOwn e).holds[i] ≠ s.holds[i]) :
    e = .expire i := by
  cases e with
  | halt => exact absurd (congrArg (·[i]) (halt_holds s)) h
  | grant c => exact absurd (congrArg (·[i]) (grant_holds s c)) h
  | time => exact absurd rfl h
  | expire j =>
    by_cases hij : j = i
    · rw [hij]
    · exact absurd (expireHold_other s hij) h

/-- An expiry comes at its timer's limit or later. -/
theorem earliest_le_expireHold {s : State} {i : HoldSlot} {h : Hold} {r : Timer} (hslot : s.holds[i] = some h)
    (hr : h.state = .active r) : r.earliest.le (s.expireHold i).now = true := by
  rw [expireHold_active hslot hr]
  exact earliest_le_reach r s.now

/-- A step with no command waiting runs one of the unit's own events. -/
theorem step_own {s t : State} (hp : s.pending = []) (h : step s = .next t) :
    ∃ e, ∃ n, t = State.runOwn { s with drawn := n } e := by
  obtain ⟨e, -, n, hidle⟩ := idle_runs s (ownEvents_ne_nil s)
  simp only [step, hp] at h
  exact ⟨e, n, (Host.Outcome.next.inj h).symm.trans hidle⟩

/-- On an empty queue and at a HOLD_EXPIRY an entry changes by the expiry of its slot alone. -/
theorem step_hold_expired {s t : State} (hp : s.pending = [] ∨ ∃ j, s.pending.head? = some (.holdExpiry j))
    (hstep : step s = .next t) {i : HoldSlot} {h : Hold} {r : Timer} (hslot : s.holds[i] = some h)
    (hr : h.state = .active r) (hchanged : t.holds[i] ≠ some h) : r.earliest.le t.now = true := by
  rcases hp with hp | ⟨j, hp⟩
  · obtain ⟨e, n, rfl⟩ := step_own hp hstep
    obtain rfl := runOwn_hold (s := { s with drawn := n }) (i := i) (fun heq => hchanged (heq.trans hslot))
    exact earliest_le_expireHold (s := { s with drawn := n }) hslot hr
  · obtain ⟨rest, hpending⟩ : ∃ rest, s.pending = .holdExpiry j :: rest := by
      cases hs : s.pending with
      | nil => simp [hs] at hp
      | cons c rest => exact ⟨rest, by simpa [hs] using hp⟩
    rw [stepRunsFrontCommand s _ rest hpending] at hstep
    obtain rfl := Host.Outcome.next.inj hstep
    split at hchanged
    · by_cases hij : j = i
      · subst hij
        rw [if_pos (by assumption)]
        exact earliest_le_expireHold (s := { s with pending := rest }) hslot hr
      · exact absurd ((expireHold_other { s with pending := rest } hij).trans hslot) hchanged
    · exact absurd hslot hchanged

/-! ### Halts -/

/-- A Memory Port that becomes HALTED does so by a halt (R130). -/
theorem Event.halts {s t : State} (h : Event s t) (hs : s.mem.state = .normal) (ht : t.mem.state = .halted) :
    ∃ o rest, s.mem.ops = o :: rest ∧ t.now = o.timer.reach s.now := by
  have normal {u : State} (hu : u.mem = s.mem) (htu : t.mem = u.mem) {P : Prop} : P := by
    rw [htu, hu, hs] at ht
    simp at ht
  cases h with
  | readStarted => exact normal (u := s) rfl (applyHold_mem _ _ _ _)
  | writeMerged => exact normal (u := s) rfl (applyHold_mem _ _ _ _)
  | writeAppended => exact normal (u := s) rfl (answerWrite_applyHold_mem _ _ _ _ _ _)
  | granted c hc =>
    obtain ⟨kind, l, m, hstate, -⟩ := grant_mem hc
    simp [hstate, hs] at ht
  | completed o rest status words =>
    rw [complete_mem _ o status words] at ht
    simp [hs] at ht
  | halted r hr =>
    obtain ⟨o, rest, ho, -⟩ := (oldestTimer_eq s r).mp hr
    exact ⟨o, rest, ho, halt_now ho⟩
  | expired i => exact normal (u := s) rfl (expireHold_mem s i)
  | portReset m =>
    rw [portReset_mem s m] at ht
    simp [hs] at ht
  | commanded l u r _ _ hu =>
    rw [State.respond_mem] at ht
    obtain ⟨-, -, hmem | hmem⟩ := hu.memory
    · exact normal (u := s) rfl hmem
    · simp [hmem] at ht
  | _ => exact normal (u := s) rfl rfl

theorem reset_holdsTimelyAt {s : State} (h : s.holds = State.reset.holds) (n : Time) : s.holdsTimelyAt n := by
  intro i x r hx
  rw [h, reset_holds] at hx
  simp at hx

/-- Settles O4: the five parts in turn; that no timer running before the step is past its window at the time the step
ends (`Event.timelyAt_now`) is what they rest on. -/
theorem timersExpireInTheirWindow : Obligations.TimersExpireInTheirWindow := by
  intro s t hs hstep
  rcases step_event s t hstep with ⟨rest, hpending, rfl⟩ | ⟨rest, n, hevent⟩
  · refine ⟨reset_holdsTimelyAt rfl _, fun hp => ?_, fun o rest ho => ?_, fun _ hh => ?_, fun hp => ?_⟩
    · simp [hpending] at hp
    · simp [State.powerOnReset, State.reset] at ho
    · simp [State.powerOnReset, State.reset] at hh
    · simp [hpending] at hp
  · have hat : s.timelyAt t.now := hevent.timelyAt_now hs
    have hholds := hevent.holdsTimely hs
    have hoverdue {o : Op} {rest : List Op} (ho : t.mem.ops = o :: rest) (hover : o.timer.latest.le t.now = true) :
        (∃ older, s.mem.ops = older :: o :: rest) ∧ t.now = s.now := hevent.ops.overdue hat ho hover
    refine ⟨hholds, fun hp => ⟨fun o rest ho hover => ?own, hholds⟩, fun o rest ho hover => ?overdue,
      fun hnormal hhalted => ?halt, fun hp i h r hslot hr hchanged => ?expiry⟩
    case own =>
      obtain ⟨⟨older, hops⟩, -⟩ := hoverdue ho hover
      obtain ⟨e, k, rfl⟩ := step_own hp hstep
      rcases runOwn_ops { s with drawn := k } e with hnil | hle
      · simp [hnil] at ho
      · rw [ho] at hle
        simp [hops] at hle
    case overdue =>
      obtain ⟨⟨older, hops⟩, hnow⟩ := hoverdue ho hover
      exact ⟨older, hops, hnow⟩
    case halt =>
      obtain ⟨o, rest, ho, hnow⟩ := hevent.halts hnormal hhalted
      exact ⟨o, rest, ho, hnow ▸ earliest_le_reach o.timer s.now, hat.1 o rest ho⟩
    case expiry => exact ⟨step_hold_expired hp hstep hslot hr hchanged, hat.2 i h r hslot hr⟩

end Sys2Proof.Machine
end

section
/-! SUPPORT. The five grants: the one the arbiter chooses is made, and each brings the other claimants nearer (R61, R73,
R120, R122 to R124). -/

namespace Sys2Proof.Machine

/-- A grant command makes its grant when the arbiter chooses it, and otherwise nothing (R124). -/
theorem exec_grantOf (s : State) (c : Claimant) :
    exec (grantOf c) s = .next (if s.grantee = some c then s.grant c else s) := by
  cases c <;> rfl

theorem exec_grantOf_chosen {s : State} {c : Claimant} (h : s.chooses c) :
    exec (grantOf c) s = .next (s.grant c) := by
  rw [exec_grantOf, if_pos ((grantee_iff s c).mpr h)]

theorem exec_grantOf_notChosen {s : State} {c : Claimant} (h : ¬ s.chooses c) : exec (grantOf c) s = .next s := by
  rw [exec_grantOf, if_neg (mt (grantee_iff s c).mp h)]

/-- A grant made puts an operation on the list, so it is not nothing. -/
theorem grant_ne {s : State} {c : Claimant} (hc : s.claiming c) : s.grant c ≠ s := by
  intro heq
  obtain ⟨kind, l, m, -, -, hops, -⟩ := grant_mem hc
  rw [heq] at hops
  simpa using congrArg List.length hops

theorem chooses_unique {s : State} {c d : Claimant} (hc : s.chooses c) (hd : s.chooses d) : d = c :=
  Option.some.inj (((grantee_iff s d).mpr hd).symm.trans ((grantee_iff s c).mpr hc))

/-- Settles O20: the arbiter's choice is a function of the state, and a grant made changes it. -/
theorem arbiterChoosesOne : Obligations.ArbiterChoosesOne := by
  intro s
  refine ⟨fun ⟨c, hc⟩ => ?claimed, fun hnone => ?unclaimed⟩
  case claimed =>
    obtain ⟨d, hd⟩ := grantee_exists s c hc
    have hchosen := (grantee_iff s d).mp hd
    refine ⟨d, hchosen.1, hchosen, hd, fun x hx => chooses_unique hchosen hx, fun x => ⟨fun hmade => ?_, ?_⟩⟩
    · by_contra hne
      exact hmade (exec_grantOf_notChosen fun hx => hne (chooses_unique hchosen hx))
    · rintro rfl
      rw [exec_grantOf_chosen hchosen]
      exact fun heq => grant_ne hchosen.1 (Host.Outcome.next.inj heq)
  case unclaimed =>
    have hnot (c : Claimant) : ¬ s.chooses c := fun h => hnone c h.1
    exact ⟨Option.eq_none_iff_forall_ne_some.mpr fun c hc => hnot c ((grantee_iff s c).mp hc),
      fun c => exec_grantOf_notChosen (hnot c)⟩

/-- Settles O21, by whether the arbiter chooses Q. -/
theorem grantQIssuesOldestEntry : Obligations.GrantQIssuesOldestEntry := by
  intro s
  refine ⟨fun h => ?chosen, exec_grantOf_notChosen⟩
  case chosen =>
    have hexec := exec_grantOf_chosen h
    obtain ⟨⟨⟨-, -, hfree, -⟩, -, e, rest, hqueue, -⟩, -⟩ := h
    refine ⟨s.freeOpSlot, e, rest, freeOpSlot_lowest s hfree, hqueue, hexec.trans ?_⟩
    simp only [State.grant, State.issueWrite, hqueue]
    rfl

/-- Settles O22, by whether the arbiter chooses the port. -/
theorem grantPIssuesRead : Obligations.GrantPIssuesRead := by
  intro s m
  refine ⟨fun h => ?chosen, exec_grantOf_notChosen (c := .p m)⟩
  case chosen =>
    have hexec := exec_grantOf_chosen h
    obtain ⟨⟨⟨-, -, hfree, -⟩, a, hready⟩, -⟩ := h
    refine ⟨s.freeOpSlot, a, freeOpSlot_lowest s hfree, hready, hexec.trans ?_⟩
    simp only [State.grant, State.issueRead, hready]
    rfl

theorem searchDistance_le (r : Option Claimant) (d : Claimant) : searchDistance r d ≤ 4 := by
  have h : ∀ r ∈ none :: allClaimants.map some, ∀ d ∈ allClaimants, searchDistance r d ≤ 4 := by decide
  refine h r ?_ d (mem_allClaimants d)
  cases r <;> simp [mem_allClaimants]

/-- Searching on from the claimant served, every one that stood behind it stands nearer (R123). -/
theorem searchDistance_after (r : Option Claimant) (c d : Claimant) (hne : d ≠ c)
    (h : searchDistance r c ≤ searchDistance r d) : searchDistance (some c) d < searchDistance r d := by
  have H : ∀ r ∈ none :: allClaimants.map some, ∀ c ∈ allClaimants, ∀ d ∈ allClaimants, d ≠ c →
      searchDistance r c ≤ searchDistance r d → searchDistance (some c) d < searchDistance r d := by decide
  refine H r ?_ c (mem_allClaimants c) d (mem_allClaimants d) hne h
  cases r <;> simp [mem_allClaimants]

theorem grant_rotation {s : State} {c : Claimant} (hc : s.claiming c) : (s.grant c).mem.rotation = some c := by
  cases c with
  | q =>
    obtain ⟨-, -, e, rest, hqueue, -⟩ := hc
    rw [grant_q_mem hqueue]
  | p m =>
    obtain ⟨-, a, hready⟩ := hc
    rw [grant_p_mem hready]

/-- Settles O23: while Q does not win by urgency the claimant served is the nearest, and the search goes on
behind it. -/
theorem rotationServesEveryClaimant : Obligations.RotationServesEveryClaimant := by
  intro s t c d hchosen hurgent hd hne hexec
  obtain rfl : s.grant c = t := Host.Outcome.next.inj ((exec_grantOf_chosen hchosen).symm.trans hexec)
  obtain ⟨hc, hq | ⟨-, hnearest⟩⟩ := hchosen
  · exact absurd ⟨hq.1 ▸ hc, hq.2⟩ hurgent
  · refine ⟨searchDistance_le _ d, ?_⟩
    rw [grant_rotation hc]
    exact searchDistance_after _ c d hne (hnearest d hd)

end Sys2Proof.Machine
end

section
/-! SUPPORT. Completions: late, of a READ, of a WRITE (R62, R83, R121, R126, R127, R140). -/

namespace Sys2Proof.Machine

theorem arrive_late {s : State} {epoch : Epoch} (status : MemStatus) (words : List Word) (hr : s.resetLine = false)
    (h : epoch ≠ s.mem.epoch ∨ s.mem.ops = []) : s.arrive epoch status words = s.raise (.lateCompletion epoch) := by
  rw [State.arrive, if_neg (by simp [hr])]
  rcases h with h | h
  · rw [if_neg h]
  · simp only [h, ite_self]

/-- A completion of the current epoch is matched to the oldest operation, whatever op slot it carries (R121, R126). -/
theorem exec_completion_matched {s : State} {o : Op} {rest : List Op} (k : OpSlot) (status : MemStatus)
    (words : List Word) (hr : s.resetLine = false) (ho : s.mem.ops = o :: rest) :
    exec (.completion s.mem.epoch k status words) s =
      .next ({ s with mem := { s.mem with ops := rest } }.complete o status words) := by
  have harrive : s.arrive s.mem.epoch status words =
      { s with mem := { s.mem with ops := rest } }.complete o status words := by
    rw [State.arrive, if_neg (by simp [hr]), if_pos rfl, ho]
  exact congrArg Host.Outcome.next harrive

/-- Settles O24: RESET, another epoch and an empty list are looked at before any operation. -/
theorem lateCompletionDiscarded : Obligations.LateCompletionDiscarded := by
  intro s epoch k status words
  refine ⟨fun hr => ?reset, fun hr hlate => ?late⟩
  case reset => exact congrArg Host.Outcome.next (if_pos hr)
  case late => exact ⟨_, congrArg Host.Outcome.next (arrive_late status words hr hlate), Raised.one s _⟩

/-- The answer a matched READ gives to the port that waits for it (R75, R76, R83). -/
def State.readAnswered (s : State) (o : Op) (waiting : Bool) (a : Answer) : State :=
  if (waiting && s.ports[o.master].waitsFor o.slot) = true then s.finish o.master a else s

/-- A matched READ is answered by what came with it, and bad data raise their incident (R126). -/
theorem complete_read_eq (s : State) {o : Op} {first : Fin 8} {count : Nat} {waiting : Bool} (status : MemStatus)
    (words : List Word) (hk : o.kind = .read first count waiting) :
    s.complete o status words =
      if status = .good ∧ words.length = count then s.readAnswered o waiting (.done words)
      else (s.readAnswered o waiting (.error .data)).raise (.dataError o.master o.line) := by
  simp only [State.complete, hk]
  rfl

theorem waiting_iff (s : State) (o : Op) (waiting : Bool) :
    (waiting && s.ports[o.master].waitsFor o.slot) = true ↔
      waiting = true ∧ ∃ a, s.ports[o.master] = .issued a o.slot := by
  rw [Bool.and_eq_true, waitsFor_iff]

/-- Settles O25: whether the data are good decides answer and incident, and whether the port waits decides whether
anybody is answered. -/
theorem readCompletionAnswers : Obligations.ReadCompletionAnswers := by
  intro s k status words o rest first count waiting hr ho hk
  have hexec := exec_completion_matched k status words hr ho
  rw [complete_read_eq _ status words hk] at hexec
  have hwaiting := waiting_iff { s with mem := { s.mem with ops := rest } } o waiting
  refine ⟨_, State.readAnswered { s with mem := { s.mem with ops := rest } } o waiting
    (if status = .good ∧ words.length = count then .done words else .error .data), hexec,
    fun hgood => ?good, fun hbad => ?bad, fun hwaits => ?answered, fun hwaits => ?nobody⟩
  case good => rw [if_pos hgood, if_pos hgood]
  case bad =>
    rw [if_neg hbad, if_neg hbad]
    exact Raised.one _ _
  case answered =>
    rw [State.readAnswered, if_pos (hwaiting.mpr hwaits)]
    rfl
  case nobody => rw [State.readAnswered, if_neg (mt hwaiting.mp hwaits)]

/-! ### A WRITE completed -/

/-- The removal of the oldest entry of a queue with distinct identities (R62). -/
theorem removeEntry_oldest {s : State} {e : Entry} {younger : List Entry} (hq : s.queue = e :: younger)
    (hids : s.queue.Pairwise (fun e e' => e.id ≠ e'.id)) :
    s.removeEntry e.id = { s with queue := younger }.movePorts (Port.onRemoval e) := by
  rw [hq] at hids
  have hyounger : younger.filter (fun x => x.id != e.id) = younger :=
    List.filter_eq_self.mpr fun x hx => by simpa using ((List.pairwise_cons.mp hids).1 x hx).symm
  simp [State.removeEntry, hq, hyounger]

theorem filter_bne_eq (ws : List Nat) (k : Nat) :
    ws.filter (fun x => x != k) = ws.filter (fun id => decide (id ≠ k)) :=
  List.filter_congr fun x _ => by rw [Bool.eq_iff_iff]; simp

theorem filter_ne_eq_nil_iff (ws : List Nat) (k : Nat) :
    ws.filter (fun id => decide (id ≠ k)) = [] ↔ ∀ id ∈ ws, id = k := by
  simp [List.filter_eq_nil_iff]

/-- A BLOCKED read loses the entry, and with its last one is READY (R72). -/
theorem onRemoval_blocked (e : Entry) (m : Master) (a : Access) (ws : List Nat) :
    (Port.blocked a ws).onRemoval e m =
      if ∀ id ∈ ws, id = e.id then (.ready a, [])
      else (.blocked a (ws.filter (fun id => decide (id ≠ e.id))), []) := by
  rw [Port.onRemoval]
  simp only [filter_bne_eq, filter_ne_eq_nil_iff]

/-- A fence loses the entry, and with its last one is answered DONE (R80). -/
theorem onRemoval_fencing (e : Entry) (m : Master) (ws : List Nat) :
    (Port.fencing ws).onRemoval e m =
      if ∀ id ∈ ws, id = e.id then (.idle, [.done []])
      else (.fencing (ws.filter (fun id => decide (id ≠ e.id))), []) := by
  rw [Port.onRemoval]
  simp only [filter_bne_eq, filter_ne_eq_nil_iff]

/-- An UNPOSTED master that waits on the entry is answered DONE (R62). -/
theorem onRemoval_unposted (e : Entry) (m : Master) (a : Access) (id : Nat) :
    (Port.unposted a id).onRemoval e m =
      if id = e.id ∧ e.posting = .unposted ∧ e.master = m then (.idle, [.done []]) else (.unposted a id, []) := rfl

/-- Settles O26: the removal tells every port, and what a port does depends on its own record alone. -/
theorem writeCompletionRemovesEntry : Obligations.WriteCompletionRemovesEntry := by
  intro s k status words o rest e younger hs hr ho hq hk
  have hexec := exec_completion_matched k status words hr ho
  rw [complete_write_eq _ status words hk,
    removeEntry_oldest (s := { s with mem := { s.mem with ops := rest } }) hq (ids_ne_of_sound s hs)] at hexec
  refine ⟨_, hexec, rfl, fun m => ?_⟩
  simp only [State.movePorts_ports, State.movePorts_answers, Fin.getElem_fin, Vector.getElem_ofFn]
  cases s.ports[m.val] with
  | idle => exact ⟨rfl, List.append_nil _⟩
  | ready a => exact ⟨rfl, List.append_nil _⟩
  | issued a j => exact ⟨rfl, List.append_nil _⟩
  | unposted a id =>
    rw [onRemoval_unposted]
    dsimp only
    split
    · exact ⟨rfl, rfl⟩
    · exact ⟨rfl, List.append_nil _⟩
  | blocked a ws =>
    rw [onRemoval_blocked]
    dsimp only
    split
    · exact ⟨List.append_nil _, rfl⟩
    · exact ⟨List.append_nil _, rfl⟩
  | fencing ws =>
    rw [onRemoval_fencing]
    dsimp only
    split
    · exact ⟨rfl, rfl⟩
    · exact ⟨rfl, List.append_nil _⟩

end Sys2Proof.Machine
end

section
/-! SUPPORT. The events that timers cause, and RESUME: a halt and a hold expiry come where their timer can be the next
to expire (R92, R104, R128, R130 to R137). -/

namespace Sys2Proof.Machine

/-! ### Halts -/

theorem exec_halt_allowed {s : State} {o : Op} {rest : List Op} (ho : s.mem.ops = o :: rest)
    (hm : s.mayExpire o.timer) : exec .halt s = .next s.halt := by
  have htimer : s.oldestTimer = some o.timer := (oldestTimer_eq s o.timer).mpr ⟨o, rest, ho, rfl⟩
  have hallows : s.timeAllows s.oldestTimer = true := by rw [htimer, timeAllows_some]; exact hm
  exact congrArg Host.Outcome.next (if_pos hallows)

theorem exec_halt_barred {s : State} (h : ∀ o rest, s.mem.ops = o :: rest → ¬ s.mayExpire o.timer) :
    exec .halt s = .next s := by
  have hbarred : ¬ s.timeAllows s.oldestTimer = true := by
    cases htimer : s.oldestTimer with
    | none => rw [timeAllows_none]; decide
    | some r =>
      obtain ⟨o, rest, ho, rfl⟩ := (oldestTimer_eq s r).mp htimer
      rw [timeAllows_some]
      exact h o rest ho
  exact congrArg Host.Outcome.next (if_neg hbarred)

/-- The state a halt leaves before its incidents are raised (R130 to R133). -/
def State.haltMoved (s : State) (o : Op) : State :=
  { s with
    mem := { s.mem with state := .halted, epoch := s.mem.epoch + 1, ops := [] }
    queue := s.queue.filter (fun e => !e.lostAtHalt)
    now := o.timer.reach s.now }.movePorts (fun _ p => p.onHalt s.queue)

theorem halt_eq {s : State} {o : Op} {rest : List Op} (ho : s.mem.ops = o :: rest) :
    s.halt = (s.haltMoved o).raiseAll (haltIncidents o s.mem.ops.length s.queue) := by
  simp only [State.halt, ho]
  rfl

theorem isIssued_eq (e : Entry) : e.isIssued = decide (e.state = .issued) := rfl

/-- Whom a halt reports lost, in the manual's words (R134). -/
theorem haltIncidents_eq (o : Op) (n : Nat) (q : List Entry) :
    haltIncidents o n q =
      .memTimeout o.line n ::
        ((q.filter (fun e => decide (e.state = .issued)) ++
            q.filter (fun e => decide (e.state ≠ .issued ∧ e.posting = .unposted))).map
          (fun e => .writeLost e.master e.line)) := by
  have hqueued : q.filter (fun e => !e.isIssued && e.posting == .unposted) =
      q.filter (fun e => decide (e.state ≠ .issued ∧ e.posting = .unposted)) :=
    List.filter_congr fun e _ => by rw [isIssued_eq, Bool.eq_iff_iff]; simp
  rw [haltIncidents, hqueued]
  rfl

/-- The entries a halt keeps: POSTED and not ISSUED (R66, R132). -/
theorem filter_kept_at_halt (q : List Entry) :
    q.filter (fun e => !e.lostAtHalt) = q.filter (fun e => decide (e.state ≠ .issued ∧ e.posting = .posted)) := by
  refine List.filter_congr fun e _ => ?_
  rw [Entry.lostAtHalt, isIssued_eq]
  cases hp : e.posting <;> simp

theorem onHalt_unposted (q : List Entry) (a : Access) (id : Nat) :
    ((Port.unposted a id).onHalt q).2 =
      if ∃ e ∈ q, e.id = id ∧ e.state = .issued then [.error .timeout] else [.error .memDown] := by
  have hany : q.any (fun e => e.id == id && e.isIssued) = true ↔ ∃ e ∈ q, e.id = id ∧ e.state = .issued := by
    simp [isIssued_eq]
  by_cases h : ∃ e ∈ q, e.id = id ∧ e.state = .issued
  · rw [if_pos h, Port.onHalt, if_pos (hany.mpr h)]
  · rw [if_neg h, Port.onHalt, if_neg (mt hany.mp h)]

/-- Settles O27: whether the halt comes about, then its incidents, its effects on the blocks, and each port's answer. -/
theorem haltAnswersEveryPort : Obligations.HaltAnswersEveryPort := by
  intro s
  refine ⟨exec_halt_barred, fun o rest ho hm => ?_⟩
  refine ⟨s.halt, s.haltMoved o, exec_halt_allowed ho hm, ?incidents, ?blocks, fun m => ⟨?idle, ?answer⟩⟩
  case incidents =>
    rw [halt_eq ho, ← haltIncidents_eq]
    exact Raised.all _ _ _
  case blocks =>
    rw [← filter_kept_at_halt]
    rfl
  case idle => simp [State.haltMoved, onHalt_idle]
  case answer =>
    have hanswers : (s.haltMoved o).answers[m] = s.answers[m] ++ (s.ports[m].onHalt s.queue).2 := by
      simp [State.haltMoved]
    rw [hanswers]
    cases s.ports[m] with
    | unposted a id => rw [onHalt_unposted]
    | _ => rfl

/-! ### Hold expiries -/

theorem exec_holdExpiry_barred {s : State} {i : HoldSlot}
    (h : ∀ x r, s.holds[i] = some x → x.state = .active r → ¬ s.mayExpire r) : exec (.holdExpiry i) s = .next s := by
  have hbarred : ¬ s.timeAllows (s.holdTimer i) = true := by
    cases htimer : s.holdTimer i with
    | none => rw [timeAllows_none]; decide
    | some r =>
      obtain ⟨x, hslot, hr⟩ := (holdTimer_eq s i r).mp htimer
      rw [timeAllows_some]
      exact h x r hslot hr
  exact congrArg Host.Outcome.next (if_neg hbarred)

theorem exec_holdExpiry_allowed {s : State} {i : HoldSlot} {x : Hold} {r : Timer} (hslot : s.holds[i] = some x)
    (hr : x.state = .active r) (hm : s.mayExpire r) : exec (.holdExpiry i) s = .next (s.expireHold i) := by
  have htimer : s.holdTimer i = some r := (holdTimer_eq s i r).mpr ⟨x, hslot, hr⟩
  have hallows : s.timeAllows (s.holdTimer i) = true := by rw [htimer, timeAllows_some]; exact hm
  exact congrArg Host.Outcome.next (if_pos hallows)

/-- Settles O29, by whether the slot's timer runs and can be the next to expire. -/
theorem holdExpiryBreaksEntry : Obligations.HoldExpiryBreaksEntry := by
  intro s i
  refine ⟨fun h r hslot hr hm => ?expires, exec_holdExpiry_barred⟩
  case expires =>
    refine ⟨_, exec_holdExpiry_allowed hslot hr hm, ?_⟩
    rw [expireHold_active hslot hr]
    exact Raised.one _ _

/-! ### RESUME -/

/-- Settles O28: RESUME asks for the Memory Port's state alone. -/
theorem resumeEndsHalt : Obligations.ResumeEndsHalt := by
  intro s tag ht
  refine ⟨fun hhalted => ?halted, fun hnormal => ?normal⟩
  case halted => exact exec_instr_replied (c := .resume) tag ht rfl fun _ => if_pos hhalted
  case normal =>
    have hnot : ¬ s.mem.state = .halted := by simp [hnormal]
    exact exec_instr_replied (c := .resume) tag ht rfl fun _ => if_neg hnot

end Sys2Proof.Machine
end

section
/-! SUPPORT. The resets: what a port reset and the power-on reset do to each block, and the values of reset (R20 to R22,
R24, R114, R139, R162). -/

namespace Sys2Proof.Machine

/-! ### A port reset -/

/-- What a port reset does but for its incident (R20, R60, R83, R114, R139). -/
def State.portAbandoned (s : State) (m : Master) : State :=
  { s with
    prst := s.prst.set m true
    ports := s.ports.set m .idle
    queue := sealWhere (fun e => e.master == m) s.queue
    mem := { s.mem with ops := s.mem.ops.map (Op.orphan m) }
    holds := Vector.ofFn (fun i : HoldSlot => dropOwned m s.holds[i]) }

theorem portReset_eq (s : State) (m : Master) :
    s.portReset m =
      if s.activeOf m = 0 then s.portAbandoned m
      else (s.portAbandoned m).raise (.holdsDropped m (s.activeOf m)) := rfl

theorem orphan_eq (m : Master) (o : Op) :
    Op.orphan m o =
      match o.kind with
      | .read first count _ => if o.master = m then { o with kind := .read first count false } else o
      | .write _ => o := by
  rcases o with ⟨kind, slot, epoch, line, master, timer⟩
  cases kind with
  | write id => rfl
  | read first count waiting =>
    cases waiting with
    | true => rfl
    | false => exact (ite_self _).symm

theorem portAbandoned_holds (s : State) (m : Master) (i : HoldSlot) :
    (s.portAbandoned m).holds[i] = dropOwned m s.holds[i] := by
  simp [State.portAbandoned]

theorem dropOwned_own {m : Master} {h : Hold} (ho : h.owner = m) : dropOwned m (some h) = none := if_pos ho

theorem dropOwned_other {m : Master} {x : Option Hold} (h : ∀ y, x = some y → y.owner ≠ m) : dropOwned m x = x := by
  cases x with
  | none => rfl
  | some y => exact if_neg (h y rfl)

/-- An entry that a port reset counts as ACTIVE (R114). -/
theorem activeOf_filter (s : State) (m : Master) :
    s.activeOf m =
      ((List.finRange 8).filter
        (fun i => s.holds[i].any (fun h => decide (h.owner = m ∧ h.state ≠ .broken)))).length := by
  rw [State.activeOf, show holdSlots = List.finRange 8 by decide]
  refine congrArg List.length (List.filter_congr fun i _ => ?_)
  cases s.holds[i] with
  | none => rfl
  | some h =>
    rw [Bool.eq_iff_iff]
    simp [isActive_iff]

theorem activeOf_eq_zero_iff (s : State) (m : Master) :
    s.activeOf m = 0 ↔ ∀ (i : HoldSlot) (h : Hold), s.holds[i] = some h → h.owner = m → h.state = .broken := by
  rw [activeOf_filter, List.length_eq_zero_iff, List.filter_eq_nil_iff]
  constructor
  · intro hnone i h hslot howner
    have := hnone i (List.mem_finRange i)
    rw [hslot] at this
    simpa [howner] using this
  · intro hall i _
    cases hslot : s.holds[i] with
    | none => simp
    | some h => simpa using hall i h hslot

/-- Settles O30: the blocks by `State.portAbandoned`, the incident by whether the master owned an ACTIVE entry. -/
theorem portResetAbandonsRequest : Obligations.PortResetAbandonsRequest := by
  intro s m
  refine ⟨s.portReset m, s.portAbandoned m, rfl, ?blocks, fun i => ⟨fun h hslot ho => ?own, fun h => ?other⟩,
    fun hbroken => ?quiet, fun ⟨i, h, hslot, ho, hactive⟩ => ?raised⟩
  case blocks =>
    have hseal : sealWhere (fun e => e.master == m) s.queue =
        s.queue.map (fun e => if e.master = m then sealedEntry e else e) :=
      sealWhere_eq _ (fun e => e.master = m) s.queue fun e => beq_iff_eq
    have horphan := List.map_congr_left (l := s.mem.ops) fun o _ => orphan_eq m o
    rw [← hseal]
    exact congrArg (fun ops => { s.portAbandoned m with mem := { s.mem with ops := ops } }) horphan
  case own => rw [portAbandoned_holds, hslot, dropOwned_own ho]
  case other => rw [portAbandoned_holds, dropOwned_other h]
  case quiet => rw [portReset_eq, if_pos ((activeOf_eq_zero_iff s m).mpr hbroken)]
  case raised =>
    have hsome : s.activeOf m ≠ 0 := fun hzero => hactive ((activeOf_eq_zero_iff s m).mp hzero i h hslot ho)
    rw [portReset_eq, if_neg hsome, ← activeOf_filter]
    exact Raised.one _ _

/-! ### Levels -/

/-- Settles O31: each deassertion writes the level of its own input. -/
theorem deassertionChangesLevelOnly : Obligations.DeassertionChangesLevelOnly := by
  intro s m
  refine ⟨⟨_, rfl, rfl, ?level, fun n hn => ?others, fun hr hidle => ?takes⟩,
    ⟨_, rfl, rfl, fun hp hidle => ⟨rfl, hp, hidle⟩⟩⟩
  case level => rw [prst_set_get, if_pos rfl]
  case others => rw [prst_set_get, if_neg hn.symm]
  case takes => exact ⟨hr, by rw [prst_set_get, if_pos rfl], hidle⟩

/-! ### Values of reset -/

theorem reset_ports (m : Master) : State.reset.ports[m] = .idle := by fin_cases m <;> rfl

theorem reset_table (i : Fin 8) : State.reset.windows.table[i] = Window.zero := by fin_cases i <;> rfl

/-- Settles O32: what the assertion of RESET sets is the state of reset, field by field, and what it keeps is not
looked at. -/
theorem resetAssertTakesResetValues : Obligations.ResetAssertTakesResetValues := fun s =>
  ⟨s.powerOnReset, rfl, reset_ports, reset_table, rfl, rfl, rfl, reset_holds, rfl, rfl, rfl, rfl, rfl, rfl, rfl, rfl,
    rfl, rfl, rfl, rfl⟩

/-- Settles O33: the values as written, and each invariant of a state with nothing in it. -/
theorem resetValues : Obligations.ResetValues := by
  refine ⟨rfl, reset_table, rfl, rfl, rfl, reset_holds, rfl, rfl, rfl, rfl, rfl, rfl, rfl,
    holdsSound_of_empty reset_holds, queueSound_of_empty rfl, memSound_of_reset rfl, issueSound_of_reset rfl rfl,
    portsSound_of_reset rfl rfl rfl rfl, reset_valuesSound, reset_incidentsSound, ?link, ?response, ?held, ?timely, rfl⟩
  case link => exact released_sound State.reset.link
  case response => exact ⟨Nat.zero_le _, fun _ => rfl⟩
  case held => exact fun h => by simp [State.reset] at h
  case timely => exact ⟨fun o rest ho => by simp [State.reset] at ho, reset_holdsTimelyAt rfl _⟩

end Sys2Proof.Machine
end

section
/-! SUPPORT. Frames on the control link: what is judged, what is ignored, and what a frame's bits stand for (R154 to
R159, R162). -/

namespace Sys2Proof.Machine

/-! ### Frames of commands -/

theorem decodeFrame_eq_some_iff (bits : List Bool) (i : Instr) :
    decodeFrame bits = some i ↔
      ∃ (c : LinkCommand) (tag : Byte) (args : List Byte),
        bytesOfBits bits = frameOf c.code tag args ∧ args.length ≤ 20 ∧ c.instr tag args = i := by
  constructor
  · intro h
    unfold decodeFrame at h
    split at h
    · rename_i code tag args hjudged
      obtain ⟨c, hcode, hinstr⟩ := Option.map_eq_some_iff.mp h
      obtain ⟨hbytes, hlength⟩ := eq_frameOf_of_good _ code tag args hjudged
      exact ⟨c, tag, args, by rw [hbytes, code_of_ofCode code c hcode], hlength, hinstr⟩
    · simp at h
  · rintro ⟨c, tag, args, hbytes, hlength, rfl⟩
    simp only [decodeFrame, hbytes, judgeBytes_frameOf c.code tag args hlength, ofCode_code, Option.map_some]

/-- Settles O36: a command's frame is judged good, and its code names the command. -/
theorem frameDecodesToItsCommand : Obligations.FrameDecodesToItsCommand := fun c tag args hlength =>
  (decodeFrame_eq_some_iff _ _).mpr ⟨c, tag, args, bytesOfBits_encodeFrame c tag args, hlength, rfl⟩

/-- With select released before it, a whole frame acts by its whole bytes alone (R154). -/
theorem receive_wholeFrame_congr {s : State} {x y : List Bool} (hp : s.link.phase = .waiting)
    (h : bytesOfBits x = bytesOfBits y) : s.receive (wholeFrame x) = s.receive (wholeFrame y) := by
  cases hr : s.resetLine with
  | true => rw [receive_reset s x hr hp, receive_reset s y hr hp, h]
  | false => rw [receive_judged s x ⟨hr, hp⟩, receive_judged s y ⟨hr, hp⟩, h]

/-- Settles O37: the bits have the bytes of the command's own frame; whole bytes are its very bits. -/
theorem bitsActAsTheirCommand : Obligations.BitsActAsTheirCommand := by
  intro bits i s hdecode hphase
  obtain ⟨c, tag, args, hbytes, -, rfl⟩ := (decodeFrame_eq_some_iff bits i).mp hdecode
  rw [exec_instr]
  refine congrArg Host.Outcome.next ?_
  rcases hphase with hwaiting | hwhole
  · exact receive_wholeFrame_congr hwaiting (hbytes.trans (bytesOfBits_encodeFrame c tag args).symm)
  · have hbits : bits = encodeFrame c tag args := by
      rw [bits_of_bytes bits hwhole, hbytes]
      rfl
    rw [hbits]
    rfl

/-- Settles O38: the layout is `frameOf`'s, whose check byte makes the sum 0 (`byteSum_checked`). -/
theorem responseFrameLayout : Obligations.ResponseFrameLayout := by
  refine ⟨⟨rfl, rfl, rfl, rfl, rfl, rfl, rfl, rfl, rfl, rfl⟩, fun r _ => ?_⟩
  refine ⟨checkByte (frameBody r.status.code r.tag r.data), ?_, fun k => rfl⟩
  exact (byteSum_eq_zero_iff _).mp (byteSum_checked (frameBody r.status.code r.tag r.data))

/-- Settles O39: the argument length is checked before the command runs. -/
theorem wrongArgumentLengthAnswered : Obligations.WrongArgumentLengthAnswered := by
  intro s c n tag args ht hlength hn hne
  have hnotTaken : ¬ c.takes args.length = true := by simpa [LinkCommand.takes, hn] using hne
  rw [exec_instr, receiveCommand_eq s c tag args ht hlength, if_neg hnotTaken]

/-! ### FRAME_FAULT -/

/-- A sound link with select released holds nothing of a frame, so releasing it again changes nothing (R154). -/
theorem released_of_waiting {l : Link} (hs : l.sound) (hp : l.phase = .waiting) : l.released = l := by
  obtain ⟨hframe, -, -, hcount, hbits⟩ := hs
  have hzero : l.count = 0 := hcount (by simp [hp])
  have hempty : l.frame = [] := List.eq_nil_of_length_eq_zero (by omega)
  rcases l with ⟨phase, frame, count, bits, response, shifted, openBytes⟩
  simp only at hp hzero hempty hbits
  subst hp hzero hempty
  rw [Link.released, hbits rfl]

theorem receive_waiting {s : State} (bits : List Bool) (closes : Bool) (hs : s.linkSound)
    (hp : s.link.phase = .waiting) : s.receive { opens := false, bits := bits, closes := closes } = s := by
  have hclocked : s.link.clockBits s.resetLine bits = s.link := clockBits_waiting _ _ _ hp
  simp only [receive_eq, Bool.false_eq_true, if_false, hclocked]
  split
  · rw [selectRelease_unjudged s (.inr (by simp [hp])), released_of_waiting hs hp]
  · rfl

/-- A whole frame, with the bits of an unfinished byte at its end, is judged by its bytes (R154, R158). -/
theorem exec_frameFault_judged {s : State} (bytes : List Byte) {cut : List Bool} (ht : s.takesFrames)
    (hcut : cut.length < 8) :
    exec (.frameFault (wholeFrame (bitsOfBytes bytes ++ cut))) s =
      .next ({ s with link := s.linkAfter bytes.length s.link.response }.afterJudging (judgeBytes bytes)) := by
  have hreceive := receive_judged s (bitsOfBytes bytes ++ cut) ht
  rw [bytesOfBits_bitsOfBytes bytes cut hcut] at hreceive
  exact congrArg Host.Outcome.next hreceive

/-- Settles O35: pieces and released bits by the laws of `receive`, the three verdicts by the judging of the bytes. -/
theorem frameFaultAnswered : Obligations.FrameFaultAnswered := by
  refine ⟨fun s opens closes a b => ?pieces, fun s bits closes hs hp => ?released,
    fun s bits closes hp => ?asserted, fun s bytes cut ht hcut => ⟨fun hbad => ?framing, ?framed⟩⟩
  case pieces => exact ⟨_, rfl, congrArg Host.Outcome.next (receive_pieces s opens closes a b)⟩
  case released => exact congrArg Host.Outcome.next (receive_waiting bits closes hs hp)
  case asserted => exact congrArg Host.Outcome.next (receive_asserted s bits closes hp)
  case framing =>
    rw [exec_frameFault_judged bytes ht hcut, judgeBytes_bad bytes hbad]
    rfl
  case framed =>
    intro code tag n rest hbytes hn hlength
    have hjudge := exec_frameFault_judged bytes ht hcut
    have hframed := judgeBytes_framed code tag n rest hn (hbytes ▸ hlength)
    rw [← hbytes] at hframed
    refine ⟨fun hsum => ?check, fun hsum hcode => ?unknown⟩
    case check =>
      rw [hjudge, hframed, if_pos (mt (byteSum_eq_zero_iff bytes).mp hsum)]
      rfl
    case unknown =>
      rw [hjudge, hframed, if_neg (not_not_intro ((byteSum_eq_zero_iff bytes).mpr hsum))]
      simp only [State.afterJudging, State.executeFrame, hcode]
      rfl

/-! ### Under RESET, and until select is released after it -/

/-- The link after a piece that no frame takes. -/
def State.linkIgnoring (s : State) (p : LinkPiece) : Link :=
  let l := (if p.opens then s.link.selectAssert s.resetLine else s.link).clockBits s.resetLine p.bits
  if p.closes then l.released else l

theorem linkIgnoring_response (s : State) (p : LinkPiece) : (s.linkIgnoring p).response = s.link.response := by
  unfold State.linkIgnoring
  dsimp only
  split
  · exact clocked_response s p
  · exact clocked_response s p

theorem linkIgnoring_closed (s : State) {p : LinkPiece} (h : p.closes = true) :
    (s.linkIgnoring p).phase = .waiting := by
  unfold State.linkIgnoring
  dsimp only
  rw [if_pos h]
  rfl

/-- No frame begins where bytes are ignored (R162). -/
theorem linkIgnoring_receiving (s : State) (p : LinkPiece) (h : s.resetLine = true ∨ s.link.phase = .ignoring)
    (hp : (s.linkIgnoring p).phase = .receiving) : s.link.phase = .receiving := by
  by_cases hc : p.closes = true
  · rw [linkIgnoring_closed s hc] at hp
    simp at hp
  · unfold State.linkIgnoring at hp
    dsimp only at hp
    rw [if_neg hc] at hp
    rcases h with h | h
    · exact (LinkKept.of_clocked s p).phase h hp
    · rw [(clockBits_parts _ _ _).1, selectAssert_asserted _ _ (by simp [h]), ite_self] at hp
      exact hp

/-- What ignored bytes carry out (R162; assumption 18). -/
theorem linkIgnoring_shifted (s : State) (p : LinkPiece) (h : s.link.phase = .ignoring) {n : Nat}
    (hn : n = (s.link.bits.length + p.bits.length) / 8) :
    (s.resetLine = true → (s.linkIgnoring p).shifted = s.link.shifted ++ List.replicate n 0 ∧
      (s.linkIgnoring p).openBytes = s.link.openBytes) ∧
    (s.resetLine = false →
      (s.linkIgnoring p).shifted =
        s.link.shifted ++ (List.range n).map (fun k => Config.ignoredByte (s.link.openBytes + k)) ∧
      (s.linkIgnoring p).openBytes = s.link.openBytes + n) := by
  have hasserted : s.link.phase ≠ .waiting := by simp [h]
  have hlength : (bytesOfBits (s.link.bits ++ p.bits)).length = n := by
    rw [(bits_lengths _).1, List.length_append, hn]
  have hlink : (s.linkIgnoring p).shifted = (s.link.clockBits s.resetLine p.bits).shifted ∧
      (s.linkIgnoring p).openBytes = (s.link.clockBits s.resetLine p.bits).openBytes := by
    unfold State.linkIgnoring
    rw [selectAssert_asserted _ _ hasserted, ite_self]
    dsimp only
    split <;> exact ⟨rfl, rfl⟩
  rw [hlink.1, hlink.2, clockBits_asserted _ _ _ hasserted, foldl_clock_ignoring _ _ _ h, hlength]
  exact ⟨fun hr => by simp [hr], fun hr => by simp [hr]⟩

/-- Settles O34: where bytes are ignored a piece moves the link alone (`receive_ignored`), and what it carries out is
counted byte by byte. -/
theorem framesIgnoredUnderReset : Obligations.FramesIgnoredUnderReset := by
  intro s
  refine ⟨fun h => ⟨fun c tag args => ?command, fun p => ?piece⟩,
    fun hr hp => ⟨fun c tag args _ => ?wholeCommand, fun bytes cut hcut => ?whole⟩, fun hp p => ?carried⟩
  case command =>
    have hreceived := receive_ignored s (wholeFrame (encodeFrame c tag args)) h
    exact ⟨s.linkIgnoring (wholeFrame (encodeFrame c tag args)),
      (exec_instr c tag args s).trans (congrArg Host.Outcome.next hreceived),
      linkIgnoring_response s _, linkIgnoring_closed s rfl⟩
  case piece =>
    exact ⟨s.linkIgnoring p, congrArg Host.Outcome.next (receive_ignored s p h), linkIgnoring_response s p,
      linkIgnoring_closed s, linkIgnoring_receiving s p h⟩
  case wholeCommand =>
    have hreceived := receive_reset s (encodeFrame c tag args) hr hp
    rw [bytesOfBits_encodeFrame, frameOf_length] at hreceived
    exact (exec_instr c tag args s).trans (congrArg Host.Outcome.next hreceived)
  case whole =>
    have hreceived := receive_reset s (bitsOfBytes bytes ++ cut) hr hp
    rw [bytesOfBits_bitsOfBytes bytes cut hcut] at hreceived
    exact congrArg Host.Outcome.next hreceived
  case carried =>
    exact ⟨_, s.linkIgnoring p, rfl, congrArg Host.Outcome.next (receive_ignored s p (.inr hp)),
      linkIgnoring_shifted s p hp rfl⟩

end Sys2Proof.Machine
end

section
/-! SUPPORT. SET and the window commands: what each makes of its argument bytes (R33 to R37, R40, R165, R168). -/

namespace Sys2Proof.Machine

/-! ### SET -/

theorem setItem_holdLimit (s : State) (v : BitVec 16) :
    setItem s (0x01 :: bytes16 v) =
      if 1 ≤ v.toNat ∧ v.toNat ≤ 4000 then
        ({ s with settings := { s.settings with holdLimit := v } }, { status := .ok, data := [] })
      else (s, { status := .badValue, data := [] }) := by
  have hvalue := leValue_bytes16 v
  unfold bytes16 at hvalue ⊢
  simp only [setItem, hvalue, BitVec.ofNat_toNat, BitVec.setWidth_eq]
  rfl

theorem setItem_memTimeout (s : State) (v : BitVec 16) :
    setItem s (0x02 :: bytes16 v) =
      if 2 ≤ v.toNat ∧ v.toNat ≤ 500 then
        ({ s with settings := { s.settings with memTimeout := v } }, { status := .ok, data := [] })
      else (s, { status := .badValue, data := [] }) := by
  have hvalue := leValue_bytes16 v
  unfold bytes16 at hvalue ⊢
  simp only [setItem, hvalue, BitVec.ofNat_toNat, BitVec.setWidth_eq]
  rfl

theorem setItem_urgentLevel (s : State) (v : BitVec 16) :
    setItem s (0x03 :: bytes16 v) =
      if 1 ≤ v.toNat ∧ v.toNat ≤ 16 then
        ({ s with settings := { s.settings with urgentLevel := v } }, { status := .ok, data := [] })
      else (s, { status := .badValue, data := [] }) := by
  have hvalue := leValue_bytes16 v
  unfold bytes16 at hvalue ⊢
  simp only [setItem, hvalue, BitVec.ofNat_toNat, BitVec.setWidth_eq]
  rfl

/-- The second byte of a value below 256 is 0 (R165). -/
theorem highByte_eq_zero_iff (v : BitVec 16) : v.extractLsb' 8 8 = 0 ↔ v.toNat < 256 := by
  have := v.isLt
  rw [← BitVec.toNat_inj]
  simp [Nat.shiftRight_eq_div_pow]
  omega

theorem setItem_alertMask (s : State) (v : BitVec 16) :
    setItem s (0x04 :: bytes16 v) =
      if v.toNat < 256 then
        ({ s with settings := { s.settings with alertMask := v.setWidth 8 } }.judgeAlert, { status := .ok, data := [] })
      else (s, { status := .badValue, data := [] }) := by
  have hlow : v.extractLsb' 0 8 = v.setWidth 8 := by
    apply BitVec.eq_of_toNat_eq
    simp
  simp only [← highByte_eq_zero_iff, ← hlow]
  rfl

/-- A code that names no settings item is turned away whatever the value (R165). -/
theorem setItem_other (s : State) {code : Byte} (v : BitVec 16)
    (h : code ∉ ([0x01, 0x02, 0x03, 0x04] : List Byte)) :
    setItem s (code :: bytes16 v) = (s, { status := .badItem, data := [] }) := by
  have hnot {i : Item} (hi : itemOfCode code = some i) (hmem : i.code ∈ ([0x01, 0x02, 0x03, 0x04] : List Byte)) :
      False := h (code_of_itemOfCode hi ▸ hmem)
  unfold setItem bytes16
  dsimp only
  split
  · rename_i hi
    exact (hnot hi (by decide)).elim
  · rename_i hi
    exact (hnot hi (by decide)).elim
  · rename_i hi
    exact (hnot hi (by decide)).elim
  · rename_i hi
    exact (hnot hi (by decide)).elim
  · rfl

theorem maskBit_lt (x : Incident) : x.maskBit < 8 := by cases x <;> simp [Incident.maskBit]

/-- ALERT under a new mask, read from the two bytes of the value (R151, R152). -/
theorem alertCondition_setWidth_iff (rs : List Record) (n : BitVec 8) (v : BitVec 16) :
    alertCondition rs n (v.setWidth 8) = true ↔
      (∃ r ∈ rs, v.getLsbD r.incident.maskBit = true) ∨ n ≠ 0 := by
  rw [alertCondition_iff]
  simp only [BitVec.getLsbD_setWidth, maskBit_lt, decide_true, Bool.true_and]

/-- Settles O42, item by item: each range decides between the new value and BAD_VALUE. -/
theorem setReplacesItem : Obligations.SetReplacesItem := by
  refine ⟨fun m l w i n e => ⟨rfl, rfl, rfl, rfl, rfl, rfl, rfl, rfl⟩, fun s tag v ht => ?_⟩
  refine ⟨?holdLimit, ?memTimeout, ?urgentLevel, fun hv => ?alertMask, fun hv => ?wideMask, fun code hcode => ?other⟩
  case holdLimit =>
    split
    · exact exec_instr_replied (c := .setItem) tag ht rfl fun _ => (setItem_holdLimit _ v).trans (if_pos ‹_›)
    · exact exec_instr_replied (c := .setItem) tag ht rfl fun _ => (setItem_holdLimit _ v).trans (if_neg ‹_›)
  case memTimeout =>
    split
    · exact exec_instr_replied (c := .setItem) tag ht rfl fun _ => (setItem_memTimeout _ v).trans (if_pos ‹_›)
    · exact exec_instr_replied (c := .setItem) tag ht rfl fun _ => (setItem_memTimeout _ v).trans (if_neg ‹_›)
  case urgentLevel =>
    split
    · exact exec_instr_replied (c := .setItem) tag ht rfl fun _ => (setItem_urgentLevel _ v).trans (if_pos ‹_›)
    · exact exec_instr_replied (c := .setItem) tag ht rfl fun _ => (setItem_urgentLevel _ v).trans (if_neg ‹_›)
  case alertMask =>
    exact ⟨alertCondition s.incidents.records s.incidents.overflow (v.setWidth 8),
      exec_instr_replied (c := .setItem) tag ht rfl fun _ => (setItem_alertMask _ v).trans (if_pos hv),
      alertCondition_setWidth_iff _ _ v⟩
  case wideMask =>
    exact exec_instr_replied (c := .setItem) tag ht rfl
      fun _ => (setItem_alertMask _ v).trans (if_neg (Nat.not_lt.mpr hv))
  case other => exact exec_instr_replied (c := .setItem) tag ht rfl fun _ => setItem_other _ v hcode

/-! ### LOAD_WINDOW -/

/-- LOAD_WINDOW of a window, its fields in range (R33). -/
theorem loadWindow_window {s : State} (i : Fin 8) {w : Window} (hf : s.windows.frozen = false)
    (hw : w.base ≤ w.limit) :
    loadWindow s (BitVec.ofNat 8 i.val :: windowArgs w) =
      ({ s with windows := { s.windows with table := s.windows.table.set i w } }, { status := .ok, data := [] }) := by
  have hrange := (rangeArg_iff _ _ _ _ _ _ _ w.enabled w.base w.limit).mpr ⟨rfl, rfl, rfl, hw⟩
  have hattrs := (attributesArg_iff _ _ _ _ _ _ w.attrs).mpr rfl
  unfold loadWindow windowArgs pageBytes attributeArgs
  rw [if_neg (by simp [hf])]
  simp only [List.cons_append, List.nil_append, windowNumber_ofNat, hrange, hattrs]

theorem windowNumber_eight : windowNumber 8 = none := rfl

/-- LOAD_WINDOW of B looks at the last six bytes alone (R35). -/
theorem loadWindow_background {s : State} {ignored : List Byte} (a : Attributes) (hf : s.windows.frozen = false)
    (hlength : ignored.length = 7) :
    loadWindow s (8 :: (ignored ++ attributeArgs a)) =
      ({ s with windows := { s.windows with background := a } }, { status := .ok, data := [] }) := by
  have hattrs := (attributesArg_iff _ _ _ _ _ _ a).mpr rfl
  match ignored, hlength with
  | [x0, x1, x2, x3, x4, x5, x6], _ =>
    unfold loadWindow attributeArgs
    rw [if_neg (by simp [hf])]
    simp only [List.cons_append, List.nil_append, windowNumber_eight, hattrs]
    rfl

/-- Bytes that spell neither a window nor B are turned away (R34, R168). -/
theorem loadWindow_unspelt {s : State} {args : List Byte} (hf : s.windows.frozen = false)
    (hwindow : ¬ ∃ (i : Fin 8) (w : Window), w.base ≤ w.limit ∧ args = BitVec.ofNat 8 i.val :: windowArgs w)
    (hbackground : ¬ ∃ (ignored : List Byte) (a : Attributes),
      ignored.length = 7 ∧ args = 8 :: (ignored ++ attributeArgs a)) :
    loadWindow s args = (s, { status := .badValue, data := [] }) := by
  unfold loadWindow
  rw [if_neg (by simp [hf])]
  split
  · rename_i num en b0 b1 b2 l0 l1 l2 rs ws ho po bp co
    split
    · rename_i i hnum
      split
      · rename_i e b l a hrange hattrs
        obtain ⟨hen, hb, hl, hle⟩ := (rangeArg_iff _ _ _ _ _ _ _ e b l).mp hrange
        have ha := (attributesArg_iff _ _ _ _ _ _ a).mp hattrs
        refine absurd ⟨i, { enabled := e, base := b, limit := l, attrs := a }, hle, ?_⟩ hwindow
        rw [windowNumber_some num i hnum, windowArgs, ← hen, ← hb, ← hl, ← ha]
        rfl
      · rfl
    · split
      · rename_i a hnum hattrs
        have ha := (attributesArg_iff _ _ _ _ _ _ a).mp hattrs
        have height : num = 8 := BitVec.eq_of_toNat_eq (beq_iff_eq.mp hnum)
        refine absurd ⟨[en, b0, b1, b2, l0, l1, l2], a, rfl, ?_⟩ hbackground
        rw [height, ← ha]
        rfl
      · rfl
  · rfl

/-- A frame of a command whose number of argument bytes is known from elsewhere. -/
theorem exec_instr_replied_of_length {s effect : State} {c : LinkCommand} {args data : List Byte} {status : Status}
    {n : Nat} (tag : Byte) (ht : s.takesFrames) (hn : args.length = n) (hlength : c.argLength = some n)
    (hrun : ∀ l : Link,
      { s with link := l }.runCommand c args = ({ effect with link := l }, { status := status, data := data })) :
    exec (c.instr tag args) s = .next (s.replied (4 + n) tag status data effect) := by
  subst hn
  exact exec_instr_replied tag ht hlength hrun

/-- Settles O43: the argument bytes of a window, and of B, are read back as what they spell. -/
theorem loadWindowReplacesRecord : Obligations.LoadWindowReplacesRecord := by
  intro s tag ht hf
  refine ⟨fun i w hw => ?window, fun ignored a hlength => ?background⟩
  case window =>
    exact exec_instr_replied (c := .loadWindow) tag ht rfl fun l =>
      loadWindow_window (s := { s with link := l }) i hf hw
  case background =>
    have hargs : (8 :: (ignored ++ attributeArgs a)).length = 14 := by simp [hlength, attributeArgs]
    exact exec_instr_replied_of_length (c := .loadWindow) tag ht hargs rfl
      fun l => loadWindow_background (s := { s with link := l }) a hf hlength

/-- Settles O44: the flag is looked at before the bytes, and the bytes are then whatever they spell. -/
theorem loadWindowRefused : Obligations.LoadWindowRefused := by
  intro s tag args ht hlength
  refine ⟨fun hf => ?frozen, fun hf hwindow hbackground => ?unspelt⟩
  case frozen => exact exec_instr_replied_of_length (c := .loadWindow) tag ht hlength rfl fun _ => if_pos hf
  case unspelt =>
    exact exec_instr_replied_of_length (c := .loadWindow) tag ht hlength rfl
      fun l => loadWindow_unspelt (s := { s with link := l }) hf hwindow hbackground

/-! ### READ_WINDOW, DISABLE_WINDOW, FREEZE -/

theorem readWindow_window (s : State) (i : Fin 8) :
    readWindow s [BitVec.ofNat 8 i.val] = (s, { status := .ok, data := windowArgs s.windows.table[i] }) := by
  simp only [readWindow, windowNumber_ofNat, windowBytes_eq]

theorem readWindow_background (s : State) :
    readWindow s [8] = (s, { status := .ok, data := attributeArgs s.windows.background }) := by
  rw [← attributesBytes_eq]
  rfl

theorem readWindow_above (s : State) {b : Byte} (h : 8 < b.toNat) :
    readWindow s [b] = (s, { status := .badValue, data := [] }) := by
  have hnone := windowNumber_none b (Nat.lt_of_succ_lt h)
  have hne : b.toNat ≠ 8 := Nat.ne_of_gt h
  simp only [readWindow, hnone, if_neg hne]

/-- Settles O45, by the number: a window, B, or neither. -/
theorem readWindowReturnsRecord : Obligations.ReadWindowReturnsRecord := by
  intro s tag ht
  refine ⟨fun i => ?window, ?background, fun b hb => ?above⟩
  case window =>
    exact exec_instr_replied (c := .readWindow) tag ht rfl fun l => readWindow_window { s with link := l } i
  case background =>
    exact exec_instr_replied (c := .readWindow) tag ht rfl fun l => readWindow_background { s with link := l }
  case above => exact exec_instr_replied (c := .readWindow) tag ht rfl fun l => readWindow_above { s with link := l } hb

theorem disableWindow_window {s : State} (i : Fin 8) (hf : s.windows.frozen = false) :
    disableWindow s [BitVec.ofNat 8 i.val] =
      ({ s with
          windows :=
            { s.windows with table := s.windows.table.set i { s.windows.table[i] with enabled := false } } },
        { status := .ok, data := [] }) := by
  rw [disableWindow, if_neg (by simp [hf])]
  simp only [windowNumber_ofNat]

theorem disableWindow_above {s : State} {b : Byte} (hf : s.windows.frozen = false) (h : 7 < b.toNat) :
    disableWindow s [b] = (s, { status := .badValue, data := [] }) := by
  rw [disableWindow, if_neg (by simp [hf])]
  simp only [windowNumber_none b h]

/-- Settles O46: both commands look at the flag first. -/
theorem disableAndFreeze : Obligations.DisableAndFreeze := by
  intro s tag ht
  refine ⟨fun hf => ⟨fun i => ?disable, fun b hb => ?above, ?freeze⟩,
    fun hf => ⟨fun b => ?frozenDisable, ?frozenFreeze⟩⟩
  case disable =>
    exact exec_instr_replied (c := .disableWindow) tag ht rfl
      fun l => disableWindow_window (s := { s with link := l }) i hf
  case above =>
    exact exec_instr_replied (c := .disableWindow) tag ht rfl
      fun l => disableWindow_above (s := { s with link := l }) hf hb
  case freeze =>
    have hnot : ¬ s.windows.frozen = true := by simp [hf]
    exact exec_instr_replied (c := .freeze) tag ht rfl fun _ => if_neg hnot
  case frozenDisable => exact exec_instr_replied (c := .disableWindow) tag ht rfl fun _ => if_pos hf
  case frozenFreeze => exact exec_instr_replied (c := .freeze) tag ht rfl fun _ => if_pos hf

end Sys2Proof.Machine
end

section
/-! SUPPORT. The commands on the Hold Table and PEEK_INCIDENT: what each returns and does, slot by slot (R109, R111,
R112, R147). -/

namespace Sys2Proof.Machine

/-! ### READ_HOLD -/

theorem time_le_iff (a b : Time) : a.le b = true ↔ a.us < b.us ∨ (a.us = b.us ∧ a.sub ≤ b.sub) := by
  simp [Time.le]

/-- The time left, before a timer may expire, is whole microseconds rounded down (R112). -/
theorem remaining_floor {r : Timer} {now : Time} (h : r.earliest.le now = false) :
    (now.plus (r.remaining now)).le r.earliest = true ∧ (now.plus (r.remaining now + 1)).le r.earliest = false := by
  have hnotDue : ¬ r.due now = true := by simpa [Timer.due] using h
  rw [Timer.remaining, if_neg hnotDue]
  generalize r.earliest = e at h
  rw [← Bool.not_eq_true, time_le_iff] at h
  rw [← Bool.not_eq_true, time_le_iff, time_le_iff]
  simp only [Time.plus]
  split <;> omega

theorem readHold_active {s : State} {i : HoldSlot} {h : Hold} {r : Timer} (hslot : s.holds[i] = some h)
    (hr : h.state = .active r) :
    readHold s [BitVec.ofNat 8 i.val] =
      (s, { status := .ok
            data := bytes32 (h.line.setWidth 32) ++
              BitVec.ofNat 8 h.owner.val :: 0 :: bytes16 (BitVec.ofNat 16 (r.remaining s.now)) }) := by
  simp only [readHold, holdSlotArg_ofNat, hslot, Hold.bytes, hr, leBytes4_line, leBytes2, numByte]

theorem readHold_broken {s : State} {i : HoldSlot} {h : Hold} (hslot : s.holds[i] = some h) (hb : h.state = .broken) :
    readHold s [BitVec.ofNat 8 i.val] =
      (s, { status := .ok
            data := bytes32 (h.line.setWidth 32) ++ BitVec.ofNat 8 h.owner.val :: 1 :: bytes16 0 }) := by
  simp only [readHold, holdSlotArg_ofNat, hslot, Hold.bytes, hb, leBytes4_line, leBytes2, numByte]
  rfl

theorem readHold_empty {s : State} {i : HoldSlot} (hslot : s.holds[i] = none) :
    readHold s [BitVec.ofNat 8 i.val] = (s, { status := .empty, data := [] }) := by
  simp only [readHold, holdSlotArg_ofNat, hslot]

theorem readHold_above (s : State) {b : Byte} (h : 7 < b.toNat) :
    readHold s [b] = (s, { status := .badValue, data := [] }) := by
  simp only [readHold, holdSlotArg_none b h]

/-- Settles O47, by what the slot named holds. -/
theorem readHoldReturnsEntry : Obligations.ReadHoldReturnsEntry := by
  intro s tag ht
  refine ⟨fun i h r hslot hr => ?active, fun i h hslot hb => ?broken, fun i hslot => ?empty, fun b hb => ?above⟩
  case active =>
    refine ⟨r.remaining s.now, fun hdue => if_pos hdue, remaining_floor, ?_⟩
    exact exec_instr_replied (c := .readHold) tag ht rfl fun l => readHold_active (s := { s with link := l }) hslot hr
  case broken =>
    exact exec_instr_replied (c := .readHold) tag ht rfl fun l => readHold_broken (s := { s with link := l }) hslot hb
  case empty =>
    exact exec_instr_replied (c := .readHold) tag ht rfl fun l => readHold_empty (s := { s with link := l }) hslot
  case above => exact exec_instr_replied (c := .readHold) tag ht rfl fun l => readHold_above { s with link := l } hb

/-! ### BREAK_HOLD and CLEAR_HOLDS -/

theorem broken_eq (h : Hold) :
    h.broken = if h.state = .broken then none else some { h with state := .broken } := by
  unfold Hold.broken
  split
  · rename_i r hr
    rw [if_neg (by simp [hr])]
  · rename_i hb
    rw [if_pos hb]

theorem breakHold_occupied {s : State} {i : HoldSlot} {h : Hold} (hslot : s.holds[i] = some h) :
    breakHold s [BitVec.ofNat 8 i.val] = (s.setHold i h.broken, { status := .ok, data := [] }) := by
  simp only [breakHold, holdSlotArg_ofNat, hslot]

theorem breakHold_empty {s : State} {i : HoldSlot} (hslot : s.holds[i] = none) :
    breakHold s [BitVec.ofNat 8 i.val] = (s, { status := .badValue, data := [] }) := by
  simp only [breakHold, holdSlotArg_ofNat, hslot]

theorem breakHold_above (s : State) {b : Byte} (h : 7 < b.toNat) :
    breakHold s [b] = (s, { status := .badValue, data := [] }) := by
  simp only [breakHold, holdSlotArg_none b h]

/-- Settles O48: both commands make of an entry what `Hold.broken` does. -/
theorem breakAndClearHolds : Obligations.BreakAndClearHolds := by
  intro s tag ht
  refine ⟨fun i h hslot => ?occupied, fun i hslot => ?empty, fun b hb => ?above,
    Vector.ofFn (fun i : HoldSlot => s.holds[i].bind Hold.broken), ?clear, fun i => ?cleared⟩
  case occupied =>
    rw [← broken_eq]
    exact exec_instr_replied (c := .breakHold) tag ht rfl
      fun l => breakHold_occupied (s := { s with link := l }) hslot
  case empty =>
    exact exec_instr_replied (c := .breakHold) tag ht rfl fun l => breakHold_empty (s := { s with link := l }) hslot
  case above => exact exec_instr_replied (c := .breakHold) tag ht rfl fun l => breakHold_above { s with link := l } hb
  case clear => exact exec_instr_replied (c := .clearHolds) tag ht rfl fun _ => rfl
  case cleared =>
    have hget : (Vector.ofFn (fun i : HoldSlot => s.holds[i].bind Hold.broken))[i] = s.holds[i].bind Hold.broken := by
      simp
    rw [hget]
    cases s.holds[i] with
    | none => rfl
    | some h => exact broken_eq h

/-! ### PEEK_INCIDENT -/

theorem peekIncident_oldest {s : State} {r : Record} {rest : List Record} (h : s.incidents.records = r :: rest) :
    peekIncident s = (s, { status := .ok, data := recordData r }) := by
  simp only [peekIncident, h, recordBytes_eq]

theorem peekIncident_empty {s : State} (h : s.incidents.records = []) :
    peekIncident s = (s, { status := .empty, data := [] }) := by
  simp only [peekIncident, h]

/-- Settles O49, by whether the list holds a record. -/
theorem peekReturnsOldestRecord : Obligations.PeekReturnsOldestRecord := by
  intro s tag ht
  refine ⟨fun r rest h => ?oldest, fun h => ?empty⟩
  case oldest =>
    exact exec_instr_replied (c := .peekIncident) tag ht rfl fun l => peekIncident_oldest (s := { s with link := l }) h
  case empty =>
    exact exec_instr_replied (c := .peekIncident) tag ht rfl fun l => peekIncident_empty (s := { s with link := l }) h

end Sys2Proof.Machine
end
